-- ==== Sys2Proof/Word.lean ====
section
/-! DEFINITION. The two word types of the DXTU: a byte of a block and a 32-bit register word
(spec 10_state.md rule R14, 20_memory.md rules R30 to R32). -/

namespace Sys2Proof

/-- One byte of a block or of a host buffer. -/
abbrev Byte := BitVec 8

/-- One 32-bit register of the window (rule R14). -/
abbrev Word := BitVec 32

end Sys2Proof
end

