-- ==== Sys2Proof/Syntax.lean ====
section
/-! DEFINITION. The commands of the DXTU, one constructor per row of spec/opcode_table.json
(spec 30_encoding.md rule R59), the block formats (rule R57), the error codes (60_exceptions.md rule
R101) and the pseudo-commands (30_encoding.md rule R65). -/

namespace Sys2Proof

/-- A block format, the field FMT of a command (rule R57). -/
inductive Fmt where
  | dxt1
  | dxt3
  | dxt5
  deriving DecidableEq, Repr

/-- A command (rule R59). `k` is the number of 90° clockwise steps of ROTATE (rule R58); it is below
4 in a well-formed command. -/
inductive Instr where
  /-- NOP (rule R100) -/
  | nop
  /-- QALPHA3.DXT3 (rule R69) -/
  | qalpha3Dxt3
  /-- DECODE.DXT1 (rule R85) -/
  | decodeDxt1
  /-- DECODE.DXT3 (rule R86) -/
  | decodeDxt3
  /-- DECODE.DXT5 (rule R87) -/
  | decodeDxt5
  /-- ROTATE.DXT1 k (rule R93) -/
  | rotateDxt1 (k : Nat)
  /-- ROTATE.DXT5 k (rule R94) -/
  | rotateDxt5 (k : Nat)
  /-- FLIPH.DXT1 (rule R95) -/
  | fliphDxt1
  /-- FLIPH.DXT5 (rule R96) -/
  | fliphDxt5
  /-- FLIPV.DXT1 (rule R97) -/
  | flipvDxt1
  /-- FLIPV.DXT3 (rule R98) -/
  | flipvDxt3
  /-- FLIPV.DXT5 (rule R99) -/
  | flipvDxt5
  deriving DecidableEq, Repr

/-- The errors a command can end with (rule R101). -/
inductive ErrCode where
  /-- ERR_BADOP: OP is 6 to 15 -/
  | badOp
  /-- ERR_BADFIELD: a reserved bit, or a K or FMT the operation has no use for -/
  | badField
  /-- ERR_BADFMT: a format the operation does not take -/
  | badFmt
  /-- ERR_TRUNC: fewer input bytes than the block of a command other than DECODE -/
  | trunc
  deriving DecidableEq, Repr

/-- The code of an error in STATUS.ERR (rule R101). -/
def ErrCode.code : ErrCode → Nat
  | .badOp => 1
  | .badField => 2
  | .badFmt => 3
  | .trunc => 4

/-- The formats that ROTATE and FLIPH take (rule R59). -/
inductive GridFmt where
  | dxt1
  | dxt5
  deriving DecidableEq, Repr

/-- The pseudo-commands (rule R65). -/
inductive Pseudo where
  | rot90 (f : GridFmt)
  | rot180 (f : GridFmt)
  | rot270 (f : GridFmt)
  | rotCcw (f : GridFmt)
  | copy (f : Fmt)
  deriving DecidableEq, Repr

end Sys2Proof
end

