-- ==== Sys2Proof/WellFormed.lean ====
section
/-! DEFINITION. Which terms of `Instr` are commands: K is a 2-bit field (spec 30_encoding.md rule
R58). No other command has an operand (rule R60). -/

namespace Sys2Proof

/-- The check on a command's one operand, the step count of ROTATE (rule R58). -/
def Instr.wellFormed : Instr → Bool
  | .nop => true
  | .qalpha3Dxt3 => true
  | .decodeDxt1 => true
  | .decodeDxt3 => true
  | .decodeDxt5 => true
  | .rotateDxt1 k => decide (k < 4)
  | .rotateDxt5 k => decide (k < 4)
  | .fliphDxt1 => true
  | .fliphDxt5 => true
  | .flipvDxt1 => true
  | .flipvDxt3 => true
  | .flipvDxt5 => true

/-- `i` is a command of the DXTU. -/
abbrev Instr.WellFormed (i : Instr) : Prop := i.wellFormed = true

end Sys2Proof
end

