-- ==== Sys2Proof/Decode.lean ====
section
/-! DEFINITION. From a command word to a command or a named error, and back (spec 30_encoding.md
rules R55 to R65, 60_exceptions.md rules R101 and R103). -/

namespace Sys2Proof

/-- The spec's `v[hi:lo]` (rule R7), given by its lowest bit and its width `hi − lo + 1`. -/
def bits (v lo width : Nat) : Nat := v / 2 ^ lo % 2 ^ width

/-- OP = CMD[3:0] (rule R55). -/
def fieldOp (w : Word) : Nat := bits w.toNat 0 4

/-- FMT = CMD[5:4] (rule R55). -/
def fieldFmt (w : Word) : Nat := bits w.toNat 4 2

/-- K = CMD[7:6] (rule R55). -/
def fieldK (w : Word) : Nat := bits w.toNat 6 2

/-- RSV = CMD[31:8] (rule R55). -/
def fieldRsv (w : Word) : Nat := bits w.toNat 8 24

/-- The block size in bytes of a format (rule R57). -/
def Fmt.blockSize : Fmt → Nat
  | .dxt1 => 8
  | .dxt3 => 16
  | .dxt5 => 16

/-- What the decoder answers: a command, or the error the word ends with. -/
inductive DecodeResult where
  | ok (i : Instr)
  | error (e : ErrCode)
  deriving DecidableEq, Repr

/-- The error of a word that is no legal command, first match first (rules R61 and R103). -/
def encodingError (w : Word) : Option ErrCode :=
  if 6 ≤ fieldOp w then some .badOp
  else if fieldRsv w ≠ 0 ∨ (fieldK w ≠ 0 ∧ fieldOp w ≠ 3) ∨ (fieldFmt w ≠ 0 ∧ fieldOp w = 0) then
    some .badField
  else if fieldFmt w = 3 ∨ (fieldOp w = 2 ∧ fieldFmt w ≠ 1)
      ∨ ((fieldOp w = 3 ∨ fieldOp w = 4) ∧ fieldFmt w = 1) then
    some .badFmt
  else none

/-- The command of an OP and FMT pair of rule R59's table, with K as its operand where it has one. -/
def commandOf (op fmt k : Nat) : Option Instr :=
  match op, fmt with
  | 0, 0 => some .nop
  | 1, 0 => some .decodeDxt1
  | 1, 1 => some .decodeDxt3
  | 1, 2 => some .decodeDxt5
  | 2, 1 => some .qalpha3Dxt3
  | 3, 0 => some (.rotateDxt1 k)
  | 3, 2 => some (.rotateDxt5 k)
  | 4, 0 => some .fliphDxt1
  | 4, 2 => some .fliphDxt5
  | 5, 0 => some .flipvDxt1
  | 5, 1 => some .flipvDxt3
  | 5, 2 => some .flipvDxt5
  | _, _ => none

/-- Decode a command word. A word that no check of rule R61 refuses matches a row of rule R59's
table (`Sys2Proof.Laws.commandOf_of_noError`), so the last arm is never reached; it refuses. -/
def decode (w : Word) : DecodeResult :=
  match encodingError w with
  | some e => .error e
  | none =>
    match commandOf (fieldOp w) (fieldFmt w) (fieldK w) with
    | some i => .ok i
    | none => .error .badFmt

/-- The word of a command, from the hexadecimal column of rule R59's table. -/
def encode : Instr → Word
  | .nop => 0x00000000
  | .qalpha3Dxt3 => 0x00000012
  | .decodeDxt1 => 0x00000001
  | .decodeDxt3 => 0x00000011
  | .decodeDxt5 => 0x00000021
  | .rotateDxt1 k => BitVec.ofNat 32 (0x00000003 + 0x40 * (k % 4))
  | .rotateDxt5 k => BitVec.ofNat 32 (0x00000023 + 0x40 * (k % 4))
  | .fliphDxt1 => 0x00000004
  | .fliphDxt5 => 0x00000024
  | .flipvDxt1 => 0x00000005
  | .flipvDxt3 => 0x00000015
  | .flipvDxt5 => 0x00000025

/-- The command that a pseudo-command stands for (rule R65). -/
def Pseudo.expand : Pseudo → Instr
  | .rot90 .dxt1 => .rotateDxt1 1
  | .rot90 .dxt5 => .rotateDxt5 1
  | .rot180 .dxt1 => .rotateDxt1 2
  | .rot180 .dxt5 => .rotateDxt5 2
  | .rot270 .dxt1 => .rotateDxt1 3
  | .rot270 .dxt5 => .rotateDxt5 3
  | .rotCcw .dxt1 => .rotateDxt1 3
  | .rotCcw .dxt5 => .rotateDxt5 3
  | .copy .dxt1 => .flipvDxt1
  | .copy .dxt3 => .flipvDxt3
  | .copy .dxt5 => .flipvDxt5

/-- The step counts ROTATE's operand can be written as (rule R64). -/
def stepSpellings : List (String × Nat) :=
  [("0", 0), ("1", 1), ("2", 2), ("3", 3), ("#0", 0), ("#90", 1), ("#180", 2), ("#270", 3)]

/-- Every command as rules R64 and R65 write it. -/
def assemblerTable : List (String × Instr) :=
  [("NOP", .nop), ("QALPHA3.DXT3", .qalpha3Dxt3), ("DECODE.DXT1", .decodeDxt1),
    ("DECODE.DXT3", .decodeDxt3), ("DECODE.DXT5", .decodeDxt5), ("FLIPH.DXT1", .fliphDxt1),
    ("FLIPH.DXT5", .fliphDxt5), ("FLIPV.DXT1", .flipvDxt1), ("FLIPV.DXT3", .flipvDxt3),
    ("FLIPV.DXT5", .flipvDxt5)]
  ++ stepSpellings.map (fun p => ("ROTATE.DXT1 " ++ p.1, .rotateDxt1 p.2))
  ++ stepSpellings.map (fun p => ("ROTATE.DXT5 " ++ p.1, .rotateDxt5 p.2))
  ++ [("ROT90.DXT1", (Pseudo.rot90 .dxt1).expand), ("ROT90.DXT5", (Pseudo.rot90 .dxt5).expand),
    ("ROT180.DXT1", (Pseudo.rot180 .dxt1).expand), ("ROT180.DXT5", (Pseudo.rot180 .dxt5).expand),
    ("ROT270.DXT1", (Pseudo.rot270 .dxt1).expand), ("ROT270.DXT5", (Pseudo.rot270 .dxt5).expand),
    ("ROTCCW.DXT1", (Pseudo.rotCcw .dxt1).expand), ("ROTCCW.DXT5", (Pseudo.rotCcw .dxt5).expand),
    ("COPY.DXT1", (Pseudo.copy .dxt1).expand), ("COPY.DXT3", (Pseudo.copy .dxt3).expand),
    ("COPY.DXT5", (Pseudo.copy .dxt5).expand)]

/-- The command that an assembler text stands for, if any (rules R64 and R65). -/
def assemble (text : String) : Option Instr :=
  (assemblerTable.find? fun p => p.1 == text).map (·.2)

/-- The command the decoder reads from an instruction of `nbits` bits (every higher bit 0), bit 0 the
least significant bit of the command word. -/
def decodeTableWord (nbits w : Nat) : Option Instr :=
  let v := w % 2 ^ nbits
  if v < 2 ^ 32 then
    match decode (BitVec.ofNat 32 v) with
    | .ok i => some i
    | .error _ => none
  else none

end Sys2Proof
end

