-- ==== Sys2Proof/Config.lean ====
section
/-! DEFINITION. What the platform fixes (spec 00_scope.md rule R6, 92_eei_decisions.md D2 and D33).
The OPEN parameters `DXTU_BASE` and `N_UNITS` are an argument of the definitions that need them
(`Sys2Proof.Machine.System`); `MAX_DIM` is taken as unbounded, as rule R6 allows. -/

namespace Sys2Proof.Config

/-- Bytes in a unit's register window (rule R14). -/
def windowBytes : Nat := 256

/-- Bytes of the only access width the window knows (rule R24). -/
def accessBytes : Nat := 4

/-- The platform's OPEN parameters. `bases` lists where each unit's register window begins in the
host's address space, unit 0 first: entry u is unit u's `DXTU_BASE` (rule R40). -/
structure Platform where
  bases : List Nat
  deriving DecidableEq, Repr

/-- `N_UNITS`, the number of units in the system (rules R6 and R108). -/
def Platform.nUnits (p : Platform) : Nat := p.bases.length

/-- A platform as the spec allows it: at least one unit (rule R6), and each unit has a window of its
own (rule R108), so no two windows overlap. -/
abbrev Platform.WellFormed (p : Platform) : Prop :=
  1 ≤ p.nUnits ∧ p.bases.Pairwise fun a b => a + windowBytes ≤ b ∨ b + windowBytes ≤ a

end Sys2Proof.Config
end

