-- ==== Sys2Proof/Machine/State.lean ====
section
/-! DEFINITION. The state of one DXTU: exactly the registers of spec 10_state.md rule R14, and beside
them the host's side of the register window as plain data (the accesses the host has issued and the
unit has not yet performed, and the value it returned to the latest read). The DXTU has no memory
(20_memory.md), no program counter (rule R13) and no mode (60_exceptions.md rule R107). -/

namespace Sys2Proof.Machine

/-- What an access does (rule R24). -/
inductive AccessKind where
  | read
  | write (value : Word)
  deriving DecidableEq, Repr

/-- One access of the host to the unit's register window, `offset` bytes from the window's first byte
and `width` bytes wide. `agent` is the host agent that issued it (rule R41). -/
structure Access where
  agent  : Nat
  kind   : AccessKind
  offset : Nat
  width  : Nat
  deriving DecidableEq, Repr

/-- What can happen to a unit from outside: an access of the host, or the platform's reset line
(rule R113). -/
inductive Event where
  | access (a : Access)
  | reset
  deriving DecidableEq, Repr

/-- The registers of the window (rule R14), a reserved offset among them (rule R23). -/
inductive Reg where
  | cmd
  | status
  | inlen
  | inW (j : Fin 4)
  | outW (j : Fin 4)
  | tex (i : Fin 16)
  | cpal (j : Fin 4)
  | apalW (j : Fin 2)
  | reserved
  deriving DecidableEq, Repr

/-- One DXTU and the host's accesses to it.

The first eight fields are the registers of rule R14. `pending` holds the accesses that the host has
issued, in its program order (rule R41), and any reset of the platform among them; `readData` is what
the unit returned to the host's latest read. Those two are the model's own (log entries 1 and 2): the spec's unit has no other state
(rule R26). -/
structure State where
  /-- CMD (rule R15) -/
  cmd : Word
  /-- STATUS (rule R16) -/
  status : Word
  /-- INLEN (rule R17) -/
  inlen : Word
  /-- IN_W0 to IN_W3 (rule R18) -/
  inW : Vector Word 4
  /-- OUT_W0 to OUT_W3 (rule R19) -/
  outW : Vector Word 4
  /-- TEX0 to TEX15 (rule R20) -/
  tex : Vector Word 16
  /-- CPAL0 to CPAL3 (rule R21) -/
  cpal : Vector Word 4
  /-- APAL_W0 and APAL_W1 (rule R22) -/
  apalW : Vector Word 2
  /-- the events still to come from outside, the next one first -/
  pending : List Event
  /-- the value of the latest read, none before the first -/
  readData : Option Word
  deriving DecidableEq, Repr

/-- Why the machine or a host sequence stops with a fault. -/
inductive Fault where
  /-- Raised by `perform` on an access at an offset of 256 or more, and by `System.post` on an address
  in no unit's window: rule R40 gives the DXTU no other address. Safe: it stops. -/
  | outsideWindow
  /-- Raised by the host sequences of rules R50 to R52 on a width or height that is no multiple of 4
  (rule R53). Safe: the spec's own fault. -/
  | invalidDimensions
  /-- Raised by the host sequences of rules R50 to R52 on a buffer shorter than its block grid
  (rule R53). Safe: the spec's own fault. -/
  | truncatedInput
  /-- Raised by the host sequences of rules R51 and R52 on a block size other than 8 and 16
  (rule R53). Safe: the spec's own fault. -/
  | badBlockSize
  /-- Raised by a host sequence that reads STATUS.ERR ≠ 0 after a command (rule R53), which the
  sequences of rules R48 to R52 never cause. Safe: the spec's own fault. -/
  | unitError
  /-- Raised by `System.stepUnit` on a unit the system does not have (rule R108). Safe: it stops. -/
  | noSuchUnit
  deriving DecidableEq, Repr

/-- Why the model accepts no step. -/
inductive Refusal where
  /-- Raised by an arm of `exec` whose instruction has no meaning yet; no arm does. Safe. -/
  | notModelled (mnemonic : String)
  /-- Raised by `perform` on an access that is not an aligned 32-bit access: rule R24 says the model
  refuses it. Safe: it stops. -/
  | accessShape
  /-- Raised by `step` when two host agents have accesses pending on this unit at once: rules R41 and
  R119 say the model refuses that state. Safe: it stops. -/
  | agentsInterleave
  deriving DecidableEq, Repr

/-- The state right after reset: every register 0 (rule R112), no command run, and no access issued
or read yet. -/
def State.reset : State where
  cmd := 0
  status := 0
  inlen := 0
  inW := Vector.replicate 4 0
  outW := Vector.replicate 4 0
  tex := Vector.replicate 16 0
  cpal := Vector.replicate 4 0
  apalW := Vector.replicate 2 0
  pending := []
  readData := none

end Sys2Proof.Machine
end

