-- ==== Sys2Proof/Machine/Flags.lean ====
section
/-! DEFINITION. The fields of STATUS, the only flags (spec 10_state.md rules R16 and R25), and every
value a command writes there (rule R28). -/

namespace Sys2Proof.Machine

/-- STATUS with ERR, TRUNC and CH3 as given; bits 31 to 5 are 0 (rule R16). -/
def statusWord (err : Nat) (trunc ch3 : Bool) : Word :=
  BitVec.ofNat 32 (err % 8 + 8 * trunc.toNat + 16 * ch3.toNat)

/-- ERR = STATUS[2:0] (rule R16). -/
def statusErr (w : Word) : Nat := bits w.toNat 0 3

/-- TRUNC = STATUS[3] (rule R16). -/
def statusTrunc (w : Word) : Bool := bits w.toNat 3 1 == 1

/-- CH3 = STATUS[4] (rule R16). -/
def statusCh3 (w : Word) : Bool := bits w.toNat 4 1 == 1

/-- STATUS of a command that completed, but for DECODE.DXT1 and a short DECODE (rule R28). -/
def statusDone : Word := statusWord 0 false false

/-- STATUS of a DECODE.DXT1 that decoded (rules R28 and R83). -/
def statusThreeChannel : Word := statusWord 0 false true

/-- STATUS of a DECODE whose input is short (rules R28 and R84). -/
def statusShort : Word := statusWord 0 true false

/-- STATUS of a command that ends with an error (rule R102). -/
def statusError (e : ErrCode) : Word := statusWord e.code false false

end Sys2Proof.Machine
end

