-- ==== Sys2Proof/Machine/Ops.lean ====
section
/-! DEFINITION. The shared operations: packing fields into words, the register window's reads and
writes (spec 10_state.md rules R14 to R24), ending a command with an error (60_exceptions.md rule
R102), and the register writes of a command's result (10_state.md rules R28 and R29). -/

namespace Sys2Proof.Machine

/-! ### Packing -/

/-- `Σ_{p<n} f p · 2^(width·p)`: `n` fields packed with the first at the low end. It is the sum of
the spec's `LE` (rule R9), `perm2` (rule R90) and `perm3` (rule R91). -/
def packFields (width : Nat) (f : Nat → Nat) : Nat → Nat
  | 0 => 0
  | n + 1 => packFields width f n + f n * 2 ^ (width * n)

/-- Byte `m` of the little-endian form of `v` (rule R92's `bytes_n(v)`). -/
def byteAt (v m : Nat) : Byte := BitVec.ofNat 8 (bits v (8 * m) 8)

/-- The register word that holds bytes `f 0` to `f 3`, `f 0` at bits 7 to 0 (rules R18 to R22). -/
def wordOfBytes (f : Nat → Byte) : Word :=
  BitVec.ofNat 32 (packFields 8 (fun m => (f m).toNat) 4)

/-- `LE(f, o, n)`, the n-byte little-endian number at byte `o` (rule R9). -/
def le (f : Nat → Byte) (o n : Nat) : Nat := packFields 8 (fun m => (f (o + m)).toNat) n

/-- Byte `i` of the bytes that a row of registers holds (rules R18 and R19). -/
def byteOfWords {n : Nat} (v : Vector Word n) (i : Nat) : Byte :=
  byteAt (v[i / 4]?.getD 0).toNat (i % 4)

/-- The row of registers that holds the bytes `f 0`, `f 1`, … (rules R18, R19 and R22). -/
def wordsOfBytes (n : Nat) (f : Nat → Byte) : Vector Word n :=
  Vector.ofFn fun j => wordOfBytes fun m => f (4 * j.val + m)

/-- IN[i] (rule R18). -/
def State.inByte (s : State) (i : Nat) : Byte := byteOfWords s.inW i

/-- OUT[i] (rule R19). -/
def State.outByte (s : State) (i : Nat) : Byte := byteOfWords s.outW i

/-- APAL[c] (rule R22). -/
def State.apalByte (s : State) (c : Nat) : Byte := byteOfWords s.apalW c

/-! ### The register window -/

/-- The register at an offset of the window (rule R14); an offset that is no register's is reserved
(rule R23). -/
def Reg.ofOffset (off : Nat) : Reg :=
  if off = 0x00 then .cmd
  else if off = 0x04 then .status
  else if off = 0x08 then .inlen
  else if 0x10 ≤ off ∧ off < 0x20 then .inW (Fin.ofNat 4 ((off - 0x10) / 4))
  else if 0x20 ≤ off ∧ off < 0x30 then .outW (Fin.ofNat 4 ((off - 0x20) / 4))
  else if 0x40 ≤ off ∧ off < 0x80 then .tex (Fin.ofNat 16 ((off - 0x40) / 4))
  else if 0x80 ≤ off ∧ off < 0x90 then .cpal (Fin.ofNat 4 ((off - 0x80) / 4))
  else if 0x90 ≤ off ∧ off < 0x98 then .apalW (Fin.ofNat 2 ((off - 0x90) / 4))
  else .reserved

/-- The offset of a register (rule R14); the first reserved offset for `reserved`. -/
def Reg.offset : Reg → Nat
  | .cmd => 0x00
  | .status => 0x04
  | .inlen => 0x08
  | .inW j => 0x10 + 4 * j.val
  | .outW j => 0x20 + 4 * j.val
  | .tex i => 0x40 + 4 * i.val
  | .cpal j => 0x80 + 4 * j.val
  | .apalW j => 0x90 + 4 * j.val
  | .reserved => 0x0C

/-- What a read of a register returns; a reserved offset reads 0 (rules R14 and R23). -/
def State.readReg (s : State) : Reg → Word
  | .cmd => s.cmd
  | .status => s.status
  | .inlen => s.inlen
  | .inW j => s.inW[j]
  | .outW j => s.outW[j]
  | .tex i => s.tex[i]
  | .cpal j => s.cpal[j]
  | .apalW j => s.apalW[j]
  | .reserved => 0

/-- The value INLEN stores of a write: bits 4 to 0, with 17 to 31 stored as 16 (rule R17). -/
def clampInlen (v : Word) : Word :=
  BitVec.ofNat 32 (min (bits v.toNat 0 5) 16)

/-- A host write to any register but CMD: INLEN and IN store it, every other register ignores it
(rules R14, R17, R18 and R23). A write to CMD starts a command as well; it is
`Sys2Proof.Machine.runCommand`, and here only stores the word (rule R15). -/
def State.writeReg (s : State) (v : Word) : Reg → State
  | .cmd => { s with cmd := v }
  | .status => s
  | .inlen => { s with inlen := clampInlen v }
  | .inW j => { s with inW := s.inW.set j v }
  | .outW _ => s
  | .tex _ => s
  | .cpal _ => s
  | .apalW _ => s
  | .reserved => s

/-! ### How a command ends -/

/-- End a command with an error: STATUS holds the code, and nothing else is written (rule R102). There
is no trap entry and no return from one (rules R105 and R106). -/
def State.raiseError (e : ErrCode) (s : State) : State := { s with status := statusError e }

/-- A command other than DECODE on a block of `size` bytes: with a shorter input it ends with
ERR_TRUNC (rule R101), otherwise it goes on. -/
def withBlock (size : Nat) (s : State) (run : State → State) : State :=
  if s.inlen.toNat < size then s.raiseError .trunc else run s

/-- A DECODE of a block of `size` bytes: with a shorter input all texels become 0 and TRUNC is set
(rule R84), otherwise it goes on. -/
def decodeBlock (size : Nat) (s : State) (run : State → State) : State :=
  if s.inlen.toNat < size then { s with tex := Vector.replicate 16 0, status := statusShort }
  else run s

/-- The result writes of QALPHA3, ROTATE, FLIPH and FLIPV: all 16 OUT bytes, and STATUS 0
(rule R28). -/
def State.putOut (out : Nat → Byte) (s : State) : State :=
  { s with outW := wordsOfBytes 4 out, status := statusDone }

end Sys2Proof.Machine
end

