-- ==== Sys2Proof/Machine/Operands.lean ====
section
/-! DEFINITION. Every operand of a command, read from the block that IN holds (spec 20_memory.md
rules R30 to R36, 41_decode.md rules R71, R72, R77 and R79), and the texel and palette entry formats
(10_state.md rules R20 and R21). A block is given as the function from byte number to byte. -/

namespace Sys2Proof.Machine

/-- A colour, one 8-bit value a channel. -/
structure Rgb where
  r : Byte
  g : Byte
  b : Byte
  deriving DecidableEq, Repr

/-- A decoded texel (rule R5). -/
structure Texel where
  r : Byte
  g : Byte
  b : Byte
  a : Byte
  deriving DecidableEq, Repr

/-- A colour with an alpha. -/
def Rgb.withAlpha (c : Rgb) (a : Byte) : Texel := ⟨c.r, c.g, c.b, a⟩

/-- Channel `m` of a texel in the order r, g, b, a (rules R20 and R45). -/
def Texel.channel (t : Texel) : Nat → Byte
  | 0 => t.r
  | 1 => t.g
  | 2 => t.b
  | _ => t.a

/-- The TEX register of a texel (rule R20). -/
def Texel.toWord (t : Texel) : Word := wordOfBytes t.channel

/-- The CPAL register of a palette entry; bits 31 to 24 are 0 (rule R21). -/
def Rgb.toWord (c : Rgb) : Word := (c.withAlpha 0).toWord

/-- The fields of a ColorBlock (rule R71). -/
structure ColorBlock where
  c0  : Nat
  c1  : Nat
  idx : Nat
  deriving DecidableEq, Repr

/-- The ColorBlock at byte `o` of a block: `o` is 0 for DXT1 and 8 for DXT3 and DXT5 (rule R71). -/
def colorBlock (b : Nat → Byte) (o : Nat) : ColorBlock :=
  ⟨le b o 2, le b (o + 2) 2, le b (o + 4) 4⟩

/-- The colour index of texel i, `IDX[2i+1:2i]` (rules R34 and R72). -/
def colorIndex (idx i : Nat) : Nat := bits idx (2 * i) 2

/-- The DXT3 alpha nibble of texel i (rules R35 and R77). -/
def alphaNibble (b : Nat → Byte) (i : Nat) : Nat :=
  if i % 2 = 0 then bits (b (i / 2)).toNat 0 4 else bits (b (i / 2)).toNat 4 4

/-- A48, the DXT5 alpha code field (rule R32). -/
def alphaCodes (b : Nat → Byte) : Nat := le b 2 6

/-- The DXT5 alpha code of texel i, `A48[3i+2:3i]` (rules R36 and R79). -/
def alphaCode (a48 i : Nat) : Nat := bits a48 (3 * i) 3

end Sys2Proof.Machine
end

