-- ==== Sys2Proof/Machine/Palette.lean ====
section
/-! DEFINITION. Endpoint expansion and the two palettes (spec 41_decode.md rules R70, R73 to R76, R78
and R80 to R82). Arithmetic is on natural numbers (00_scope.md rule R8). -/

namespace Sys2Proof.Machine

/-- `e5`, a 5-bit channel expanded to 8 bits (rule R70). -/
def expand5 (v : Nat) : Nat := (v <<< 3) ||| (v >>> 2)

/-- `e6`, a 6-bit channel expanded to 8 bits (rule R70). -/
def expand6 (v : Nat) : Nat := (v <<< 2) ||| (v >>> 4)

/-- `unpack565`, with the field places of rule R33 (rule R70). -/
def unpack565 (c : Nat) : Rgb :=
  ⟨BitVec.ofNat 8 (expand5 (bits c 11 5)), BitVec.ofNat 8 (expand6 (bits c 5 6)),
    BitVec.ofNat 8 (expand5 (bits c 0 5))⟩

/-- A function of two channel values applied channel by channel (rule R76). -/
def mix (f : Nat → Nat → Nat) (x y : Rgb) : Rgb :=
  ⟨BitVec.ofNat 8 (f x.r.toNat y.r.toNat), BitVec.ofNat 8 (f x.g.toNat y.g.toNat),
    BitVec.ofNat 8 (f x.b.toNat y.b.toNat)⟩

/-- The palette variants (rule R73). -/
inductive PaletteMode where
  | fourColour
  | threeColour
  deriving DecidableEq, Repr

/-- The palette mode of a DXT1 block, by its raw endpoint words (rule R73). -/
def dxt1Mode (c0 c1 : Nat) : PaletteMode := if c1 < c0 then .fourColour else .threeColour

/-- Entry `j` of the colour palette (rule R76). -/
def colorPalette (mode : PaletteMode) (e0 e1 : Rgb) (j : Nat) : Rgb :=
  match mode, j with
  | _, 0 => e0
  | _, 1 => e1
  | .fourColour, 2 => mix (fun x y => (2 * x + y) / 3) e0 e1
  | .fourColour, _ => mix (fun x y => (x + 2 * y) / 3) e0 e1
  | .threeColour, 2 => mix (fun x y => (x + y) / 2) e0 e1
  | .threeColour, _ => ⟨0, 0, 0⟩

/-- The palette of a ColorBlock in a mode (rule R76). -/
def ColorBlock.palette (cb : ColorBlock) (mode : PaletteMode) : Nat → Rgb :=
  colorPalette mode (unpack565 cb.c0) (unpack565 cb.c1)

/-- The DXT3 alpha of a nibble (rule R78). -/
def expandNibble (n : Nat) : Byte := BitVec.ofNat 8 ((n <<< 4) ||| n)

/-- An interpolant of the `a0 > a1` table (rule R81). -/
def alphaSeventh (a0 a1 code : Nat) : Nat := (2 * ((7 - code) * a0 + code * a1) + 7) / 14

/-- An interpolant of the `a0 ≤ a1` table (rule R82). -/
def alphaFifth (a0 a1 code : Nat) : Nat := (2 * ((6 - code) * a0 + (code - 1) * a1) + 5) / 10

/-- Entry `code` of the DXT5 alpha palette, the first row of rule R80's table that applies. -/
def alphaPalette (a0 a1 code : Nat) : Nat :=
  if code = 0 then a0
  else if code = 1 then a1
  else if a1 < a0 then alphaSeventh a0 a1 code
  else if code = 6 then 0
  else if code = 7 then 255
  else alphaFifth a0 a1 code

end Sys2Proof.Machine
end

