-- ==== Sys2Proof/Machine/DecodeBlock.lean ====
section
/-! DEFINITION. The three block decoders (spec 41_decode.md). -/

namespace Sys2Proof.Machine

/-- The result writes that every untruncated DECODE makes: all TEX, all CPAL, and STATUS
(rule R28). -/
def State.putTexels (palette : Nat → Rgb) (texel : Nat → Texel) (status : Word) (s : State) : State :=
  { s with
    tex := Vector.ofFn fun i => (texel i.val).toWord
    cpal := Vector.ofFn fun j => (palette j.val).toWord
    status := status }

/-- The palette of a DXT1 block (rules R71, R73 and R76). -/
def paletteDxt1 (b : Nat → Byte) : Nat → Rgb :=
  (colorBlock b 0).palette (dxt1Mode (colorBlock b 0).c0 (colorBlock b 0).c1)

/-- The colour palette of a DXT3 or DXT5 block, always in 4-colour mode (rules R71, R74 and R76). -/
def paletteFour (b : Nat → Byte) : Nat → Rgb := (colorBlock b 8).palette .fourColour

/-- Texel i of a DXT1 block: the indexed colour (rule R75) with alpha 255 (rule R83). -/
def texelDxt1 (b : Nat → Byte) (i : Nat) : Texel :=
  (paletteDxt1 b (colorIndex (colorBlock b 0).idx i)).withAlpha 0xFF

/-- Texel i of a DXT3 block: the indexed colour (rule R75) with its expanded nibble (rule R78). -/
def texelDxt3 (b : Nat → Byte) (i : Nat) : Texel :=
  (paletteFour b (colorIndex (colorBlock b 8).idx i)).withAlpha (expandNibble (alphaNibble b i))

/-- Entry `code` of a DXT5 block's alpha palette (rules R79 and R80). -/
def alphaEntry (b : Nat → Byte) (code : Nat) : Byte :=
  BitVec.ofNat 8 (alphaPalette (b 0).toNat (b 1).toNat code)

/-- Texel i of a DXT5 block: the indexed colour (rule R75) with the alpha of its code (rule R79). -/
def texelDxt5 (b : Nat → Byte) (i : Nat) : Texel :=
  (paletteFour b (colorIndex (colorBlock b 8).idx i)).withAlpha
    (alphaEntry b (alphaCode (alphaCodes b) i))

/-- DECODE.DXT1 (rule R85). -/
def execDecodeDxt1 (s : State) : Host.Outcome State Fault Refusal :=
  .next (decodeBlock 8 s fun s =>
    s.putTexels (paletteDxt1 s.inByte) (texelDxt1 s.inByte) statusThreeChannel)

/-- DECODE.DXT3 (rule R86). -/
def execDecodeDxt3 (s : State) : Host.Outcome State Fault Refusal :=
  .next (decodeBlock 16 s fun s =>
    s.putTexels (paletteFour s.inByte) (texelDxt3 s.inByte) statusDone)

/-- DECODE.DXT5 (rule R87). -/
def execDecodeDxt5 (s : State) : Host.Outcome State Fault Refusal :=
  .next (decodeBlock 16 s fun s =>
    { s.putTexels (paletteFour s.inByte) (texelDxt5 s.inByte) statusDone with
      apalW := wordsOfBytes 2 (alphaEntry s.inByte) })

end Sys2Proof.Machine
end

