-- ==== Sys2Proof/Machine/Nop.lean ====
section
/-! DEFINITION. NOP (spec 43_nop.md). -/

namespace Sys2Proof.Machine

/-- NOP: STATUS becomes 0 and nothing else changes (rule R100). -/
def execNop (s : State) : Host.Outcome State Fault Refusal :=
  .next { s with status := statusDone }

end Sys2Proof.Machine
end

