-- ==== Sys2Proof/Machine/Quantize.lean ====
section
/-! DEFINITION. The DXT3 alpha quantizer (spec 40_alpha_quantize.md). -/

namespace Sys2Proof.Machine

/-- The nibble of an 8-bit alpha, `a >> 4` (rule R67). -/
def alphaToNibble (a : Byte) : Nat := a.toNat >>> 4

/-- Byte `j` of OUT: two nibbles in bytes 0 to 7, the lower one the earlier texel's (rule R68), and 0
in bytes 8 to 15 (rule R69). -/
def quantizedByte (b : Nat → Byte) (j : Nat) : Byte :=
  if j < 8 then
    BitVec.ofNat 8 (alphaToNibble (b (2 * j)) ||| (alphaToNibble (b (2 * j + 1)) <<< 4))
  else 0

/-- QALPHA3.DXT3 (rule R69). -/
def execQalpha3Dxt3 (s : State) : Host.Outcome State Fault Refusal :=
  .next (withBlock 16 s fun s => s.putOut (quantizedByte s.inByte))

end Sys2Proof.Machine
end

