-- ==== Sys2Proof/Machine/Transform.lean ====
section
/-! DEFINITION. The block index permuter: ROTATE, FLIPH and FLIPV (spec 42_transform.md). -/

namespace Sys2Proof.Machine

/-- The position map ID (rule R88). -/
def mapId (p : Nat) : Nat := p

/-- The position map ROT1, 90° clockwise (rule R88). -/
def mapRot1 (p : Nat) : Nat := 4 * (3 - p % 4) + p / 4

/-- The position map ROT2, 180° (rule R88). -/
def mapRot2 (p : Nat) : Nat := 15 - p

/-- The position map ROT3, 270° clockwise (rule R88). -/
def mapRot3 (p : Nat) : Nat := 4 * (p % 4) + 3 - p / 4

/-- The position map FH (rule R88). -/
def mapFlipH (p : Nat) : Nat := 4 * (p / 4) + 3 - p % 4

/-- The position map of ROTATE K; steps count modulo 4 (rules R58 and R93). -/
def mapRotate (k : Nat) : Nat → Nat :=
  match k % 4 with
  | 0 => mapId
  | 1 => mapRot1
  | 2 => mapRot2
  | _ => mapRot3

/-- `perm2(IDX, src)` (rule R90). -/
def perm2 (idx : Nat) (src : Nat → Nat) : Nat := packFields 2 (fun p => colorIndex idx (src p)) 16

/-- `perm3(A48, src)` (rule R91). -/
def perm3 (a48 : Nat) (src : Nat → Nat) : Nat := packFields 3 (fun p => alphaCode a48 (src p)) 16

/-- The OUT bytes of a DXT1 block moved by a position map (rule R92). -/
def permuteDxt1 (src : Nat → Nat) (b : Nat → Byte) (i : Nat) : Byte :=
  if i < 4 then b i
  else if i < 8 then byteAt (perm2 (le b 4 4) src) (i - 4)
  else 0

/-- The OUT bytes of a DXT5 block moved by a position map (rule R92). -/
def permuteDxt5 (src : Nat → Nat) (b : Nat → Byte) (i : Nat) : Byte :=
  if i < 2 then b i
  else if i < 8 then byteAt (perm3 (le b 2 6) src) (i - 2)
  else if i < 12 then b i
  else byteAt (perm2 (le b 12 4) src) (i - 12)

/-- The OUT bytes of FLIPV on an 8-byte block: the block, then zeros (rule R97). -/
def copyDxt1 (b : Nat → Byte) (i : Nat) : Byte := if i < 8 then b i else 0

/-- ROTATE.DXT1 k (rule R93). -/
def execRotateDxt1 (k : Nat) (s : State) : Host.Outcome State Fault Refusal :=
  .next (withBlock 8 s fun s => s.putOut (permuteDxt1 (mapRotate k) s.inByte))

/-- ROTATE.DXT5 k (rule R94). -/
def execRotateDxt5 (k : Nat) (s : State) : Host.Outcome State Fault Refusal :=
  .next (withBlock 16 s fun s => s.putOut (permuteDxt5 (mapRotate k) s.inByte))

/-- FLIPH.DXT1 (rule R95). -/
def execFliphDxt1 (s : State) : Host.Outcome State Fault Refusal :=
  .next (withBlock 8 s fun s => s.putOut (permuteDxt1 mapFlipH s.inByte))

/-- FLIPH.DXT5 (rule R96). -/
def execFliphDxt5 (s : State) : Host.Outcome State Fault Refusal :=
  .next (withBlock 16 s fun s => s.putOut (permuteDxt5 mapFlipH s.inByte))

/-- FLIPV.DXT1 (rule R97): the pixel rows inside the block stay. -/
def execFlipvDxt1 (s : State) : Host.Outcome State Fault Refusal :=
  .next (withBlock 8 s fun s => s.putOut (copyDxt1 s.inByte))

/-- FLIPV.DXT3 (rule R98). -/
def execFlipvDxt3 (s : State) : Host.Outcome State Fault Refusal :=
  .next (withBlock 16 s fun s => s.putOut s.inByte)

/-- FLIPV.DXT5 (rule R99). -/
def execFlipvDxt5 (s : State) : Host.Outcome State Fault Refusal :=
  .next (withBlock 16 s fun s => s.putOut s.inByte)

end Sys2Proof.Machine
end

