-- ==== Sys2Proof/Machine/Dispatch.lean ====
section
/-! DEFINITION. The meaning of each command, one arm per constructor of `Instr`. The state is the
one right after the CMD write that started the command (spec 10_state.md rule R29). -/

namespace Sys2Proof.Machine

/-- Run one command (rule R29). -/
def exec (i : Instr) (s : State) : Host.Outcome State Fault Refusal :=
  match i with
  | .nop => Sys2Proof.Machine.execNop s
  | .qalpha3Dxt3 => Sys2Proof.Machine.execQalpha3Dxt3 s
  | .decodeDxt1 => Sys2Proof.Machine.execDecodeDxt1 s
  | .decodeDxt3 => Sys2Proof.Machine.execDecodeDxt3 s
  | .decodeDxt5 => Sys2Proof.Machine.execDecodeDxt5 s
  | .rotateDxt1 k => Sys2Proof.Machine.execRotateDxt1 k s
  | .rotateDxt5 k => Sys2Proof.Machine.execRotateDxt5 k s
  | .fliphDxt1 => Sys2Proof.Machine.execFliphDxt1 s
  | .fliphDxt5 => Sys2Proof.Machine.execFliphDxt5 s
  | .flipvDxt1 => Sys2Proof.Machine.execFlipvDxt1 s
  | .flipvDxt3 => Sys2Proof.Machine.execFlipvDxt3 s
  | .flipvDxt5 => Sys2Proof.Machine.execFlipvDxt5 s

end Sys2Proof.Machine
end

