-- ==== Sys2Proof/Machine/Access.lean ====
section
/-! DEFINITION. One access of the host to the register window (spec 10_state.md rules R15, R23, R24
and R29, 20_memory.md rules R39 to R41). -/

namespace Sys2Proof.Machine

/-- A write of `v` to CMD: CMD keeps the whole word, and the command it names runs (rule R15); a word
that names none ends with its error (rules R61 and R102). -/
def runCommand (v : Word) (s : State) : Host.Outcome State Fault Refusal :=
  match decode v with
  | .ok i => exec i (s.writeReg v .cmd)
  | .error e => .next ((s.writeReg v .cmd).raiseError e)

/-- A host write to the register at an aligned offset of the window (rules R14 and R15). -/
def writeWindow (off : Nat) (v : Word) (s : State) : Host.Outcome State Fault Refusal :=
  match Reg.ofOffset off with
  | .cmd => runCommand v s
  | r => .next (s.writeReg v r)

/-- A host read of the register at an aligned offset of the window. It changes no register
(rule R39). -/
def readWindow (off : Nat) (s : State) : State :=
  { s with readData := some (s.readReg (Reg.ofOffset off)) }

/-- Perform one access. Only an aligned 32-bit access has a meaning; the model refuses any other
(rule R24), and faults on an offset past the window (rule R40). -/
def perform (a : Access) (s : State) : Host.Outcome State Fault Refusal :=
  if a.width ≠ Config.accessBytes ∨ a.offset % 4 ≠ 0 then .refused .accessShape
  else if Config.windowBytes ≤ a.offset then .fault .outsideWindow
  else
    match a.kind with
    | .read => .next (readWindow a.offset s)
    | .write v => writeWindow a.offset v s

/-- The host agent that issued an event, none for a reset of the platform. -/
def Event.agent? : Event → Option Nat
  | .access a => some a.agent
  | .reset => none

/-- Two host agents have accesses pending on this unit at once (rules R41 and R119). -/
def agentsInterleave (pending : List Event) : Bool :=
  match pending.filterMap Event.agent? with
  | [] => false
  | a :: rest => rest.any fun b => b != a

/-- A reset by the platform: every register becomes 0 and no command runs; the host's accesses still
to come are the host's and stay (rules R112 to R114). -/
def State.platformReset (s : State) : State :=
  { State.reset with pending := s.pending, readData := s.readData }

/-- An aligned 32-bit write by the host agent `agent`. -/
def Access.wr (agent off : Nat) (v : Word) : Access := ⟨agent, .write v, off, Config.accessBytes⟩

/-- An aligned 32-bit read by the host agent `agent`. -/
def Access.rd (agent off : Nat) : Access := ⟨agent, .read, off, Config.accessBytes⟩

/-- One line of a host program (rule R64). -/
inductive HostLine where
  /-- `wr REG, value` -/
  | wr (r : Reg) (v : Word)
  /-- `wr CMD, MNEMONIC.FMT [k]` -/
  | run (i : Instr)
  /-- `rd REG` -/
  | rd (r : Reg)
  deriving DecidableEq, Repr

/-- The access that a line of a host program stands for (rule R64). -/
def HostLine.toAccess (agent : Nat) : HostLine → Access
  | .wr r v => Access.wr agent r.offset v
  | .run i => Access.wr agent Reg.cmd.offset (encode i)
  | .rd r => Access.rd agent r.offset

/-- The next event happens: an access of the host is performed (rules R29 and R41) or the platform
resets the unit (rule R114). With none pending every register keeps its value (rule R110). -/
def performNext (s : State) : Host.Outcome State Fault Refusal :=
  match s.pending with
  | [] => .next s
  | e :: rest =>
    if agentsInterleave (e :: rest) then .refused .agentsInterleave
    else
      match e with
      | .access a => perform a { s with pending := rest }
      | .reset => .next ({ s with pending := rest }).platformReset

end Sys2Proof.Machine
end

