-- ==== Sys2Proof/Machine/Step.lean ====
section
/-! DEFINITION. One step of the machine: one access of the host, with the whole command it starts when
it is a write to CMD, or one reset by the platform (spec 10_state.md rule R29, 70_reset_and_hazards.md rule R120). -/

namespace Sys2Proof.Machine

/-- One step: the next event from outside happens. -/
def step (s : State) : Host.Outcome State Fault Refusal := performNext s

/-- `s` with the host's next access the write of the command word `w` to CMD: the DXTU fetches no
program, a command is the value the host writes to CMD (rules R13 and R43). -/
def State.withFetchWord (s : State) (nbits w : Nat) : State :=
  { s with pending := [.access (Access.wr 0 Reg.cmd.offset (BitVec.ofNat 32 (w % 2 ^ nbits)))] }

end Sys2Proof.Machine
end

