-- ==== Sys2Proof/Machine/HostSequence.lean ====
section
/-! DEFINITION. The host's image sequences, built from the window accesses of
`Sys2Proof.Machine.perform` alone (spec 20_memory.md rules R45 to R53). A sequence is data: for each
block the actions of the host, as the rule's pseudocode orders them. `Sequence.run` runs the blocks in
ascending order on one unit; `Sys2Proof.Machine.runTurns` runs them in any order, on any units and with
resets in between. A host buffer is a list of bytes. The sequences stop with the host faults of
rule R53. -/

namespace Sys2Proof.Machine

/-- Go on from the outcome of a first part. -/
def andThen {α β : Type} (o : Host.Outcome α Fault Refusal)
    (f : α → Host.Outcome β Fault Refusal) : Host.Outcome β Fault Refusal :=
  match o with
  | .next a => f a
  | .fault r => .fault r
  | .refused r => .refused r

/-- The loop `for m in 0 .. n−1` over a value. -/
def upTo {α : Type} (n : Nat) (body : Nat → α → α) (a : α) : α :=
  match n with
  | 0 => a
  | n + 1 => body n (upTo n body a)

/-! ### Buffers and grids -/

/-- Byte `i` of a host buffer. -/
def bufByte (buf : List Byte) (i : Nat) : Byte := buf.getD i 0

/-- The buffer with bytes `f 0` to `f (n−1)` stored from byte `off` on. -/
def bufStore (buf : List Byte) (off n : Nat) (f : Nat → Byte) : List Byte :=
  upTo n (fun m b => b.set (off + m) (f m)) buf

/-- Blocks along a side of an image, `ceil(n/4)` (rule R46). -/
def blocksAlong (n : Nat) : Nat := (n + 3) / 4

/-- Bytes per pixel of a pixel buffer (rule R45). -/
inductive Channels where
  | rgb
  | rgba
  deriving DecidableEq, Repr

/-- `ch` (rule R45). -/
def Channels.count : Channels → Nat
  | .rgb => 3
  | .rgba => 4

/-- The first byte of pixel (X, Y) in a buffer of width w (rule R45). -/
def pixelAt (w ch X Y : Nat) : Nat := (Y * w + X) * ch

/-- Texel i of block (bx, by) of a pixel buffer, padded outside the image (rule R47). -/
def sampleTexel (px : List Byte) (w h : Nat) (ch : Channels) (bx yb i : Nat) : Texel :=
  let X := 4 * bx + i % 4
  let Y := 4 * yb + i / 4
  if X < w ∧ Y < h then
    let at0 := pixelAt w ch.count X Y
    ⟨bufByte px at0, bufByte px (at0 + 1), bufByte px (at0 + 2),
      match ch with
      | .rgb => 255
      | .rgba => bufByte px (at0 + 3)⟩
  else ⟨0, 0, 0, 0⟩

/-! ### Actions of the host -/

/-- A write of a register by the host. -/
def hostWrite (r : Reg) (v : Word) (s : State) : Host.Outcome State Fault Refusal :=
  perform (Access.wr 0 r.offset v) s

/-- A read of a register by the host: the state after it, and the value. -/
def hostRead (r : Reg) (s : State) : Host.Outcome (State × Word) Fault Refusal :=
  andThen (perform (Access.rd 0 r.offset) s) fun t => .next (t, t.readData.getD 0)

/-- One action of the host in an image sequence: one access to the unit, and what the host does with
its value. -/
inductive HostAct where
  /-- write a register -/
  | write (r : Reg) (v : Word)
  /-- read STATUS; a non-zero ERR is the host fault UnitError (rule R53) -/
  | check
  /-- read a register and store its first `n` bytes from byte `off` of the output buffer on -/
  | copy (r : Reg) (off n : Nat)
  deriving DecidableEq, Repr

/-- One action, on a unit and the output buffer. -/
def HostAct.run (a : HostAct) (p : State × List Byte) :
    Host.Outcome (State × List Byte) Fault Refusal :=
  match a with
  | .write r v => andThen (hostWrite r v p.1) fun s => .next (s, p.2)
  | .check =>
    andThen (hostRead .status p.1) fun q =>
      if statusErr q.2 ≠ 0 then .fault .unitError else .next (q.1, p.2)
  | .copy r off n =>
    andThen (hostRead r p.1) fun q => .next (q.1, bufStore p.2 off n (byteAt q.2.toNat))

/-- Actions one after another. -/
def runActs (acts : List HostAct) (p : State × List Byte) :
    Host.Outcome (State × List Byte) Fault Refusal :=
  match acts with
  | [] => .next p
  | a :: rest => andThen (a.run p) (runActs rest)

/-- The actions that run one command on a block of `size` bytes, `len` of them valid, in the order of
rule R116: IN, INLEN, CMD, and the check of STATUS (rule R53). -/
def commandActs (b : Nat → Byte) (size len : Nat) (i : Instr) : List HostAct :=
  (List.range (size / 4)).map (fun j =>
      .write (.inW (Fin.ofNat 4 j)) (wordOfBytes fun m => b (4 * j + m)))
    ++ [.write .inlen (BitVec.ofNat 32 len), .write .cmd (encode i), .check]

/-- The actions that store the first `size` OUT bytes from byte `off` of the output buffer on. -/
def copyOutActs (off size : Nat) : List HostAct :=
  (List.range (size / 4)).map fun j => .copy (.outW (Fin.ofNat 4 j)) (off + 4 * j) 4

/-! ### Sequences -/

/-- An image sequence: the output buffer before it, and the host's actions for each block, block 0
first. -/
structure Sequence where
  out : List Byte
  blocks : List (List HostAct)
  deriving DecidableEq, Repr

/-- The sequence over blocks 0 to n − 1 whose block k takes the actions `acts k`. -/
def Sequence.over (n : Nat) (acts : Nat → List HostAct) (out : List Byte) : Sequence :=
  ⟨out, (List.range n).map acts⟩

/-- Blocks one after another. -/
def runBlocks (blocks : List (List HostAct)) (p : State × List Byte) :
    Host.Outcome (State × List Byte) Fault Refusal :=
  match blocks with
  | [] => .next p
  | b :: rest => andThen (runActs b p) (runBlocks rest)

/-- The sequence on one unit, undisturbed, its blocks in ascending order. -/
def Sequence.run (q : Sequence) (s : State) : Host.Outcome (State × List Byte) Fault Refusal :=
  runBlocks q.blocks (s, q.out)

/-- The actions of a transform of block `src` of `data` into block `dst` of the output buffer
(rules R50 to R52). -/
def transformActs (data : List Byte) (size : Nat) (i : Instr) (src dst : Nat) : List HostAct :=
  commandActs (fun m => bufByte data (src * size + m)) size size i
    ++ copyOutActs (dst * size) size

/-! ### Decode of an image -/

/-- The decode command of a format. -/
def decodeCommand : Fmt → Instr
  | .dxt1 => .decodeDxt1
  | .dxt3 => .decodeDxt3
  | .dxt5 => .decodeDxt5

/-- The bytes per pixel of a decoded image (rule R45). -/
def decodedChannels : Fmt → Channels
  | .dxt1 => .rgb
  | .dxt3 => .rgba
  | .dxt5 => .rgba

/-- The actions that store texel i of block (bx, by) in the image, none for a texel outside it
(rule R48). -/
def copyTexelActs (w h ch bx yb i : Nat) : List HostAct :=
  let X := 4 * bx + i % 4
  let Y := 4 * yb + i / 4
  if X < w ∧ Y < h then [.copy (.tex (Fin.ofNat 16 i)) (pixelAt w ch X Y) ch] else []

/-- The actions that decode block `n` of the grid into the image. `fill` gives the IN bytes past the
end of `data`, which rule R48 leaves to any value. -/
def decodeActs (f : Fmt) (fill : Nat → Byte) (data : List Byte) (w h n : Nat) : List HostAct :=
  let off := n * f.blockSize
  let block := fun m => if off + m < data.length then bufByte data (off + m) else fill (off + m)
  commandActs block f.blockSize (min (data.length - off) f.blockSize) (decodeCommand f)
    ++ (List.range 16).flatMap
      (copyTexelActs w h (decodedChannels f).count (n % blocksAlong w) (n / blocksAlong w))

/-- The sequence of `decode_dxtN(data, w, h)` (rule R48). -/
def decodeSequence (f : Fmt) (fill : Nat → Byte) (data : List Byte) (w h : Nat) : Sequence :=
  .over (blocksAlong w * blocksAlong h) (decodeActs f fill data w h)
    (List.replicate (w * h * (decodedChannels f).count) 0)

/-- `decode_dxtN(data, w, h)` (rule R48). -/
def decodeImage (f : Fmt) (fill : Nat → Byte) (data : List Byte) (w h : Nat) (s : State) :
    Host.Outcome (State × List Byte) Fault Refusal :=
  (decodeSequence f fill data w h).run s

/-! ### The alpha half of a DXT3 encode -/

/-- The actions that quantize the alphas of block `n` of the grid into bytes 0 to 7 of its block
(rule R49). -/
def quantizeActs (px : List Byte) (w h : Nat) (ch : Channels) (n : Nat) : List HostAct :=
  commandActs (fun i => (sampleTexel px w h ch (n % blocksAlong w) (n / blocksAlong w) i).a)
    16 16 .qalpha3Dxt3 ++ copyOutActs (n * 16) 8

/-- The sequence of the DXT3 alpha half of an encode (rule R49). `out` is the host's compressed
buffer, whose bytes 8 to 15 of each block are the colour encoder's, out of scope (rule R3). -/
def quantizeSequence (px : List Byte) (w h : Nat) (ch : Channels) (out : List Byte) : Sequence :=
  .over (blocksAlong w * blocksAlong h) (quantizeActs px w h ch) out

/-- The DXT3 alpha half of an encode (rule R49). -/
def quantizeImage (px : List Byte) (w h : Nat) (ch : Channels) (out : List Byte) (s : State) :
    Host.Outcome (State × List Byte) Fault Refusal :=
  (quantizeSequence px w h ch out).run s

/-! ### Rotation and flips of an image -/

/-- The block size of a grid format (rule R57). -/
def gridBlockSize : GridFmt → Nat
  | .dxt1 => 8
  | .dxt5 => 16

/-- The ROTATE command of a format. -/
def rotateCommand : GridFmt → Nat → Instr
  | .dxt1, k => .rotateDxt1 k
  | .dxt5, k => .rotateDxt5 k

/-- The FLIPH command of a format. -/
def fliphCommand : GridFmt → Instr
  | .dxt1 => .fliphDxt1
  | .dxt5 => .fliphDxt5

/-- The FLIPV command of a format. -/
def flipvCommand : GridFmt → Instr
  | .dxt1 => .flipvDxt1
  | .dxt5 => .flipvDxt5

/-- The format of a block size in the flip functions (rules R51 and R52). -/
def gridFmtOfSize (bs : Nat) : Option GridFmt :=
  if bs = 8 then some .dxt1 else if bs = 16 then some .dxt5 else none

/-- `remap_k(bx, by)` on a grid of `nx` by `ny` blocks, as (column, row) (rule R50). -/
def remap (k nx ny bx yb : Nat) : Nat × Nat :=
  match k with
  | 0 => (bx, yb)
  | 1 => (ny - 1 - yb, bx)
  | 2 => (nx - 1 - bx, ny - 1 - yb)
  | _ => (yb, nx - 1 - bx)

/-- The columns of the output grid of a rotation by k steps (rule R50). -/
def rotatedColumns (k nx ny : Nat) : Nat := if k % 2 = 1 then ny else nx

/-- The output block of input block `n` of a rotation (rule R50). -/
def rotatedBlock (k nx ny n : Nat) : Nat :=
  let d := remap k nx ny (n % nx) (n / nx)
  d.2 * rotatedColumns k nx ny + d.1

/-- `times mod 4`, the non-negative remainder (rules R8 and R50). -/
def stepsOf (times : Int) : Nat := (times % 4).toNat

/-- The sides of an image that a transform refuses (rule R53). -/
def badDimensions (w h : Nat) : Bool := w % 4 != 0 || h % 4 != 0

/-- The sequence of `rotate_dxtN(data, w, h, times)`, or its fault (rule R50). -/
def rotateSequence (f : GridFmt) (data : List Byte) (w h : Nat) (times : Int) :
    Host.Outcome Sequence Fault Refusal :=
  let nx := w / 4
  let ny := h / 4
  let k := stepsOf times
  if badDimensions w h then .fault .invalidDimensions
  else if data.length < nx * ny * gridBlockSize f then .fault .truncatedInput
  else .next (.over (nx * ny)
    (fun n => transformActs data (gridBlockSize f) (rotateCommand f k) n (rotatedBlock k nx ny n))
    (List.replicate (nx * ny * gridBlockSize f) 0))

/-- `rotate_dxtN(data, w, h, times)` (rule R50). -/
def rotateImage (f : GridFmt) (data : List Byte) (w h : Nat) (times : Int) (s : State) :
    Host.Outcome (State × List Byte) Fault Refusal :=
  andThen (rotateSequence f data w h times) fun q => q.run s

/-- The sequence of `flip_horizontally_dxt(data, w, h, bs)`, or its fault (rule R51). -/
def flipHSequence (data : List Byte) (w h bs : Nat) : Host.Outcome Sequence Fault Refusal :=
  let nb := (w / 4) * (h / 4)
  if badDimensions w h then .fault .invalidDimensions
  else
    match gridFmtOfSize bs with
    | none => .fault .badBlockSize
    | some f =>
      if data.length < nb * bs then .fault .truncatedInput
      else .next (.over nb (fun n => transformActs data bs (fliphCommand f) n n)
        (List.replicate (nb * bs) 0))

/-- `flip_horizontally_dxt(data, w, h, bs)` (rule R51). -/
def flipImageH (data : List Byte) (w h bs : Nat) (s : State) :
    Host.Outcome (State × List Byte) Fault Refusal :=
  andThen (flipHSequence data w h bs) fun q => q.run s

/-- The output block of input block `n` of a vertical flip: block rows reversed (rule R52). -/
def flippedBlock (nx ny n : Nat) : Nat := (ny - 1 - n / nx) * nx + n % nx

/-- The sequence of `flip_vertically_dxt(data, w, h, bs)`, or its fault (rule R52). -/
def flipVSequence (data : List Byte) (w h bs : Nat) : Host.Outcome Sequence Fault Refusal :=
  let nx := w / 4
  let ny := h / 4
  if badDimensions w h then .fault .invalidDimensions
  else
    match gridFmtOfSize bs with
    | none => .fault .badBlockSize
    | some f =>
      if data.length < nx * ny * bs then .fault .truncatedInput
      else .next (.over (nx * ny)
        (fun n => transformActs data bs (flipvCommand f) n (flippedBlock nx ny n))
        (List.replicate (nx * ny * bs) 0))

/-- `flip_vertically_dxt(data, w, h, bs)` (rule R52). -/
def flipImageV (data : List Byte) (w h bs : Nat) (s : State) :
    Host.Outcome (State × List Byte) Fault Refusal :=
  andThen (flipVSequence data w h bs) fun q => q.run s

end Sys2Proof.Machine
end

