-- ==== Sys2Proof/Machine/System.lean ====
section
/-! DEFINITION. A system of `N_UNITS` units, each with a register window and registers of its own
(spec 60_exceptions.md rule R108, 20_memory.md rules R40 and R44). -/

namespace Sys2Proof.Machine

/-- The units of a system. -/
structure System where
  units : List State
  deriving DecidableEq, Repr

/-- A system right after reset: every unit as rule R112 says. -/
def System.reset (p : Config.Platform) : System := ⟨List.replicate p.nUnits State.reset⟩

/-- The unit whose window holds a host address, and the offset in that window (rule R40). -/
def locate (bases : List Nat) (addr : Nat) : Option (Nat × Nat) :=
  match bases with
  | [] => none
  | b :: rest =>
    if b ≤ addr ∧ addr < b + Config.windowBytes then some (0, addr - b)
    else (locate rest addr).map fun p => (p.1 + 1, p.2)

/-- A host agent issues an access at a host address: it goes behind the accesses that are pending on
the unit whose window holds the address (rules R40 and R41). -/
def System.post (p : Config.Platform) (agent : Nat) (kind : AccessKind) (addr width : Nat)
    (sys : System) : Host.Outcome System Fault Refusal :=
  match locate p.bases addr with
  | none => .fault .outsideWindow
  | some (u, off) =>
    .next ⟨sys.units.modify u fun s =>
      { s with pending := s.pending ++ [.access ⟨agent, kind, off, width⟩] }⟩

/-- Unit `u` takes a step; no other unit changes (rules R44 and R108). -/
def System.stepUnit (u : Nat) (sys : System) : Host.Outcome System Fault Refusal :=
  match sys.units[u]? with
  | none => .fault .noSuchUnit
  | some s =>
    match step s with
    | .next t => .next ⟨sys.units.set u t⟩
    | .fault r => .fault r
    | .refused r => .refused r

end Sys2Proof.Machine
end

