-- ==== Sys2Proof/Machine/Schedule.lean ====
section
/-! DEFINITION. An image sequence shared among the units of a system, its blocks in any order, with
resets of the platform between any two accesses (spec 20_memory.md rule R44,
70_reset_and_hazards.md rules R114, R119 and R121). -/

namespace Sys2Proof.Machine

/-- The block that the host's agent on a unit has in hand, and the actions it still has to do. -/
structure Job where
  block : Nat
  rest : List HostAct
  deriving DecidableEq, Repr

/-- A unit, and the block in hand of the host's agent on it: one agent a unit (rule R119). -/
structure Worker where
  unit : State
  job : Option Job
  deriving DecidableEq, Repr

/-- A sequence under way: a worker for every unit of the system, the output buffer, and the blocks
whose last action is done. -/
structure Progress where
  workers : List Worker
  out : List Byte
  done : List Nat
  deriving DecidableEq, Repr

/-- What happens next while a sequence is under way. -/
inductive Turn where
  /-- the agent on unit `u` takes block `k` in hand, from its first action, and drops the block it had -/
  | take (u k : Nat)
  /-- the agent on unit `u` does its next action -/
  | act (u : Nat)
  /-- the platform resets unit `u` -/
  | reset (u : Nat)
  deriving DecidableEq, Repr

/-- The unit of a turn. -/
def Turn.unit : Turn → Nat
  | .take u _ => u
  | .act u => u
  | .reset u => u

/-- A sequence before its first turn, on the units of a system. -/
def Progress.begin (q : Sequence) (sys : System) : Progress :=
  ⟨sys.units.map fun s => ⟨s, none⟩, q.out, []⟩

/-- The system that a sequence under way uses. -/
def Progress.system (p : Progress) : System := ⟨p.workers.map Worker.unit⟩

/-- The agent drops the block it had and takes block `k`, if the sequence has it. -/
def Worker.take (q : Sequence) (k : Nat) (w : Worker) : Worker :=
  { w with job := q.blocks[k]?.map fun acts => ⟨k, acts⟩ }

/-- The platform resets the unit: its registers are lost, what the agent has in hand is not
(rule R114). -/
def Worker.reset (w : Worker) : Worker := { w with unit := w.unit.platformReset }

/-- The agent's next action: the worker after it, the output buffer, and the block that this action
ends, if it does. With no block in hand there is nothing to do. -/
def Worker.act (w : Worker) (out : List Byte) :
    Host.Outcome (Worker × List Byte × List Nat) Fault Refusal :=
  match w.job with
  | none => .next (w, out, [])
  | some ⟨_, []⟩ => .next ({ w with job := none }, out, [])
  | some ⟨k, [a]⟩ => andThen (a.run (w.unit, out)) fun r => .next (⟨r.1, none⟩, r.2, [k])
  | some ⟨k, a :: rest⟩ =>
    andThen (a.run (w.unit, out)) fun r => .next (⟨r.1, some ⟨k, rest⟩⟩, r.2, [])

/-- One turn. It touches no unit but its own (rules R44 and R108); the output buffer keeps what was
copied before a reset (rule R114). -/
def Turn.run (q : Sequence) (t : Turn) (p : Progress) : Host.Outcome Progress Fault Refusal :=
  match p.workers[t.unit]? with
  | none => .fault .noSuchUnit
  | some w =>
    match t with
    | .take u k => .next { p with workers := p.workers.set u (w.take q k) }
    | .reset u => .next { p with workers := p.workers.set u w.reset }
    | .act u =>
      andThen (w.act p.out) fun r =>
        .next ⟨p.workers.set u r.1, r.2.1, r.2.2 ++ p.done⟩

/-- Turns one after another. -/
def runTurns (q : Sequence) (ts : List Turn) (p : Progress) : Host.Outcome Progress Fault Refusal :=
  match ts with
  | [] => .next p
  | t :: rest => andThen (t.run q p) (runTurns q rest)

/-- The turns in which the agent on unit `u` takes block `k` and does all its actions. -/
def wholeBlock (q : Sequence) (u k : Nat) : List Turn :=
  .take u k :: List.replicate (q.blocks.getD k []).length (.act u)

/-- The turns of a plan: a list of units and blocks, each block done whole on its unit before the next
one is taken. Any order and any units (rule R44). -/
def planTurns (q : Sequence) (plan : List (Nat × Nat)) : List Turn :=
  plan.flatMap fun b => wholeBlock q b.1 b.2

/-- The next thing that the agent on unit `u` does is an action, not the taking of a block. -/
def actsBeforeTaking (u : Nat) (ts : List Turn) : Bool :=
  match ts with
  | [] => false
  | .take v _ :: rest => v != u && actsBeforeTaking u rest
  | .act v :: rest => v == u || actsBeforeTaking u rest
  | .reset _ :: rest => actsBeforeTaking u rest

/-- After every reset of a unit its agent takes a block, so it writes IN and INLEN anew before its
next CMD write: what rule R114 asks for a sequence to continue correctly. -/
def rewritesAfterReset (ts : List Turn) : Bool :=
  match ts with
  | [] => true
  | .reset u :: rest => !actsBeforeTaking u rest && rewritesAfterReset rest
  | .take _ _ :: rest => rewritesAfterReset rest
  | .act _ :: rest => rewritesAfterReset rest

end Sys2Proof.Machine
end

