-- ==== Sys2Proof/Safety.lean ====
section
/-! DEFINITION. What counts as a good state and a safe run: the bounds that the spec puts on the
registers (spec 10_state.md rules R16, R17, R21 and R28, 60_exceptions.md rules R101 and R102), and
runs that neither fault nor are refused. -/

namespace Sys2Proof.Machine

/-- The values that a command can leave in STATUS, by rules R28 and R101: 0, an error code 1 to 4,
TRUNC alone, or CH3 alone. -/
def statusValues : List Word := [0, 1, 2, 3, 4, 8, 16]

/-- The bounds that every reachable state keeps: STATUS is one of the values of rule R28, INLEN is at
most 16 (rule R17), and bits 31 to 24 of each CPAL register are 0 (rule R21). -/
abbrev State.InBounds (s : State) : Prop :=
  s.status ∈ statusValues ∧ s.inlen.toNat ≤ 16 ∧ ∀ j : Fin 4, bits s.cpal[j].toNat 24 8 = 0

/-- The values that the command in CMD can have left in STATUS (rules R28, R101 and R102). -/
def statusValuesOf (cmd : Word) : List Word :=
  match decode cmd with
  | .error e => [statusError e]
  | .ok i =>
    match i with
    | .nop => [statusDone]
    | .qalpha3Dxt3 => [statusDone, statusError .trunc]
    | .decodeDxt1 => [statusThreeChannel, statusShort]
    | .decodeDxt3 => [statusDone, statusShort]
    | .decodeDxt5 => [statusDone, statusShort]
    | .rotateDxt1 _ => [statusDone, statusError .trunc]
    | .rotateDxt5 _ => [statusDone, statusError .trunc]
    | .fliphDxt1 => [statusDone, statusError .trunc]
    | .fliphDxt5 => [statusDone, statusError .trunc]
    | .flipvDxt1 => [statusDone, statusError .trunc]
    | .flipvDxt3 => [statusDone, statusError .trunc]
    | .flipvDxt5 => [statusDone, statusError .trunc]

/-- STATUS is a result of the command that CMD records (rules R15, R28 and R102). -/
abbrev State.StatusFitsCmd (s : State) : Prop := s.status ∈ statusValuesOf s.cmd

/-- `n` steps from `s` neither fault nor are refused. -/
def SafeRun (n : Nat) (s : State) : Prop := ∃ t, Sys2Proof.core.run n s = .next t

/-- An event that the unit accepts: a reset, or an aligned 32-bit access inside the window
(rules R24 and R40). -/
def Event.wellShaped : Event → Bool
  | .access a => a.width == Config.accessBytes && a.offset % 4 == 0
      && decide (a.offset < Config.windowBytes)
  | .reset => true

end Sys2Proof.Machine
end

