-- ==== Sys2Proof/Certificates/Slice0/Obligations.lean ====
section
/-! DEFINITION. The statements for the provers. The definitions of `Sys2Proof.Claims` say what the
spec's rules say in plain arithmetic on the register words, without the model's own functions. -/

namespace Sys2Proof.Claims

open Sys2Proof.Machine

/-- Byte `m` of a register word, bits `8m+7` to `8m`. -/
def lane (w : Word) (m : Nat) : Nat := w.toNat / 256 ^ m % 256

/-- IN[i], from IN_W0 to IN_W3 (rule R18). -/
def inB (s : State) (i : Nat) : Nat := lane (s.inW[i / 4]?.getD 0) (i % 4)

/-- OUT[i], from OUT_W0 to OUT_W3 (rule R19). -/
def outB (s : State) (i : Nat) : Nat := lane (s.outW[i / 4]?.getD 0) (i % 4)

/-- APAL[c], from APAL_W0 and APAL_W1 (rule R22). -/
def apalB (s : State) (c : Nat) : Nat := lane (s.apalW[c / 4]?.getD 0) (c % 4)

/-- The little-endian 16-bit number at byte `o` of IN (rule R30). -/
def inU16 (s : State) (o : Nat) : Nat := inB s o + 256 * inB s (o + 1)

/-- Colour index `i` of the index field at byte `o` of a block (rule R34). -/
def index (b : Nat → Nat) (o i : Nat) : Nat := b (o + i / 4) / 4 ^ (i % 4) % 4

/-- DXT5 alpha code `i` of a block (rules R32 and R36). -/
def alphaCodeAt (b : Nat → Nat) (i : Nat) : Nat :=
  (b 2 + 256 * b 3 + 256 ^ 2 * b 4 + 256 ^ 3 * b 5 + 256 ^ 4 * b 6 + 256 ^ 5 * b 7) / 8 ^ i % 8

/-- Channel `m` (0 red, 1 green, 2 blue) of an RGB565 value, expanded to 8 bits (rules R33 and
R70): `(v<<3)|(v>>2)` is `8v + v div 4` of a 5-bit v, `(v<<2)|(v>>4)` is `4v + v div 16` of a 6-bit
v. -/
def channel565 (m c : Nat) : Nat :=
  match m with
  | 0 => 8 * (c / 2048 % 32) + c / 2048 % 32 / 4
  | 1 => 4 * (c / 32 % 64) + c / 32 % 64 / 16
  | _ => 8 * (c % 32) + c % 32 / 4

/-- CPAL holds the palette of the endpoints `c0` and `c1`: in 4-colour mode if `four`, else in
3-colour mode (rules R21 and R76). -/
def PaletteIs (t : State) (c0 c1 : Nat) (four : Prop) : Prop :=
  (∀ m < 3,
    lane t.cpal[0] m = channel565 m c0 ∧ lane t.cpal[1] m = channel565 m c1 ∧
    (four → lane t.cpal[2] m = (2 * channel565 m c0 + channel565 m c1) / 3 ∧
      lane t.cpal[3] m = (channel565 m c0 + 2 * channel565 m c1) / 3) ∧
    (¬ four → lane t.cpal[2] m = (channel565 m c0 + channel565 m c1) / 2 ∧
      lane t.cpal[3] m = 0)) ∧
  ∀ j : Fin 4, lane t.cpal[j] 3 = 0

/-- TEX i of `t` is entry `j` of its CPAL with the alpha `a` (rules R20 and R75). -/
def TexelIs (t : State) (i : Fin 16) (j a : Nat) : Prop :=
  j < 4 ∧ t.tex[i].toNat = (t.cpal[j]?.getD 0).toNat + a * 2 ^ 24

/-- Entry `c` of the DXT5 alpha palette (rules R80 to R82). -/
def alphaOf (a0 a1 c : Nat) : Nat :=
  if c = 0 then a0
  else if c = 1 then a1
  else if a1 < a0 then (2 * ((7 - c) * a0 + c * a1) + 7) / 14
  else if c = 6 then 0
  else if c = 7 then 255
  else (2 * ((6 - c) * a0 + (c - 1) * a1) + 5) / 10

/-- The `src` column of rule R88 for ROTATE, K = 0 to 3. -/
def rotationMaps : List (List Nat) :=
  [[0, 1, 2, 3, 4, 5, 6, 7, 8, 9, 10, 11, 12, 13, 14, 15],
    [12, 8, 4, 0, 13, 9, 5, 1, 14, 10, 6, 2, 15, 11, 7, 3],
    [15, 14, 13, 12, 11, 10, 9, 8, 7, 6, 5, 4, 3, 2, 1, 0],
    [3, 7, 11, 15, 2, 6, 10, 14, 1, 5, 9, 13, 0, 4, 8, 12]]

/-- `src[p]` of ROTATE K = k (rule R88). -/
def rotSrc (k p : Nat) : Nat := (rotationMaps.getD k []).getD p 0

/-- `src[p]` of FLIPH (rule R88). -/
def flipSrc (p : Nat) : Nat := [3, 2, 1, 0, 7, 6, 5, 4, 11, 10, 9, 8, 15, 14, 13, 12].getD p 0

/-- `src[p]` of FLIPV (rule R88). -/
def idSrc (p : Nat) : Nat := p

/-- The 8-byte block `c` is the DXT1 block `b` with index p taken from `src p` (rule R92). -/
def MovedDxt1 (src : Nat → Nat) (b c : Nat → Nat) : Prop :=
  (∀ m < 4, c m = b m) ∧ ∀ p < 16, index c 4 p = index b 4 (src p)

/-- The 16-byte block `c` is the DXT5 block `b` with code and index p taken from `src p`
(rule R92). -/
def MovedDxt5 (src : Nat → Nat) (b c : Nat → Nat) : Prop :=
  (∀ m < 2, c m = b m) ∧ (∀ p < 16, alphaCodeAt c p = alphaCodeAt b (src p)) ∧
  (∀ m, 8 ≤ m → m < 12 → c m = b m) ∧ ∀ p < 16, index c 12 p = index b 12 (src p)

/-- The block of a grid format `f` moved by `src` (rule R92). -/
def Moved (f : GridFmt) (src : Nat → Nat) (b c : Nat → Nat) : Prop :=
  match f with
  | .dxt1 => MovedDxt1 src b c
  | .dxt5 => MovedDxt5 src b c

/-- Byte `i` of a host buffer. -/
def buf (d : List Byte) (i : Nat) : Nat := (d.getD i 0).toNat

/-- Bytes of a block of a grid format (rule R57). -/
def gridBytes (f : GridFmt) : Nat :=
  match f with
  | .dxt1 => 8
  | .dxt5 => 16

/-- The decode format of a grid format. -/
def decodeFmt (f : GridFmt) : Fmt :=
  match f with
  | .dxt1 => .dxt1
  | .dxt5 => .dxt5

/-- The number of the error that a write of the word `w` to CMD ends with while INLEN is `n`, 0 for
none (rules R61, R101 and R103). -/
def errorOf (w n : Nat) : Nat :=
  let op := w % 16
  let fmt := w / 16 % 4
  let k := w / 64 % 4
  if 6 ≤ op then 1
  else if 256 ≤ w ∨ (k ≠ 0 ∧ op ≠ 3) ∨ (fmt ≠ 0 ∧ op = 0) then 2
  else if fmt = 3 ∨ (op = 2 ∧ fmt ≠ 1) ∨ ((op = 3 ∨ op = 4) ∧ fmt = 1) then 3
  else if 2 ≤ op ∧ n < (if fmt = 0 then 8 else 16) then 4
  else 0

/-- The command is a DECODE, of a block of the given size (rules R56 and R57). -/
def decodeSize (i : Instr) : Option Nat :=
  match i with
  | .decodeDxt1 => some 8
  | .decodeDxt3 => some 16
  | .decodeDxt5 => some 16
  | .nop => none
  | .qalpha3Dxt3 => none
  | .rotateDxt1 _ => none
  | .rotateDxt5 _ => none
  | .fliphDxt1 => none
  | .fliphDxt5 => none
  | .flipvDxt1 => none
  | .flipvDxt3 => none
  | .flipvDxt5 => none

/-- Every register of rule R14 is 0 (rule R112). -/
abbrev Zeroed (s : State) : Prop :=
  s.cmd = 0 ∧ s.status = 0 ∧ s.inlen = 0 ∧ (∀ j : Fin 4, s.inW[j] = 0) ∧
  (∀ j : Fin 4, s.outW[j] = 0) ∧ (∀ i : Fin 16, s.tex[i] = 0) ∧ (∀ j : Fin 4, s.cpal[j] = 0) ∧
  ∀ j : Fin 2, s.apalW[j] = 0

/-- The image sequences of rules R48 to R52, for every argument they run on. -/
def IsImageSequence (q : Sequence) : Prop :=
  (∃ f fill d w h, q = decodeSequence f fill d w h) ∨
  (∃ px w h ch out, q = quantizeSequence px w h ch out) ∨
  (∃ f d w h times, rotateSequence f d w h times = .next q) ∨
  ∃ d w h bs, flipHSequence d w h bs = .next q ∨ flipVSequence d w h bs = .next q

/-- Pixel (X, Y), channel c, of an image of width w with ch bytes a pixel (rule R45). -/
def pixel (img : List Byte) (w ch X Y c : Nat) : Nat := buf img ((Y * w + X) * ch + c)

end Sys2Proof.Claims

open Sys2Proof Sys2Proof.Machine Sys2Proof.Claims

/-! ### Encoding -/

/-- Decoding the word of a well-formed command gives the command back, with every K (rules R55 to
R59). -/
def Obligations.DecodeOfEncodeGivesTheCommand : Prop :=
  ∀ i : Instr, i.WellFormed → decode (encode i) = .ok i

/-- Rule R59's table, row by row: the word and mask columns say exactly which words are the
command. -/
def Obligations.LegalWordsAreExactlyTheTable : Prop :=
  ∀ w : Word,
    (decode w = .ok .nop ↔ w = 0x00000000#32) ∧
    (decode w = .ok .qalpha3Dxt3 ↔ w = 0x00000012#32) ∧
    (decode w = .ok .decodeDxt1 ↔ w = 0x00000001#32) ∧
    (decode w = .ok .decodeDxt3 ↔ w = 0x00000011#32) ∧
    (decode w = .ok .decodeDxt5 ↔ w = 0x00000021#32) ∧
    (∀ k, decode w = .ok (.rotateDxt1 k) ↔ k < 4 ∧ w.toNat = 0x00000003 + 0x40 * k) ∧
    ((∃ k, decode w = .ok (.rotateDxt1 k)) ↔ w &&& 0xFFFFFF3F#32 = 0x00000003#32) ∧
    (∀ k, decode w = .ok (.rotateDxt5 k) ↔ k < 4 ∧ w.toNat = 0x00000023 + 0x40 * k) ∧
    ((∃ k, decode w = .ok (.rotateDxt5 k)) ↔ w &&& 0xFFFFFF3F#32 = 0x00000023#32) ∧
    (decode w = .ok .fliphDxt1 ↔ w = 0x00000004#32) ∧
    (decode w = .ok .fliphDxt5 ↔ w = 0x00000024#32) ∧
    (decode w = .ok .flipvDxt1 ↔ w = 0x00000005#32) ∧
    (decode w = .ok .flipvDxt3 ↔ w = 0x00000015#32) ∧
    (decode w = .ok .flipvDxt5 ↔ w = 0x00000025#32)

/-- Words written out as `RSV(24) ‖ K(2) ‖ FMT(2) ‖ OP(4)` (rule R55), one of each family. -/
def Obligations.SampleWordsDecodeAsTheFormatSays : Prop :=
  decode (0#24 ++ 0b00#2 ++ 0b00#2 ++ 0b0000#4) = .ok .nop ∧
  decode (0#24 ++ 0b00#2 ++ 0b01#2 ++ 0b0010#4) = .ok .qalpha3Dxt3 ∧
  decode (0#24 ++ 0b00#2 ++ 0b10#2 ++ 0b0001#4) = .ok .decodeDxt5 ∧
  decode (0#24 ++ 0b11#2 ++ 0b00#2 ++ 0b0011#4) = .ok (.rotateDxt1 3) ∧
  decode (0#24 ++ 0b10#2 ++ 0b10#2 ++ 0b0011#4) = .ok (.rotateDxt5 2) ∧
  decode (0#24 ++ 0b00#2 ++ 0b10#2 ++ 0b0100#4) = .ok .fliphDxt5 ∧
  decode (0#24 ++ 0b00#2 ++ 0b01#2 ++ 0b0101#4) = .ok .flipvDxt3

/-- Every word written to CMD ends with the error of rules R61 and R103, whatever IN holds, and an
error changes CMD and STATUS alone. -/
def Obligations.EveryCommandWordGetsItsErrorCode : Prop :=
  ∀ (v : Word) (s : State), ∃ t, runCommand v s = .next t ∧
    t.status.toNat % 8 = errorOf v.toNat s.inlen.toNat ∧
    (errorOf v.toNat s.inlen.toNat ≠ 0 →
      t = { s with cmd := v, status := BitVec.ofNat 32 (errorOf v.toNat s.inlen.toNat) }) ∧
    (errorOf v.toNat 16 = 0 ↔ ∃ i, decode v = .ok i)

/-- What an error does (rule R102): for an illegal word, and for a legal word of a command other than
NOP and DECODE whose input is short. -/
def Obligations.ErrorWritesOnlyStatusAndKeepsTheWord : Prop :=
  ∀ (v : Word) (s : State) (e : ErrCode),
    (decode v = .error e ∨
      (e = .trunc ∧ ∃ i, decode v = .ok i ∧ i ≠ .nop ∧ decodeSize i = none ∧
        s.inlen.toNat < (if v.toNat / 16 % 4 = 0 then 8 else 16))) →
    runCommand v s = .next { s with cmd := v, status := BitVec.ofNat 32 e.code }

/-- ROTATE.f 0 does what COPY.f does, and the pseudo-commands are the commands of rule R65. -/
def Obligations.PseudoCommandsAreTheirExpansions : Prop :=
  (Pseudo.rot90 .dxt1).expand = .rotateDxt1 1 ∧ (Pseudo.rot90 .dxt5).expand = .rotateDxt5 1 ∧
  (Pseudo.rot180 .dxt1).expand = .rotateDxt1 2 ∧ (Pseudo.rot180 .dxt5).expand = .rotateDxt5 2 ∧
  (Pseudo.rot270 .dxt1).expand = .rotateDxt1 3 ∧ (Pseudo.rot270 .dxt5).expand = .rotateDxt5 3 ∧
  (Pseudo.rotCcw .dxt1).expand = .rotateDxt1 3 ∧ (Pseudo.rotCcw .dxt5).expand = .rotateDxt5 3 ∧
  (Pseudo.copy .dxt1).expand = .flipvDxt1 ∧ (Pseudo.copy .dxt3).expand = .flipvDxt3 ∧
  (Pseudo.copy .dxt5).expand = .flipvDxt5 ∧
  ∀ s : State, exec (.rotateDxt1 0) s = exec (Pseudo.copy .dxt1).expand s ∧
    exec (.rotateDxt5 0) s = exec (Pseudo.copy .dxt5).expand s

/-! ### Steps and the register window -/

/-- A step performs the host's next access, whatever it is, on the state with the access taken away;
performing a write of CMD is running the command of its word, whatever the word is; a legal word runs
its command on the state with the word in CMD, and another ends with its error (rules R15, R29 and R61).
So a step whose next access writes a legal word to CMD is that command. -/
def Obligations.StepRunsTheDecodedCommand : Prop :=
  (∀ (s : State) (a : Access) (rest : List Event),
    s.pending = .access a :: rest → agentsInterleave s.pending = false →
    step s = perform a { s with pending := rest }) ∧
  (∀ (ag : Nat) (v : Word) (s : State), perform ⟨ag, .write v, 0x00, 4⟩ s = runCommand v s) ∧
  (∀ (v : Word) (s : State),
    (∀ i, decode v = .ok i → runCommand v s = exec i { s with cmd := v }) ∧
    ∀ e, decode v = .error e →
      runCommand v s = .next { s with cmd := v, status := BitVec.ofNat 32 e.code }) ∧
  ∀ (s : State) (ag : Nat) (v : Word) (rest : List Event) (i : Instr),
    s.pending = .access ⟨ag, .write v, 0x00, 4⟩ :: rest → agentsInterleave s.pending = false →
    decode v = .ok i →
    step s = exec i { s with pending := rest, cmd := v }

/-- Reading a register returns its value and changes no register: the offsets of rule R14's table. -/
def Obligations.ReadsFollowTheRegisterMap : Prop :=
  ∀ (ag : Nat) (s : State),
    let read := fun off => perform ⟨ag, .read, off, 4⟩ s
    let gives := fun (v : Word) =>
      Host.Outcome.next (φ := Fault) (ρ := Refusal) { s with readData := some v }
    read 0x00 = gives s.cmd ∧ read 0x04 = gives s.status ∧ read 0x08 = gives s.inlen ∧
    (∀ j : Fin 4, read (0x10 + 4 * j.val) = gives s.inW[j]) ∧
    (∀ j : Fin 4, read (0x20 + 4 * j.val) = gives s.outW[j]) ∧
    (∀ i : Fin 16, read (0x40 + 4 * i.val) = gives s.tex[i]) ∧
    (∀ j : Fin 4, read (0x80 + 4 * j.val) = gives s.cpal[j]) ∧
    (∀ j : Fin 2, read (0x90 + 4 * j.val) = gives s.apalW[j])

/-- Reserved offsets read 0 and ignore writes, and the read-only registers ignore writes and start no
command (rule R23). -/
def Obligations.ReservedAndReadOnlyOffsetsIgnoreWrites : Prop :=
  ∀ (ag off : Nat) (v : Word) (s : State), off % 4 = 0 → off < 256 →
    ((off = 0x0C ∨ (0x30 ≤ off ∧ off ≤ 0x3C) ∨ 0x98 ≤ off) →
      perform ⟨ag, .read, off, 4⟩ s = .next { s with readData := some 0 } ∧
      perform ⟨ag, .write v, off, 4⟩ s = .next s) ∧
    ((off = 0x04 ∨ (0x20 ≤ off ∧ off < 0x30) ∨ (0x40 ≤ off ∧ off < 0x98)) →
      perform ⟨ag, .write v, off, 4⟩ s = .next s)

/-- An access that is not an aligned 32-bit access is refused; an aligned 32-bit access inside the
window is performed (rules R14, R23 and R24). An offset past the window faults, the model's choice of
name for an access rule R40 gives no register (log entry 5). -/
def Obligations.OnlyAlignedWordAccessesArePerformed : Prop :=
  ∀ (a : Access) (s : State),
    (a.width ≠ 4 ∨ a.offset % 4 ≠ 0 → perform a s = .refused .accessShape) ∧
    (a.width = 4 → a.offset % 4 = 0 → a.offset < 256 → ∃ t, perform a s = .next t) ∧
    (a.width = 4 → a.offset % 4 = 0 → 256 ≤ a.offset → perform a s = .fault .outsideWindow)

/-- A write to INLEN stores the count of bits 4 to 0, with 17 to 31 stored as 16 and bits 31 to 5 as
0, and changes nothing else (rule R17). -/
def Obligations.InlenWriteStoresALegalCount : Prop :=
  ∀ (ag : Nat) (v : Word) (s : State), ∃ n : Word,
    perform ⟨ag, .write v, 0x08, 4⟩ s = .next { s with inlen := n } ∧
    n.toNat = if v.toNat % 32 ≤ 16 then v.toNat % 32 else 16

/-- A write to IN_Wj replaces IN[4j] to IN[4j+3], least significant byte first, and nothing else; a
read of it returns those bytes; and no command writes IN (rule R18). -/
def Obligations.InWriteReplacesFourBytes : Prop :=
  (∀ (ag : Nat) (j : Fin 4) (v : Word) (s : State), ∃ t,
    perform ⟨ag, .write v, 0x10 + 4 * j.val, 4⟩ s = .next t ∧ t = { s with inW := t.inW } ∧
    (∀ m < 4, inB t (4 * j.val + m) = v.toNat / 2 ^ (8 * m) % 256) ∧
    (∀ i : Nat, i < 16 → i / 4 ≠ j.val → inB t i = inB s i) ∧
    perform ⟨ag, .read, 0x10 + 4 * j.val, 4⟩ t = .next { t with readData := some v }) ∧
  ∀ (v : Word) (s t : State), runCommand v s = .next t → t.inW = s.inW

/-- Two host agents with accesses pending on one unit are refused, and nothing else is refused so.
That "at once" means pending at once is the model's choice (log entry 4). -/
def Obligations.TwoPendingAgentsAreRefused : Prop :=
  ∀ s : State, step s = .refused .agentsInterleave ↔
    ∃ a b : Access, .access a ∈ s.pending ∧ .access b ∈ s.pending ∧ a.agent ≠ b.agent

/-- With no event pending a step leaves every register as it is (rule R110). That such a step is taken
at all is the model's choice (log entry 1). -/
def Obligations.IdleStepKeepsTheState : Prop :=
  ∀ s : State, s.pending = [] → step s = .next s

/-- CMD, STATUS, OUT, TEX, CPAL and APAL change in a step only by a write of CMD or a reset of the
platform, and INLEN and IN only by a write of their own or a reset (rules R15 to R23, R26 and
R106). -/
def Obligations.RegistersChangeOnlyByTheirWrites : Prop :=
  ∀ s t : State, step s = .next t → (∀ rest, s.pending ≠ .reset :: rest) →
    ((∀ ag v rest, s.pending ≠ .access ⟨ag, .write v, 0x00, 4⟩ :: rest) →
      t.cmd = s.cmd ∧ t.status = s.status ∧ t.outW = s.outW ∧ t.tex = s.tex ∧ t.cpal = s.cpal ∧
      t.apalW = s.apalW) ∧
    ((∀ ag v rest, s.pending ≠ .access ⟨ag, .write v, 0x08, 4⟩ :: rest) → t.inlen = s.inlen) ∧
    ((∀ ag v rest, ∀ j : Fin 4,
        s.pending ≠ .access ⟨ag, .write v, 0x10 + 4 * j.val, 4⟩ :: rest) → t.inW = s.inW)

/-- Running the command of a CMD write a second time, with INLEN and IN unchanged, leaves the same
registers (rule R39). -/
def Obligations.RepeatingACommandChangesNothing : Prop :=
  ∀ (v : Word) (s t : State), runCommand v s = .next t → runCommand v t = .next t

/-- A queue of aligned 32-bit accesses inside the window, all of one agent, and of resets is worked
off without a stop, one event a step (rules R41 and R121). The queue, and with it the count of steps and
the steps after it is empty, is the model's choice (log entry 1); so are the resets that stand in it (log
entry 6). -/
def Obligations.PendingAccessesAreWorkedOff : Prop :=
  ∀ s : State, (∀ e ∈ s.pending, e.wellShaped = true) → agentsInterleave s.pending = false →
    ∃ t, Sys2Proof.core.run s.pending.length s = .next t ∧ t.pending = [] ∧
      ∀ n, SafeRun n s

/-! ### Reset -/

/-- Reset sets every register to 0 and starts no command (rule R112): the state after reset, and the
step that a reset of the platform takes in a running machine. That the reset stands in the queue of
accesses, and that the accesses behind it stay, is the model's choice (log entries 1 and 6). -/
def Obligations.ResetSetsEveryRegisterToZero : Prop :=
  Zeroed State.reset ∧
  ∀ (s : State) (rest : List Event), s.pending = .reset :: rest →
    agentsInterleave s.pending = false →
    ∃ t, step s = .next t ∧ Zeroed t ∧ t.pending = rest ∧ exec .nop t = .next t

/-- After reset INLEN is 0 whatever the host writes to IN: a DECODE gives the zero tile with TRUNC,
every other command but NOP ERR_TRUNC (rule R116). -/
def Obligations.CommandsAfterResetFindShortInput : Prop :=
  ∀ (i : Instr) (words : Vector Word 4),
    let s := { State.reset with inW := words }
    exec i s = .next
      (if i = .nop then s
      else if (decodeSize i).isSome then { s with status := 8 }
      else { s with status := 4 })

/-- The state after reset meets both invariants. -/
def Obligations.ResetMeetsTheInvariants : Prop :=
  State.reset.InBounds ∧ State.reset.StatusFitsCmd

/-! ### Invariants of every step -/

/-- Every step keeps STATUS within the values of rule R28 (so its bits 31 to 5 are 0 and ERR is never
5, 6 or 7), INLEN at most 16, and bits 31 to 24 of CPAL at 0. -/
def Obligations.StepKeepsRegisterBounds : Prop :=
  ∀ s t : State, s.InBounds → step s = .next t → t.InBounds

/-- Every step keeps STATUS a result that the command in CMD can have: for an illegal word in CMD its
error code, for a legal one a value of its row of rule R28. -/
def Obligations.StepKeepsStatusFittingCmd : Prop :=
  ∀ s t : State, s.StatusFitsCmd → step s = .next t → t.StatusFitsCmd

/-! ### The commands -/

/-- NOP sets STATUS to 0 and does nothing else, and a word with OP = 0 and any other bit set is a
field error (rule R100). -/
def Obligations.NopClearsStatusOnly : Prop :=
  decode 0x00000000#32 = .ok .nop ∧
  (∀ s : State, exec .nop s = .next { s with status := 0 }) ∧
  ∀ w : Word, w.toNat % 16 = 0 → w ≠ 0x00000000#32 → decode w = .error .badField

/-- QALPHA3.DXT3 (rules R67 to R69). -/
def Obligations.QuantizerPacksHighNibbles : Prop :=
  decode 0x00000012#32 = .ok .qalpha3Dxt3 ∧
  ∀ s : State,
    (16 ≤ s.inlen.toNat → ∃ t, exec .qalpha3Dxt3 s = .next t ∧
      t = { s with outW := t.outW, status := 0 } ∧
      (∀ j < 8, outB t j = inB s (2 * j) / 16 + 16 * (inB s (2 * j + 1) / 16)) ∧
      ∀ j, 8 ≤ j → j < 16 → outB t j = 0) ∧
    (s.inlen.toNat < 16 → exec .qalpha3Dxt3 s = .next { s with status := 4 })

/-- DECODE.DXT1 (rule R85). -/
def Obligations.DecodeDxt1LooksUpThePalette : Prop :=
  decode 0x00000001#32 = .ok .decodeDxt1 ∧
  ∀ s : State,
    (8 ≤ s.inlen.toNat → ∃ t, exec .decodeDxt1 s = .next t ∧
      t = { s with tex := t.tex, cpal := t.cpal, status := 0x10 } ∧
      PaletteIs t (inU16 s 0) (inU16 s 2) (inU16 s 2 < inU16 s 0) ∧
      ∀ i : Fin 16, TexelIs t i (index (inB s) 4 i.val) 0xFF) ∧
    (s.inlen.toNat < 8 →
      exec .decodeDxt1 s = .next { s with tex := Vector.replicate 16 0, status := 8 })

/-- DECODE.DXT3 (rule R86). -/
def Obligations.DecodeDxt3LooksUpThePalette : Prop :=
  decode 0x00000011#32 = .ok .decodeDxt3 ∧
  ∀ s : State,
    (16 ≤ s.inlen.toNat → ∃ t, exec .decodeDxt3 s = .next t ∧
      t = { s with tex := t.tex, cpal := t.cpal, status := 0 } ∧
      PaletteIs t (inU16 s 8) (inU16 s 10) True ∧
      ∀ i : Fin 16, TexelIs t i (index (inB s) 12 i.val)
        (17 * (inB s (i.val / 2) / 16 ^ (i.val % 2) % 16))) ∧
    (s.inlen.toNat < 16 →
      exec .decodeDxt3 s = .next { s with tex := Vector.replicate 16 0, status := 8 })

/-- DECODE.DXT5 (rule R87). -/
def Obligations.DecodeDxt5LooksUpBothPalettes : Prop :=
  decode 0x00000021#32 = .ok .decodeDxt5 ∧
  ∀ s : State,
    (16 ≤ s.inlen.toNat → ∃ t, exec .decodeDxt5 s = .next t ∧
      t = { s with tex := t.tex, cpal := t.cpal, apalW := t.apalW, status := 0 } ∧
      PaletteIs t (inU16 s 8) (inU16 s 10) True ∧
      (∀ c < 8, apalB t c = alphaOf (inB s 0) (inB s 1) c) ∧
      ∀ i : Fin 16, TexelIs t i (index (inB s) 12 i.val) (apalB t (alphaCodeAt (inB s) i.val))) ∧
    (s.inlen.toNat < 16 →
      exec .decodeDxt5 s = .next { s with tex := Vector.replicate 16 0, status := 8 })

/-- ROTATE.DXT1 K (rules R88, R90 and R93). -/
def Obligations.RotateDxt1MovesTheIndices : Prop :=
  ∀ k < 4, decode (BitVec.ofNat 32 (0x03 + 0x40 * k)) = .ok (.rotateDxt1 k) ∧
  ∀ s : State,
    (8 ≤ s.inlen.toNat → ∃ t, exec (.rotateDxt1 k) s = .next t ∧
      t = { s with outW := t.outW, status := 0 } ∧ MovedDxt1 (rotSrc k) (inB s) (outB t) ∧
      ∀ m, 8 ≤ m → m < 16 → outB t m = 0) ∧
    (s.inlen.toNat < 8 → exec (.rotateDxt1 k) s = .next { s with status := 4 })

/-- ROTATE.DXT5 K (rules R88, R90, R91 and R94). -/
def Obligations.RotateDxt5MovesCodesAndIndices : Prop :=
  ∀ k < 4, decode (BitVec.ofNat 32 (0x23 + 0x40 * k)) = .ok (.rotateDxt5 k) ∧
  ∀ s : State,
    (16 ≤ s.inlen.toNat → ∃ t, exec (.rotateDxt5 k) s = .next t ∧
      t = { s with outW := t.outW, status := 0 } ∧ MovedDxt5 (rotSrc k) (inB s) (outB t)) ∧
    (s.inlen.toNat < 16 → exec (.rotateDxt5 k) s = .next { s with status := 4 })

/-- FLIPH.DXT1 (rules R88, R90 and R95). -/
def Obligations.FlipHDxt1MirrorsTheColumns : Prop :=
  decode 0x00000004#32 = .ok .fliphDxt1 ∧
  ∀ s : State,
    (8 ≤ s.inlen.toNat → ∃ t, exec .fliphDxt1 s = .next t ∧
      t = { s with outW := t.outW, status := 0 } ∧ MovedDxt1 flipSrc (inB s) (outB t) ∧
      ∀ m, 8 ≤ m → m < 16 → outB t m = 0) ∧
    (s.inlen.toNat < 8 → exec .fliphDxt1 s = .next { s with status := 4 })

/-- FLIPH.DXT5 (rules R88, R90, R91 and R96). -/
def Obligations.FlipHDxt5MirrorsTheColumns : Prop :=
  decode 0x00000024#32 = .ok .fliphDxt5 ∧
  ∀ s : State,
    (16 ≤ s.inlen.toNat → ∃ t, exec .fliphDxt5 s = .next t ∧
      t = { s with outW := t.outW, status := 0 } ∧ MovedDxt5 flipSrc (inB s) (outB t)) ∧
    (s.inlen.toNat < 16 → exec .fliphDxt5 s = .next { s with status := 4 })

/-- FLIPV.DXT1, FLIPV.DXT3 and FLIPV.DXT5 copy the block: the pixel rows inside it stay (rules R97 to
R99). -/
def Obligations.FlipVCopiesTheBlock : Prop :=
  decode 0x00000005#32 = .ok .flipvDxt1 ∧ decode 0x00000015#32 = .ok .flipvDxt3 ∧
  decode 0x00000025#32 = .ok .flipvDxt5 ∧
  ∀ s : State,
    (8 ≤ s.inlen.toNat → ∃ t, exec .flipvDxt1 s = .next t ∧
      t = { s with outW := t.outW, status := 0 } ∧ (∀ m < 8, outB t m = inB s m) ∧
      ∀ m, 8 ≤ m → m < 16 → outB t m = 0) ∧
    (s.inlen.toNat < 8 → exec .flipvDxt1 s = .next { s with status := 4 }) ∧
    (16 ≤ s.inlen.toNat → exec .flipvDxt3 s = .next { s with outW := s.inW, status := 0 } ∧
      exec .flipvDxt5 s = .next { s with outW := s.inW, status := 0 }) ∧
    (s.inlen.toNat < 16 → exec .flipvDxt3 s = .next { s with status := 4 } ∧
      exec .flipvDxt5 s = .next { s with status := 4 })

/-- A DECODE whose input is short writes the zero tile and TRUNC and keeps the palettes, and no
DECODE's result depends on the IN bytes past its block (rule R84). -/
def Obligations.ShortDecodeGivesTheZeroTile : Prop :=
  (∀ (i : Instr) (size : Nat) (s : State), decodeSize i = some size → s.inlen.toNat < size →
    exec i s = .next { s with tex := Vector.replicate 16 0, status := 8 }) ∧
  ∀ (s t : State) (x y : Word), exec .decodeDxt1 s = .next t →
    exec .decodeDxt1 { s with inW := (s.inW.set 2 x).set 3 y }
      = .next { t with inW := (s.inW.set 2 x).set 3 y }

/-- The DXT5 alpha palette: the endpoints, the literals 0 and 255 of the second table, and between
them the integer nearest to PYK's real-valued interpolant, which lies between the endpoints (rules R80
to R82). -/
def Obligations.AlphaPaletteRoundsToTheNearest : Prop :=
  ∀ s : State, 16 ≤ s.inlen.toNat → ∃ t, exec .decodeDxt5 s = .next t ∧
    apalB t 0 = inB s 0 ∧ apalB t 1 = inB s 1 ∧
    (inB s 1 < inB s 0 → ∀ c, 2 ≤ c → c ≤ 7 →
      -7 < 2 * (7 * (apalB t c : Int) - (7 * inB s 0 + ((inB s 1 : Int) - inB s 0) * c)) ∧
      2 * (7 * (apalB t c : Int) - (7 * inB s 0 + ((inB s 1 : Int) - inB s 0) * c)) < 7 ∧
      apalB t c = (2 * ((7 - c) * inB s 0 + c * inB s 1) + 7) / 14 ∧
      inB s 1 ≤ apalB t c ∧ apalB t c ≤ inB s 0) ∧
    (inB s 0 ≤ inB s 1 → apalB t 6 = 0 ∧ apalB t 7 = 255 ∧ ∀ c, 2 ≤ c → c ≤ 5 →
      -5 < 2 * (5 * (apalB t c : Int) - (5 * inB s 0 + ((inB s 1 : Int) - inB s 0) * (c - 1))) ∧
      2 * (5 * (apalB t c : Int) - (5 * inB s 0 + ((inB s 1 : Int) - inB s 0) * (c - 1))) < 5 ∧
      apalB t c = (2 * ((6 - c) * inB s 0 + (c - 1) * inB s 1) + 5) / 10 ∧
      inB s 0 ≤ apalB t c ∧ apalB t c ≤ inB s 1)

/-- What each command, run to its end, may write: STATUS always; TEX only DECODE; CPAL only a DECODE
of a whole block; APAL only DECODE.DXT5 of a whole block; OUT only the other commands, without an
error; and nothing else (rule R28). -/
def Obligations.CommandsWriteOnlyTheirRegisters : Prop :=
  ∀ (i : Instr) (s : State), ∃ t, exec i s = .next t ∧
    t = { s with
      status := t.status, tex := t.tex, cpal := t.cpal, apalW := t.apalW, outW := t.outW } ∧
    (decodeSize i = none → t.tex = s.tex ∧ t.cpal = s.cpal) ∧
    (∀ size, decodeSize i = some size → s.inlen.toNat < size → t.cpal = s.cpal ∧ t.apalW = s.apalW) ∧
    (i ≠ .decodeDxt5 → t.apalW = s.apalW) ∧
    ((decodeSize i).isSome ∨ i = .nop ∨ t.status ≠ 0 → t.outW = s.outW)

/-- STATUS after a command: ERR is the code of rule R101, TRUNC is set by a short DECODE alone, CH3 by
a DECODE.DXT1 of a whole block alone, bits 31 to 5 are 0, and no command's result depends on STATUS
before it (rules R16 and R25). -/
def Obligations.FlagsRecordTheLastCommand : Prop :=
  ∀ (v : Word) (s : State), ∃ t, runCommand v s = .next t ∧
    t.status.toNat % 8 = errorOf v.toNat s.inlen.toNat ∧
    (t.status.toNat / 8 % 2 = 1 ↔
      ∃ i size, decode v = .ok i ∧ decodeSize i = some size ∧ s.inlen.toNat < size) ∧
    (t.status.toNat / 16 % 2 = 1 ↔ v = 0x00000001#32 ∧ 8 ≤ s.inlen.toNat) ∧
    t.status.toNat < 32 ∧
    ∀ x : Word, runCommand v { s with status := x } = .next t

/-- No command reads OUT, TEX, CPAL, APAL or STATUS: two states with the same INLEN and IN end with
the same STATUS, and each result register is either kept in both or the same in both; NOP does not
even read those (rules R26 and R27). -/
def Obligations.ResultsDependOnlyOnInlenAndIn : Prop :=
  (∀ (i : Instr) (s u : State), s.inlen = u.inlen → s.inW = u.inW →
    ∃ t v, exec i s = .next t ∧ exec i u = .next v ∧ t.status = v.status ∧
      ((t.tex = s.tex ∧ v.tex = u.tex) ∨ t.tex = v.tex) ∧
      ((t.cpal = s.cpal ∧ v.cpal = u.cpal) ∨ t.cpal = v.cpal) ∧
      ((t.apalW = s.apalW ∧ v.apalW = u.apalW) ∨ t.apalW = v.apalW) ∧
      ((t.outW = s.outW ∧ v.outW = u.outW) ∨ t.outW = v.outW)) ∧
  ∀ (s : State) (n : Word) (b : Vector Word 4),
    exec .nop { s with inlen := n, inW := b } = .next { s with inlen := n, inW := b, status := 0 }

/-! ### Commands one after another -/

/-- Rotating and flipping move the decoded texels: decoding the OUT of a ROTATE or FLIPH gives the
texels of the block before, moved by the position map, with the same palettes (rule R92). -/
def Obligations.DecodeOfAMovedBlockMovesTheTexels : Prop :=
  ∀ (f : GridFmt) (s : State), gridBytes f ≤ s.inlen.toNat →
    ∀ (i : Instr) (src : Nat → Nat),
      ((∃ k < 4, i = rotateCommand f k ∧ src = rotSrc k) ∨ (i = fliphCommand f ∧ src = flipSrc) ∨
        (i = flipvCommand f ∧ src = idSrc)) →
    ∃ t u v, exec i s = .next t ∧
      exec (decodeCommand (decodeFmt f)) { t with inW := t.outW } = .next u ∧
      exec (decodeCommand (decodeFmt f)) s = .next v ∧
      u.cpal = v.cpal ∧ (f = .dxt5 → u.apalW = v.apalW) ∧
      ∀ p : Fin 16, ∃ q : Fin 16, q.val = src p.val ∧ u.tex[p] = v.tex[q]

/-- ROTATE k and then ROTATE k' on its result is ROTATE (k + k') mod 4, so four quarter turns give the
block back, and FLIPH twice gives the block back (rule R89). -/
def Obligations.RotationsComposeAndFlipHUndoesItself : Prop :=
  ∀ (f : GridFmt) (s : State), gridBytes f ≤ s.inlen.toNat →
    (∀ k < 4, ∀ k' < 4, ∃ t u v, exec (rotateCommand f k) s = .next t ∧
      exec (rotateCommand f k') { t with inW := t.outW } = .next u ∧
      exec (rotateCommand f ((k + k') % 4)) s = .next v ∧ u.outW = v.outW) ∧
    (∃ t u, exec (fliphCommand f) s = .next t ∧
      exec (fliphCommand f) { t with inW := t.outW } = .next u ∧
      ∀ m < gridBytes f, outB u m = inB s m)

/-- Swapping the endpoints of a DXT3 or DXT5 block and inverting the low bit of every colour index
leaves the 16 texels as they are (rules R74 and R76; the spec's test item S4). -/
def Obligations.EndpointSwapKeepsFourColourTexels : Prop :=
  ∀ s : State, 16 ≤ s.inlen.toNat → ∀ i : Instr, (i = .decodeDxt3 ∨ i = .decodeDxt5) →
    let swapped := { s with
      inW := (s.inW.set 2 (s.inW[2].rotateLeft 16)).set 3 (s.inW[3] ^^^ 0x55555555#32) }
    ∃ t u, exec i s = .next t ∧ exec i swapped = .next u ∧ u.tex = t.tex

/-- An alpha quantized by QALPHA3 and decoded by DECODE.DXT3, with any colour block, comes back as 17
times its high nibble (rules R67 and R78; rule R69's corner case). -/
def Obligations.QuantizedAlphaDecodesToSeventeenths : Prop :=
  ∀ (s : State) (x y : Word), 16 ≤ s.inlen.toNat →
    ∃ t u, exec .qalpha3Dxt3 s = .next t ∧
      exec .decodeDxt3 { t with inW := (t.outW.set 2 x).set 3 y } = .next u ∧
      ∀ i : Fin 16, lane u.tex[i] 3 = 17 * (inB s i.val / 16)

/-! ### The host's image sequences -/

/-- The host faults of rule R53, in the order in which the sequences check for them (rules R50 to
R52), and that there is no other: a transform with good sides, block size and length ends with a buffer
of the grid's size, a decode (rule R48) always ends with an image, and the alpha half of an encode
(rule R49) always ends with a compressed buffer of the size it was given. That the alpha half ends so
also for host buffers of other sizes than rules R45 and R46 say is the model's choice (log entry
10). -/
def Obligations.SequencesFaultExactlyAsListed : Prop :=
  (∀ (f : GridFmt) (d : List Byte) (w h : Nat) (times : Int) (s : State),
    let n := w / 4 * (h / 4) * gridBytes f
    (w % 4 ≠ 0 ∨ h % 4 ≠ 0 → rotateImage f d w h times s = .fault .invalidDimensions) ∧
    (w % 4 = 0 → h % 4 = 0 → d.length < n →
      rotateImage f d w h times s = .fault .truncatedInput) ∧
    (w % 4 = 0 → h % 4 = 0 → n ≤ d.length →
      ∃ t out, rotateImage f d w h times s = .next (t, out) ∧ out.length = n)) ∧
  (∀ (d : List Byte) (w h bs : Nat) (s : State) (flip :
      List Byte → Nat → Nat → Nat → State → Host.Outcome (State × List Byte) Fault Refusal),
    flip = flipImageH ∨ flip = flipImageV →
    (w % 4 ≠ 0 ∨ h % 4 ≠ 0 → flip d w h bs s = .fault .invalidDimensions) ∧
    (w % 4 = 0 → h % 4 = 0 → bs ≠ 8 → bs ≠ 16 → flip d w h bs s = .fault .badBlockSize) ∧
    (w % 4 = 0 → h % 4 = 0 → (bs = 8 ∨ bs = 16) → d.length < w / 4 * (h / 4) * bs →
      flip d w h bs s = .fault .truncatedInput) ∧
    (w % 4 = 0 → h % 4 = 0 → (bs = 8 ∨ bs = 16) → w / 4 * (h / 4) * bs ≤ d.length →
      ∃ t out, flip d w h bs s = .next (t, out) ∧ out.length = w / 4 * (h / 4) * bs)) ∧
  (∀ (f : Fmt) (fill : Nat → Byte) (d : List Byte) (w h : Nat) (s : State),
    ∃ t img, decodeImage f fill d w h s = .next (t, img)) ∧
  ∀ (px : List Byte) (w h : Nat) (ch : Channels) (out0 : List Byte) (s : State),
    ∃ t out, quantizeImage px w h ch out0 s = .next (t, out) ∧ out.length = out0.length

/-- Decode of an image (rule R48): its size, and every pixel is the texel that the decode command
writes to TEX for the pixel's block, from any state that holds what `data` has of the block; the
bytes that `data` lacks do not matter. -/
def Obligations.DecodedImageShowsEveryBlocksTexels : Prop :=
  ∀ (f : Fmt) (fill : Nat → Byte) (d : List Byte) (w h : Nat) (s : State),
    let bs := if f = .dxt1 then 8 else 16
    let ch := if f = .dxt1 then 3 else 4
    ∃ t img, decodeImage f fill d w h s = .next (t, img) ∧ img.length = w * h * ch ∧
      ∀ X < w, ∀ Y < h, ∀ c < ch, ∀ u v : State,
        let off := (Y / 4 * ((w + 3) / 4) + X / 4) * bs
        u.inlen.toNat = min (d.length - off) bs →
        (∀ m < bs, off + m < d.length → inB u m = buf d (off + m)) →
        exec (decodeCommand f) u = .next v →
        ∃ i : Fin 16, i.val = 4 * (Y % 4) + X % 4 ∧ pixel img w ch X Y c = lane v.tex[i] c

/-- The DXT3 alpha half of an encode of a pixel buffer of its size (rules R45, R47 and R49): byte j of
a block's first eight is the two nibbles of texels 2j and 2j+1, an RGB source counts as alpha 255 and a
texel outside the image as alpha 0. That bytes 8 to 15 of every block stay is the model's reading (log
entry 17). -/
def Obligations.QuantizedImageHoldsEveryBlocksNibbles : Prop :=
  ∀ (px : List Byte) (w h : Nat) (ch : Channels) (out0 : List Byte) (s : State),
    let nx := (w + 3) / 4
    let ny := (h + 3) / 4
    let alpha := fun bx yb i =>
      if 4 * bx + i % 4 < w ∧ 4 * yb + i / 4 < h then
        if ch = .rgb then 255 else pixel px w 4 (4 * bx + i % 4) (4 * yb + i / 4) 3
      else 0
    px.length = w * h * (if ch = .rgb then 3 else 4) → out0.length = nx * ny * 16 →
    ∃ t out, quantizeImage px w h ch out0 s = .next (t, out) ∧ out.length = out0.length ∧
      ∀ bx < nx, ∀ yb < ny, ∀ j < 16, buf out ((yb * nx + bx) * 16 + j) =
        if j < 8 then alpha bx yb (2 * j) / 16 + 16 * (alpha bx yb (2 * j + 1) / 16)
        else buf out0 ((yb * nx + bx) * 16 + j)

/-- Rotation of an image (rule R50): with the sides and the length good, block (bx, by) goes to
remap_k(bx, by) of the output grid, rotated by k steps, k being `times mod 4`. -/
def Obligations.RotatedImageMovesEveryBlock : Prop :=
  ∀ (f : GridFmt) (d : List Byte) (w h : Nat) (times : Int) (s : State),
    let bs := gridBytes f
    let nx := w / 4
    let ny := h / 4
    w % 4 = 0 → h % 4 = 0 → nx * ny * bs ≤ d.length →
    ∃ t out, rotateImage f d w h times s = .next (t, out) ∧ out.length = nx * ny * bs ∧
      ∀ bx < nx, ∀ yb < ny, ∀ k : Nat, times % 4 = k →
        let dst := if k = 0 then yb * nx + bx
          else if k = 1 then bx * ny + (ny - 1 - yb)
          else if k = 2 then (ny - 1 - yb) * nx + (nx - 1 - bx)
          else (nx - 1 - bx) * ny + yb
        Moved f (rotSrc k) (fun m => buf d ((yb * nx + bx) * bs + m))
          (fun m => buf out (dst * bs + m))

/-- The flips of an image (rules R51 and R52): the horizontal flip leaves each block at its place and
mirrors its columns; the vertical flip reverses the block rows and leaves each block as it is. A
16-byte block is taken as DXT5. -/
def Obligations.FlippedImagesMoveEveryBlock : Prop :=
  ∀ (f : GridFmt) (d : List Byte) (w h : Nat) (s : State),
    let bs := gridBytes f
    let nx := w / 4
    let ny := h / 4
    w % 4 = 0 → h % 4 = 0 → nx * ny * bs ≤ d.length →
    (∃ t out, flipImageH d w h bs s = .next (t, out) ∧ out.length = nx * ny * bs ∧
      ∀ b < nx * ny, Moved f flipSrc (fun m => buf d (b * bs + m)) (fun m => buf out (b * bs + m))) ∧
    ∃ t out, flipImageV d w h bs s = .next (t, out) ∧ out.length = nx * ny * bs ∧
      ∀ bx < nx, ∀ yb < ny, ∀ m < bs,
        buf out (((ny - 1 - yb) * nx + bx) * bs + m) = buf d ((yb * nx + bx) * bs + m)

/-- Flipping an image horizontally twice gives the block grid's bytes back (the spec's test item S5;
rules R51 and R89). -/
def Obligations.FlipImageHTwiceGivesTheImageBack : Prop :=
  ∀ (f : GridFmt) (d : List Byte) (w h : Nat) (s : State), w % 4 = 0 → h % 4 = 0 →
    d.length = w / 4 * (h / 4) * gridBytes f →
    ∃ t u out, flipImageH d w h (gridBytes f) s = .next (t, out) ∧
      flipImageH out w h (gridBytes f) t = .next (u, d)

/-- Rotations of an image add up: rotating by `a` and then, with the sides of the image so far, by
`b` gives the bytes of rotating by `a + b`; and a multiple of 4 steps gives the block grid's bytes back
(rules R50 and R89, which give the spec's test item S6). -/
def Obligations.ImageRotationsAddUp : Prop :=
  ∀ (f : GridFmt) (d : List Byte) (w h : Nat) (a b : Int) (s : State),
    w % 4 = 0 → h % 4 = 0 → w / 4 * (h / 4) * gridBytes f ≤ d.length →
    (∃ t d1 u d2 v, rotateImage f d w h a s = .next (t, d1) ∧
      rotateImage f d1 (if a % 2 = 0 then w else h) (if a % 2 = 0 then h else w) b t
        = .next (u, d2) ∧
      rotateImage f d w h (a + b) s = .next (v, d2)) ∧
    (a % 4 = 0 → ∃ t, rotateImage f d w h a s
      = .next (t, d.take (w / 4 * (h / 4) * gridBytes f)))

/-- The pixels of a rotated image, decoded, are the image's pixels rotated: for k = 1, 2 and 3 steps
clockwise (rule R54). -/
def Obligations.RotatedImageDecodesToRotatedPixels : Prop :=
  ∀ (f : GridFmt) (fill : Nat → Byte) (d : List Byte) (w h : Nat) (times : Int) (s : State),
    let ch := if f = .dxt1 then 3 else 4
    let D := fun e w h => decodeImage (decodeFmt f) fill e w h s
    w % 4 = 0 → h % 4 = 0 → w / 4 * (h / 4) * gridBytes f ≤ d.length →
    ∃ t d' u img, rotateImage f d w h times s = .next (t, d') ∧ D d w h = .next (u, img) ∧
      ∀ X < w, ∀ Y < h, ∀ c < ch,
        (times % 4 = 1 → ∃ v img', D d' h w = .next (v, img') ∧
          pixel img' h ch (h - 1 - Y) X c = pixel img w ch X Y c) ∧
        (times % 4 = 2 → ∃ v img', D d' w h = .next (v, img') ∧
          pixel img' w ch (w - 1 - X) (h - 1 - Y) c = pixel img w ch X Y c) ∧
        (times % 4 = 3 → ∃ v img', D d' h w = .next (v, img') ∧
          pixel img' h ch Y (w - 1 - X) c = pixel img w ch X Y c)

/-- The pixels of a flipped image, decoded: the horizontal flip mirrors each 4-pixel column strip, the
vertical flip reverses the block rows and keeps the rows inside a block (rule R54). -/
def Obligations.FlippedImagesDecodeToMovedPixels : Prop :=
  ∀ (f : GridFmt) (fill : Nat → Byte) (d : List Byte) (w h : Nat) (s : State),
    let ch := if f = .dxt1 then 3 else 4
    let D := fun e => decodeImage (decodeFmt f) fill e w h s
    w % 4 = 0 → h % 4 = 0 → w / 4 * (h / 4) * gridBytes f ≤ d.length →
    ∃ t dh t' dv u img v imgh v' imgv,
      flipImageH d w h (gridBytes f) s = .next (t, dh) ∧
      flipImageV d w h (gridBytes f) s = .next (t', dv) ∧
      D d = .next (u, img) ∧ D dh = .next (v, imgh) ∧ D dv = .next (v', imgv) ∧
      ∀ X < w, ∀ Y < h, ∀ c < ch,
        pixel imgh w ch (4 * (X / 4) + 3 - X % 4) Y c = pixel img w ch X Y c ∧
        pixel imgv w ch X (4 * (h / 4 - 1 - Y / 4) + Y % 4) c = pixel img w ch X Y c

/-! ### Several units -/

/-- The step of unit a of a system is `step` of that unit, and no other unit changes; two different
units step in either order with the same result (rules R44 and R108). -/
def Obligations.UnitsStepIndependently : Prop :=
  ∀ (a b : Nat) (sys x y : System), a ≠ b → System.stepUnit a sys = .next x →
    System.stepUnit b sys = .next y →
    (∃ s t, sys.units[a]? = some s ∧ step s = .next t ∧ x.units[a]? = some t) ∧
    (∀ c, c ≠ a → x.units[c]? = sys.units[c]?) ∧ x.units.length = sys.units.length ∧
    ∃ z, System.stepUnit b x = .next z ∧ System.stepUnit a y = .next z

/-- An access at an address of unit u's window goes behind the accesses pending on unit u and touches
no other unit, on a platform whose windows do not overlap (rules R40 and R108). -/
def Obligations.AccessReachesTheUnitOfItsWindow : Prop :=
  ∀ (p : Config.Platform) (ag : Nat) (kind : AccessKind) (u off width : Nat) (sys : System)
    (base : Nat) (s : State),
    p.WellFormed → p.bases[u]? = some base → sys.units[u]? = some s → off < 256 →
    ∃ sys', System.post p ag kind (base + off) width sys = .next sys' ∧
      sys'.units[u]? = some { s with pending := s.pending ++ [.access ⟨ag, kind, off, width⟩] } ∧
      ∀ v, v ≠ u → sys'.units[v]? = sys.units[v]?

/-! ### Sequences on several units, in any order, with resets -/

/-- An image sequence may process its blocks in any order and on any units of a system: a plan that
gives every block to some unit runs to its end without a fault, and the buffer is the one of the
undisturbed run in ascending order on one unit (rule R44). -/
def Obligations.AnyBlockOrderOnAnyUnitsGivesTheSameBuffer : Prop :=
  ∀ q : Sequence, IsImageSequence q → ∀ (sys : System) (plan : List (Nat × Nat)) (s : State),
    (∀ b ∈ plan, b.1 < sys.units.length) →
    (∀ k < q.blocks.length, ∃ u, (u, k) ∈ plan) →
    ∃ p t, runTurns q (planTurns q plan) (.begin q sys) = .next p ∧
      (∀ k < q.blocks.length, k ∈ p.done) ∧ q.run s = .next (t, p.out)

/-- The agents on the units of a system may interleave their accesses in any way, and the platform may
reset any unit between any two of them: if after every reset of a unit its agent takes a block anew, and
so writes IN and INLEN anew before its next CMD write, no fault occurs, and once every block is done the
buffer is the one of the undisturbed run (rules R44, R114 and R119). That taking a block anew is what
rule R114 asks of the host is the model's reading (log entry 20). -/
def Obligations.ResetSequencesContinueCorrectlyAfterRewriting : Prop :=
  ∀ q : Sequence, IsImageSequence q → ∀ (sys : System) (ts : List Turn) (s : State),
    (∀ t ∈ ts, t.unit < sys.units.length) → rewritesAfterReset ts = true →
    ∃ p, runTurns q ts (.begin q sys) = .next p ∧
      ((∀ k < q.blocks.length, k ∈ p.done) → ∃ t, q.run s = .next (t, p.out))

/-- A reset of a unit while a sequence is under way zeroes the unit's registers and leaves what the
host has copied (rule R114), and every other unit (rules R44 and R108). That the block in the agent's
hand, the list of blocks done and the other workers stay is the model's reading (log entry 20). -/
def Obligations.ResetDuringASequenceKeepsCopiedOutputs : Prop :=
  ∀ (q : Sequence) (p : Progress) (u : Nat) (w : Worker), p.workers[u]? = some w →
    ∃ x, (Turn.reset u).run q p = .next ⟨p.workers.set u ⟨x, w.job⟩, p.out, p.done⟩ ∧ Zeroed x

/-- If a reset falls between the INLEN write and the CMD write of a block and the host goes on without
writing IN and INLEN anew, the block is lost: a transform or an alpha half of an encode ends with the
host fault UnitError, a decode stores zeros for every texel of the block and changes no other byte
(rules R53, R84, R101 and R114). -/
def Obligations.GoingOnAfterAResetLosesTheBlock : Prop :=
  ∀ q : Sequence, IsImageSequence q → ∀ (p : Progress) (u k n : Nat) (w : Worker)
    (acts : List HostAct) (c : Word) (i : Instr),
    p.workers[u]? = some w → q.blocks[k]? = some acts → acts[n]? = some (.write .cmd c) →
    decode c = .ok i →
    let turns := .take u k :: List.replicate n (.act u)
      ++ .reset u :: List.replicate (acts.length - n) (.act u)
    (decodeSize i = none → runTurns q turns p = .fault .unitError) ∧
    ((decodeSize i).isSome → ∃ p', runTurns q turns p = .next p' ∧ k ∈ p'.done ∧
      p'.out.length = p.out.length ∧
      ∀ j < p.out.length,
        ((∃ r off m, HostAct.copy r off m ∈ acts ∧ off ≤ j ∧ j < off + m) → buf p'.out j = 0) ∧
        ((∀ r off m, HostAct.copy r off m ∈ acts → j < off ∨ off + m ≤ j) →
          buf p'.out j = buf p.out j))
end

