-- ==== Sys2Proof/Laws/Bits.lean ====
section
/-! SUPPORT. Packed fields: a field read back from `packFields` is the field packed, and so for the
bytes of register words and of little-endian numbers. -/

namespace Sys2Proof.Laws

open Sys2Proof.Machine

theorem bits_lt (v lo w : Nat) : bits v lo w < 2 ^ w := Nat.mod_lt _ (by positivity)

theorem packFields_congr {w : Nat} {f g : Nat → Nat} :
    ∀ {n : Nat}, (∀ p < n, f p = g p) → packFields w f n = packFields w g n
  | 0, _ => rfl
  | n + 1, h => by
    have ih : packFields w f n = packFields w g n := packFields_congr fun p hp => h p (by omega)
    rw [packFields, packFields, ih, h n (by omega)]

theorem packFields_lt {w : Nat} {f : Nat → Nat} :
    ∀ {n : Nat}, (∀ p < n, f p < 2 ^ w) → packFields w f n < 2 ^ (w * n)
  | 0, _ => by simp [packFields]
  | n + 1, h => by
    have ih := packFields_lt (f := f) (n := n) fun p hp => h p (by omega)
    have hn := h n (by omega)
    have : (f n + 1) * 2 ^ (w * n) ≤ 2 ^ w * 2 ^ (w * n) := Nat.mul_le_mul_right _ hn
    simp only [packFields]
    rw [Nat.mul_add, Nat.mul_one, Nat.pow_add, Nat.mul_comm (2 ^ (w * n))]
    linarith [Nat.add_mul (f n) 1 (2 ^ (w * n))]

/-- Field `p` of packed fields is the field packed. -/
theorem bits_packFields {w : Nat} {f : Nat → Nat} :
    ∀ {n p : Nat}, (∀ q < n, f q < 2 ^ w) → p < n → bits (packFields w f n) (w * p) w = f p
  | 0, _, _, hp => by omega
  | n + 1, p, h, hp => by
    have ih : ∀ q < n, f q < 2 ^ w := fun q hq => h q (by omega)
    have low := packFields_lt ih
    by_cases hpn : p = n
    · subst hpn
      simp only [bits, packFields]
      rw [Nat.add_mul_div_right _ _ (by positivity), Nat.div_eq_of_lt low, Nat.zero_add]
      exact Nat.mod_eq_of_lt (h p hp)
    · have hlt : p < n := by omega
      obtain ⟨d, rfl⟩ : ∃ d, n = p + 1 + d := ⟨n - (p + 1), by omega⟩
      have e : 2 ^ (w * (p + 1 + d)) = 2 ^ (w * d) * 2 ^ w * 2 ^ (w * p) := by
        rw [← Nat.pow_add, ← Nat.pow_add]; congr 1; ring
      rw [← bits_packFields ih hlt]
      simp only [bits]
      rw [packFields, e, ← Nat.mul_assoc, ← Nat.mul_assoc, Nat.add_mul_div_right _ _ (by positivity),
        Nat.add_mul_mod_self_right]

/-- Packing the fields of a number gives the number back. -/
theorem packFields_bits (w v : Nat) : ∀ n : Nat,
    packFields w (fun p => bits v (w * p) w) n = v % 2 ^ (w * n)
  | 0 => by simp [packFields, Nat.mod_one]
  | n + 1 => by
    rw [packFields, packFields_bits w v n, bits, Nat.mul_succ, Nat.pow_add, Nat.mod_mul]
    ring

theorem bits_toNat_ofNat {n w : Nat} (h : w ≤ n) (v : Nat) :
    bits (BitVec.ofNat n v).toNat 0 w = bits v 0 w := by
  simp only [bits, BitVec.toNat_ofNat, Nat.pow_zero, Nat.div_one]
  exact Nat.mod_mod_of_dvd _ (Nat.pow_dvd_pow 2 h)

@[simp] theorem byteAt_toNat (v m : Nat) : (byteAt v m).toNat = bits v (8 * m) 8 := by
  simp only [byteAt, BitVec.toNat_ofNat]
  exact Nat.mod_eq_of_lt (bits_lt ..)

theorem wordOfBytes_toNat (f : Nat → Byte) :
    (wordOfBytes f).toNat = packFields 8 (fun m => (f m).toNat) 4 := by
  simp only [wordOfBytes, BitVec.toNat_ofNat]
  exact Nat.mod_eq_of_lt (packFields_lt fun p _ => (f p).isLt)

/-- Byte `m` of a word made of bytes. -/
theorem byteAt_wordOfBytes (f : Nat → Byte) {m : Nat} (h : m < 4) :
    byteAt (wordOfBytes f).toNat m = f m := by
  apply BitVec.eq_of_toNat_eq
  rw [byteAt_toNat, wordOfBytes_toNat]
  exact bits_packFields (fun p _ => (f p).isLt) h

theorem wordOfBytes_congr {f g : Nat → Byte} (h : ∀ m < 4, f m = g m) :
    wordOfBytes f = wordOfBytes g := by
  simp only [wordOfBytes, packFields_congr fun p hp => congrArg BitVec.toNat (h p hp)]

/-- A word is the word of its bytes. -/
theorem wordOfBytes_byteAt (w : Word) : wordOfBytes (byteAt w.toNat) = w := by
  apply BitVec.eq_of_toNat_eq
  rw [wordOfBytes_toNat]
  simp only [byteAt_toNat]
  rw [packFields_bits]
  exact Nat.mod_eq_of_lt w.isLt

/-- Byte `i` of a row of registers made of bytes. -/
theorem byteOfWords_wordsOfBytes {n i : Nat} (f : Nat → Byte) (h : i < 4 * n) :
    byteOfWords (wordsOfBytes n f) i = f i := by
  have hi : i / 4 < n := by omega
  simp only [byteOfWords, wordsOfBytes, Vector.getElem?_ofFn, hi, dite_true, Option.getD_some]
  rw [byteAt_wordOfBytes _ (Nat.mod_lt _ (by omega))]
  exact congrArg f (Nat.div_add_mod i 4)

theorem wordsOfBytes_congr {n : Nat} {f g : Nat → Byte} (h : ∀ i < 4 * n, f i = g i) :
    wordsOfBytes n f = wordsOfBytes n g := by
  ext1 j hj
  simp only [wordsOfBytes, Vector.getElem_ofFn]
  exact wordOfBytes_congr fun m hm => h _ (by omega)

/-- A row of registers is the row of its bytes. -/
theorem wordsOfBytes_byteOfWords {n : Nat} (v : Vector Word n) :
    wordsOfBytes n (byteOfWords v) = v := by
  ext1 j hj
  simp only [wordsOfBytes, Vector.getElem_ofFn]
  rw [← wordOfBytes_byteAt v[j]]
  refine wordOfBytes_congr fun m hm => ?_
  have h1 : (4 * j + m) / 4 = j := by omega
  have h2 : (4 * j + m) % 4 = m := by omega
  simp [byteOfWords, h1, h2, hj]

theorem le_congr {f g : Nat → Byte} {o n : Nat} (h : ∀ m < n, f (o + m) = g (o + m)) :
    le f o n = le g o n := by
  simp only [le]
  exact packFields_congr fun p hp => by rw [h p hp]

theorem le_lt (f : Nat → Byte) (o n : Nat) : le f o n < 2 ^ (8 * n) :=
  packFields_lt fun p _ => (f (o + p)).isLt

/-- Byte `m` of a little-endian number is the byte read there (rule R9). -/
theorem byteAt_le (f : Nat → Byte) (o : Nat) {n m : Nat} (h : m < n) :
    byteAt (le f o n) m = f (o + m) := by
  apply BitVec.eq_of_toNat_eq
  rw [byteAt_toNat]
  exact bits_packFields (fun p _ => (f (o + p)).isLt) h

/-- The little-endian number of the bytes of a number (rules R9 and R92). -/
theorem le_byteAt {f : Nat → Byte} {o n v : Nat} (h : ∀ m < n, f (o + m) = byteAt v m) :
    le f o n = v % 2 ^ (8 * n) := by
  rw [← packFields_bits, le]
  exact packFields_congr fun p hp => by rw [h p hp, byteAt_toNat]

end Sys2Proof.Laws
end

