-- ==== Sys2Proof/Laws/Decode.lean ====
section
/-! SUPPORT. The fields of a command word, and that a word which no check of rule R61 refuses is in
rule R59's table. -/

namespace Sys2Proof.Laws

theorem fieldOp_lt (w : Word) : fieldOp w < 16 := bits_lt ..
theorem fieldFmt_lt (w : Word) : fieldFmt w < 4 := bits_lt ..
theorem fieldK_lt (w : Word) : fieldK w < 4 := bits_lt ..

/-- A command word is the sum of its fields (rule R55). -/
theorem word_toNat_of_fields (w : Word) :
    w.toNat = fieldOp w + 16 * fieldFmt w + 64 * fieldK w + 256 * fieldRsv w := by
  have := w.isLt
  simp only [fieldOp, fieldFmt, fieldK, fieldRsv, bits]
  omega

/-- The last arm of `decode` is never reached: no word passes the checks of rule R61 and lacks a row
in rule R59's table. -/
theorem commandOf_of_noError {w : Word} (h : encodingError w = none) :
    ∃ i, commandOf (fieldOp w) (fieldFmt w) (fieldK w) = some i := by
  simp only [encodingError] at h
  split at h
  · cases h
  split at h
  · cases h
  split at h
  · cases h
  rename_i h1 h2 h3
  have hop : fieldOp w < 6 := by omega
  have hf := fieldFmt_lt w
  generalize fieldOp w = op at *
  generalize fieldFmt w = fmt at *
  interval_cases op <;> interval_cases fmt <;> simp_all [commandOf]

/-- What decoding a word answers, by the checks of rule R61 and the table of rule R59. -/
theorem decode_cases (w : Word) :
    (∃ e, encodingError w = some e ∧ decode w = .error e) ∨
    (∃ i, encodingError w = none ∧ commandOf (fieldOp w) (fieldFmt w) (fieldK w) = some i
      ∧ decode w = .ok i) := by
  cases h : encodingError w with
  | some e => exact .inl ⟨e, rfl, by simp [decode, h]⟩
  | none =>
    obtain ⟨i, hi⟩ := commandOf_of_noError h
    exact .inr ⟨i, rfl, hi, by simp [decode, h, hi]⟩

end Sys2Proof.Laws
end

