-- ==== Sys2Proof/Laws/State.lean ====
section
/-! SUPPORT. One lemma per field per update of the state, and the bytes that the updates leave in IN
and OUT. -/

namespace Sys2Proof.Laws

open Sys2Proof.Machine

@[simp] theorem putOut_cmd (out : Nat → Byte) (s : State) : (s.putOut out).cmd = s.cmd := rfl

@[simp] theorem putOut_status (out : Nat → Byte) (s : State) :
    (s.putOut out).status = statusDone := rfl

@[simp] theorem putOut_inlen (out : Nat → Byte) (s : State) : (s.putOut out).inlen = s.inlen := rfl

@[simp] theorem putOut_inW (out : Nat → Byte) (s : State) : (s.putOut out).inW = s.inW := rfl

@[simp] theorem putOut_outW (out : Nat → Byte) (s : State) :
    (s.putOut out).outW = wordsOfBytes 4 out := rfl

@[simp] theorem putOut_tex (out : Nat → Byte) (s : State) : (s.putOut out).tex = s.tex := rfl

@[simp] theorem putOut_cpal (out : Nat → Byte) (s : State) : (s.putOut out).cpal = s.cpal := rfl

@[simp] theorem putOut_apalW (out : Nat → Byte) (s : State) : (s.putOut out).apalW = s.apalW := rfl

@[simp] theorem putOut_pending (out : Nat → Byte) (s : State) :
    (s.putOut out).pending = s.pending := rfl

@[simp] theorem putOut_readData (out : Nat → Byte) (s : State) :
    (s.putOut out).readData = s.readData := rfl

@[simp] theorem putTexels_cmd (pal : Nat → Rgb) (tx : Nat → Texel) (st : Word) (s : State) :
    (s.putTexels pal tx st).cmd = s.cmd := rfl

@[simp] theorem putTexels_status (pal : Nat → Rgb) (tx : Nat → Texel) (st : Word) (s : State) :
    (s.putTexels pal tx st).status = st := rfl

@[simp] theorem putTexels_inlen (pal : Nat → Rgb) (tx : Nat → Texel) (st : Word) (s : State) :
    (s.putTexels pal tx st).inlen = s.inlen := rfl

@[simp] theorem putTexels_inW (pal : Nat → Rgb) (tx : Nat → Texel) (st : Word) (s : State) :
    (s.putTexels pal tx st).inW = s.inW := rfl

@[simp] theorem putTexels_outW (pal : Nat → Rgb) (tx : Nat → Texel) (st : Word) (s : State) :
    (s.putTexels pal tx st).outW = s.outW := rfl

@[simp] theorem putTexels_tex (pal : Nat → Rgb) (tx : Nat → Texel) (st : Word) (s : State) :
    (s.putTexels pal tx st).tex = Vector.ofFn fun i => (tx i.val).toWord := rfl

@[simp] theorem putTexels_cpal (pal : Nat → Rgb) (tx : Nat → Texel) (st : Word) (s : State) :
    (s.putTexels pal tx st).cpal = Vector.ofFn fun j => (pal j.val).toWord := rfl

@[simp] theorem putTexels_apalW (pal : Nat → Rgb) (tx : Nat → Texel) (st : Word) (s : State) :
    (s.putTexels pal tx st).apalW = s.apalW := rfl

@[simp] theorem putTexels_pending (pal : Nat → Rgb) (tx : Nat → Texel) (st : Word) (s : State) :
    (s.putTexels pal tx st).pending = s.pending := rfl

@[simp] theorem putTexels_readData (pal : Nat → Rgb) (tx : Nat → Texel) (st : Word) (s : State) :
    (s.putTexels pal tx st).readData = s.readData := rfl

@[simp] theorem raiseError_cmd (e : ErrCode) (s : State) : (s.raiseError e).cmd = s.cmd := rfl

@[simp] theorem raiseError_status (e : ErrCode) (s : State) :
    (s.raiseError e).status = statusError e := rfl

@[simp] theorem raiseError_inlen (e : ErrCode) (s : State) : (s.raiseError e).inlen = s.inlen := rfl

@[simp] theorem raiseError_inW (e : ErrCode) (s : State) : (s.raiseError e).inW = s.inW := rfl

@[simp] theorem raiseError_outW (e : ErrCode) (s : State) : (s.raiseError e).outW = s.outW := rfl

@[simp] theorem raiseError_tex (e : ErrCode) (s : State) : (s.raiseError e).tex = s.tex := rfl

@[simp] theorem raiseError_cpal (e : ErrCode) (s : State) : (s.raiseError e).cpal = s.cpal := rfl

@[simp] theorem raiseError_apalW (e : ErrCode) (s : State) : (s.raiseError e).apalW = s.apalW := rfl

@[simp] theorem raiseError_pending (e : ErrCode) (s : State) :
    (s.raiseError e).pending = s.pending := rfl

@[simp] theorem raiseError_readData (e : ErrCode) (s : State) :
    (s.raiseError e).readData = s.readData := rfl

@[simp] theorem readWindow_cmd (off : Nat) (s : State) : (readWindow off s).cmd = s.cmd := rfl

@[simp] theorem readWindow_status (off : Nat) (s : State) :
    (readWindow off s).status = s.status := rfl

@[simp] theorem readWindow_inlen (off : Nat) (s : State) : (readWindow off s).inlen = s.inlen := rfl

@[simp] theorem readWindow_inW (off : Nat) (s : State) : (readWindow off s).inW = s.inW := rfl

@[simp] theorem readWindow_outW (off : Nat) (s : State) : (readWindow off s).outW = s.outW := rfl

@[simp] theorem readWindow_tex (off : Nat) (s : State) : (readWindow off s).tex = s.tex := rfl

@[simp] theorem readWindow_cpal (off : Nat) (s : State) : (readWindow off s).cpal = s.cpal := rfl

@[simp] theorem readWindow_apalW (off : Nat) (s : State) : (readWindow off s).apalW = s.apalW := rfl

@[simp] theorem readWindow_pending (off : Nat) (s : State) :
    (readWindow off s).pending = s.pending := rfl

@[simp] theorem readWindow_readData (off : Nat) (s : State) :
    (readWindow off s).readData = some (s.readReg (Reg.ofOffset off)) := rfl

@[simp] theorem platformReset_cmd (s : State) : s.platformReset.cmd = State.reset.cmd := rfl

@[simp] theorem platformReset_status (s : State) : s.platformReset.status = State.reset.status := rfl

@[simp] theorem platformReset_inlen (s : State) : s.platformReset.inlen = State.reset.inlen := rfl

@[simp] theorem platformReset_inW (s : State) : s.platformReset.inW = State.reset.inW := rfl

@[simp] theorem platformReset_outW (s : State) : s.platformReset.outW = State.reset.outW := rfl

@[simp] theorem platformReset_tex (s : State) : s.platformReset.tex = State.reset.tex := rfl

@[simp] theorem platformReset_cpal (s : State) : s.platformReset.cpal = State.reset.cpal := rfl

@[simp] theorem platformReset_apalW (s : State) : s.platformReset.apalW = State.reset.apalW := rfl

@[simp] theorem platformReset_pending (s : State) : s.platformReset.pending = s.pending := rfl

@[simp] theorem platformReset_readData (s : State) : s.platformReset.readData = s.readData := rfl

end Sys2Proof.Laws
end

