-- ==== Sys2Proof/Laws/Ops.lean ====
section
/-! SUPPORT. One spec lemma per shared operation: the window's offsets, the accesses, how a command
ends. -/

namespace Sys2Proof.Laws

open Sys2Proof.Machine

/-! ### Bytes of the rows -/

theorem putOut_outByte (out : Nat → Byte) (s : State) {i : Nat} (h : i < 16) :
    (s.putOut out).outByte i = out i := byteOfWords_wordsOfBytes out h

theorem putOut_congr {f g : Nat → Byte} (s : State) (h : ∀ i < 16, f i = g i) :
    s.putOut f = s.putOut g := by
  simp only [State.putOut, wordsOfBytes_congr (n := 4) h]

/-- IN after a write of IN_Wj (rule R18). -/
theorem byteOfWords_set {n : Nat} (v : Vector Word n) (j : Nat) (hj : j < n) (w : Word) (i : Nat) :
    byteOfWords (v.set j w hj) i = if i / 4 = j then byteAt w.toNat (i % 4) else byteOfWords v i := by
  simp only [byteOfWords, Vector.getElem?_set]
  by_cases h : j = i / 4
  · subst h; simp
  · rw [if_neg h, if_neg (Ne.symm h)]

/-! ### The window -/

theorem ofOffset_offset (r : Reg) (h : r ≠ .reserved) : Reg.ofOffset r.offset = r := by
  cases r with
  | inW j => revert j; decide
  | outW j => revert j; decide
  | tex j => revert j; decide
  | cpal j => revert j; decide
  | apalW j => revert j; decide
  | reserved => exact absurd rfl h
  | _ => rfl

theorem ofOffset_reserved : Reg.ofOffset Reg.reserved.offset = .reserved := rfl

theorem offset_aligned (r : Reg) : r.offset % 4 = 0 := by
  cases r <;> simp only [Reg.offset] <;> omega

theorem offset_lt (r : Reg) : r.offset < Config.windowBytes := by
  cases r <;> simp only [Reg.offset, Config.windowBytes] <;> omega

theorem ofOffset_offset_all (r : Reg) : Reg.ofOffset r.offset = r := by
  by_cases h : r = .reserved
  · subst h; rfl
  · exact ofOffset_offset r h

/-- A read access of a register (rule R39). -/
theorem perform_rd (ag : Nat) (r : Reg) (s : State) :
    perform (Access.rd ag r.offset) s = .next { s with readData := some (s.readReg r) } := by
  simp [perform, Access.rd, offset_aligned, Nat.not_le.mpr (offset_lt r), readWindow,
    ofOffset_offset_all]

/-- A write access of a register other than CMD (rules R17, R18 and R23). -/
theorem perform_wr (ag : Nat) (r : Reg) (h : r ≠ .cmd) (v : Word) (s : State) :
    perform (Access.wr ag r.offset v) s = .next (s.writeReg v r) := by
  simp only [perform, Access.wr, offset_aligned, Nat.not_le.mpr (offset_lt r), writeWindow,
    ofOffset_offset_all, ne_eq, not_true_eq_false, or_self, if_false]

/-- A write access of CMD runs the command (rule R15). -/
theorem perform_wr_cmd (ag : Nat) (v : Word) (s : State) :
    perform (Access.wr ag Reg.cmd.offset v) s = runCommand v s := rfl

/-- Everything an access can do (rules R24, R39 and R40). -/
theorem perform_cases (a : Access) (s : State) :
    ((a.width ≠ 4 ∨ a.offset % 4 ≠ 0) ∧ perform a s = .refused .accessShape) ∨
    (256 ≤ a.offset ∧ perform a s = .fault .outsideWindow) ∨
    (∃ r : Reg, perform a s = .next { s with readData := some (s.readReg r) }) ∨
    (∃ v, perform a s = runCommand v s) ∨
    (∃ v, ∃ r : Reg, r ≠ .cmd ∧ perform a s = .next (s.writeReg v r)) := by
  by_cases h1 : a.width ≠ 4 ∨ a.offset % 4 ≠ 0
  · exact .inl ⟨h1, if_pos h1⟩
  by_cases h2 : 256 ≤ a.offset
  · exact .inr (.inl ⟨h2, (if_neg h1).trans (if_pos h2)⟩)
  obtain ⟨ag, kind, off, width⟩ := a
  refine .inr (.inr ?_)
  cases kind with
  | read => exact .inl ⟨_, (if_neg h1).trans (if_neg h2)⟩
  | write v =>
    have e : perform ⟨ag, .write v, off, width⟩ s = writeWindow off v s :=
      (if_neg h1).trans (if_neg h2)
    rw [e]
    simp only [writeWindow]
    split
    · exact .inr (.inl ⟨v, rfl⟩)
    · rename_i h; exact .inr (.inr ⟨v, _, h, rfl⟩)

/-! ### How a command ends -/

theorem statusErr_done : statusErr statusDone = 0 := by decide

theorem statusErr_threeChannel : statusErr statusThreeChannel = 0 := by decide

theorem statusErr_short : statusErr statusShort = 0 := by decide

/-- STATUS.ERR of a command that ended with an error is the error's code (rule R102). -/
theorem statusErr_error (e : ErrCode) : statusErr (statusError e) = e.code := by
  cases e <;> decide

theorem withBlock_short {size : Nat} {s : State} (h : s.inlen.toNat < size) (run : State → State) :
    withBlock size s run = s.raiseError .trunc := if_pos h

theorem withBlock_full {size : Nat} {s : State} (h : size ≤ s.inlen.toNat) (run : State → State) :
    withBlock size s run = run s := if_neg (Nat.not_lt.mpr h)

theorem decodeBlock_short {size : Nat} {s : State} (h : s.inlen.toNat < size)
    (run : State → State) :
    decodeBlock size s run = { s with tex := Vector.replicate 16 0, status := statusShort } :=
  if_pos h

theorem decodeBlock_full {size : Nat} {s : State} (h : size ≤ s.inlen.toNat)
    (run : State → State) : decodeBlock size s run = run s := if_neg (Nat.not_lt.mpr h)

theorem clampInlen_toNat (v : Word) : (clampInlen v).toNat = min (v.toNat % 32) 16 := by
  simp only [clampInlen, bits, BitVec.toNat_ofNat]
  omega

end Sys2Proof.Laws
end

