-- ==== Sys2Proof/Laws/Transform.lean ====
section
/-! SUPPORT. The index permuter field by field: the field at `p` of a permuted index word is the field
at `src p` of the word before (spec rules R90 and R91). -/

namespace Sys2Proof.Laws

open Sys2Proof.Machine

theorem colorIndex_lt (idx i : Nat) : colorIndex idx i < 4 := bits_lt ..
theorem alphaCode_lt (a48 i : Nat) : alphaCode a48 i < 8 := bits_lt ..

theorem perm2_lt (idx : Nat) (src : Nat → Nat) : perm2 idx src < 2 ^ 32 :=
  packFields_lt fun p _ => colorIndex_lt idx (src p)

theorem perm3_lt (a48 : Nat) (src : Nat → Nat) : perm3 a48 src < 2 ^ 48 :=
  packFields_lt fun p _ => alphaCode_lt a48 (src p)

/-- Index `p` of a permuted index field (rule R90). -/
theorem colorIndex_perm2 (idx : Nat) (src : Nat → Nat) {p : Nat} (h : p < 16) :
    colorIndex (perm2 idx src) p = colorIndex idx (src p) :=
  bits_packFields (f := fun p => colorIndex idx (src p)) (fun q _ => colorIndex_lt idx (src q)) h

/-- Code `p` of a permuted code field (rule R91). -/
theorem alphaCode_perm3 (a48 : Nat) (src : Nat → Nat) {p : Nat} (h : p < 16) :
    alphaCode (perm3 a48 src) p = alphaCode a48 (src p) :=
  bits_packFields (f := fun p => alphaCode a48 (src p)) (fun q _ => alphaCode_lt a48 (src q)) h

/-- Permuting twice is permuting once with the composed map (rule R89). -/
theorem perm2_perm2 (idx : Nat) {t u : Nat → Nat} (hu : ∀ p < 16, u p < 16) :
    perm2 (perm2 idx t) u = perm2 idx fun p => t (u p) :=
  packFields_congr fun p hp => colorIndex_perm2 idx t (hu p hp)

theorem perm3_perm3 (a48 : Nat) {t u : Nat → Nat} (hu : ∀ p < 16, u p < 16) :
    perm3 (perm3 a48 t) u = perm3 a48 fun p => t (u p) :=
  packFields_congr fun p hp => alphaCode_perm3 a48 t (hu p hp)

theorem perm2_congr (idx : Nat) {t u : Nat → Nat} (h : ∀ p < 16, t p = u p) :
    perm2 idx t = perm2 idx u := packFields_congr fun p hp => by rw [h p hp]

theorem perm3_congr (a48 : Nat) {t u : Nat → Nat} (h : ∀ p < 16, t p = u p) :
    perm3 a48 t = perm3 a48 u := packFields_congr fun p hp => by rw [h p hp]

/-- The identity map leaves an index field (rule R88). -/
theorem perm2_mapId {idx : Nat} (h : idx < 2 ^ 32) : perm2 idx mapId = idx := by
  have e := packFields_bits 2 idx 16
  rw [Nat.mod_eq_of_lt h] at e
  exact e

theorem perm3_mapId {a48 : Nat} (h : a48 < 2 ^ 48) : perm3 a48 mapId = a48 := by
  have e := packFields_bits 3 a48 16
  rw [Nat.mod_eq_of_lt h] at e
  exact e

theorem mapRotate_lt (k : Nat) {p : Nat} (h : p < 16) : mapRotate k p < 16 := by
  have hk := Nat.mod_lt k (show 0 < 4 by omega)
  interval_cases h4 : k % 4 <;>
    simp only [mapRotate, h4, mapId, mapRot1, mapRot2, mapRot3] <;> omega

theorem mapFlipH_lt {p : Nat} (h : p < 16) : mapFlipH p < 16 := by
  simp only [mapFlipH]; omega

/-! ### The permuted block, read back -/

theorem le_permuteDxt1 (src : Nat → Nat) (b : Nat → Byte) :
    le (permuteDxt1 src b) 4 4 = perm2 (le b 4 4) src := by
  rw [le_byteAt (v := perm2 (le b 4 4) src), Nat.mod_eq_of_lt (perm2_lt ..)]
  intro m hm
  have h1 : ¬ 4 + m < 4 := by omega
  have h2 : 4 + m < 8 := by omega
  simp [permuteDxt1, h1, h2]

theorem le_permuteDxt5_alpha (src : Nat → Nat) (b : Nat → Byte) :
    le (permuteDxt5 src b) 2 6 = perm3 (le b 2 6) src := by
  rw [le_byteAt (v := perm3 (le b 2 6) src), Nat.mod_eq_of_lt (perm3_lt ..)]
  intro m hm
  have h1 : ¬ 2 + m < 2 := by omega
  have h2 : 2 + m < 8 := by omega
  simp [permuteDxt5, h1, h2]

theorem le_permuteDxt5_color (src : Nat → Nat) (b : Nat → Byte) :
    le (permuteDxt5 src b) 12 4 = perm2 (le b 12 4) src := by
  rw [le_byteAt (v := perm2 (le b 12 4) src), Nat.mod_eq_of_lt (perm2_lt ..)]
  intro m hm
  have h1 : ¬ 12 + m < 2 := by omega
  have h2 : ¬ 12 + m < 8 := by omega
  have h3 : ¬ 12 + m < 12 := by omega
  simp [permuteDxt5, h1, h2, h3]

/-- Permuting a DXT1 block depends on its first eight bytes alone. -/
theorem permuteDxt1_congr (src : Nat → Nat) {f g : Nat → Byte} (h : ∀ i < 8, f i = g i) (i : Nat) :
    permuteDxt1 src f i = permuteDxt1 src g i := by
  simp only [permuteDxt1]
  split
  · exact h i (by omega)
  · rw [le_congr (f := f) (g := g) fun m hm => h _ (by omega)]

theorem permuteDxt5_congr (src : Nat → Nat) {f g : Nat → Byte} (h : ∀ i < 16, f i = g i) {i : Nat}
    (hi : i < 16) : permuteDxt5 src f i = permuteDxt5 src g i := by
  simp only [permuteDxt5]
  rw [le_congr (f := f) (g := g) (o := 2) (n := 6) fun m hm => h _ (by omega),
    le_congr (f := f) (g := g) (o := 12) (n := 4) fun m hm => h _ (by omega), h i hi]

end Sys2Proof.Laws
end

