-- ==== Sys2Proof/Laws/Exec.lean ====
section
/-! SUPPORT. What a command can do to the state, said once: the shapes of the next state that `exec`
answers (spec 10_state.md rule R28). -/

namespace Sys2Proof.Laws

open Sys2Proof.Machine

/-- The block size that a command needs, 0 for NOP (rules R57 and R101). -/
def blockSizeOf : Instr → Nat
  | .nop => 0
  | .qalpha3Dxt3 => 16
  | .decodeDxt1 => 8
  | .decodeDxt3 => 16
  | .decodeDxt5 => 16
  | .rotateDxt1 _ => 8
  | .rotateDxt5 _ => 16
  | .fliphDxt1 => 8
  | .fliphDxt5 => 16
  | .flipvDxt1 => 8
  | .flipvDxt3 => 16
  | .flipvDxt5 => 16

/-- The OUT bytes of a command that writes OUT (rules R69 and R92), none for the others. -/
def outOf (b : Nat → Byte) : Instr → Option (Nat → Byte)
  | .nop => none
  | .qalpha3Dxt3 => some (quantizedByte b)
  | .decodeDxt1 => none
  | .decodeDxt3 => none
  | .decodeDxt5 => none
  | .rotateDxt1 k => some (permuteDxt1 (mapRotate k) b)
  | .rotateDxt5 k => some (permuteDxt5 (mapRotate k) b)
  | .fliphDxt1 => some (permuteDxt1 mapFlipH b)
  | .fliphDxt5 => some (permuteDxt5 mapFlipH b)
  | .flipvDxt1 => some (copyDxt1 b)
  | .flipvDxt3 => some b
  | .flipvDxt5 => some b

/-- A command that writes OUT, on a whole block. -/
theorem exec_out {i : Instr} {s : State} {out : Nat → Byte} (h : outOf s.inByte i = some out)
    (hs : blockSizeOf i ≤ s.inlen.toNat) : exec i s = .next (s.putOut out) := by
  cases i <;> simp only [outOf, reduceCtorEq, Option.some.injEq] at h <;> subst h <;>
    exact congrArg Host.Outcome.next (withBlock_full hs _)

/-- A command that writes OUT, on a short block (rule R101). -/
theorem exec_out_short {i : Instr} {s : State} {out : Nat → Byte} (h : outOf s.inByte i = some out)
    (hs : s.inlen.toNat < blockSizeOf i) : exec i s = .next (s.raiseError .trunc) := by
  cases i <;> simp only [outOf, reduceCtorEq] at h <;>
    exact congrArg Host.Outcome.next (withBlock_short hs _)

/-- Every next state of a command is of one of these shapes (rule R28). -/
theorem exec_cases (i : Instr) (s : State) :
    (i = .nop ∧ exec i s = .next { s with status := statusDone }) ∨
    (∃ out, outOf s.inByte i = some out ∧ blockSizeOf i ≤ s.inlen.toNat
      ∧ exec i s = .next (s.putOut out)) ∨
    ((∃ out, outOf s.inByte i = some out) ∧ s.inlen.toNat < blockSizeOf i
      ∧ exec i s = .next (s.raiseError .trunc)) ∨
    ((i = .decodeDxt1 ∨ i = .decodeDxt3 ∨ i = .decodeDxt5) ∧ s.inlen.toNat < blockSizeOf i
      ∧ exec i s = .next { s with tex := Vector.replicate 16 0, status := statusShort }) ∨
    (i = .decodeDxt1 ∧ 8 ≤ s.inlen.toNat ∧ exec i s = .next
      (s.putTexels (paletteDxt1 s.inByte) (texelDxt1 s.inByte) statusThreeChannel)) ∨
    (i = .decodeDxt3 ∧ 16 ≤ s.inlen.toNat ∧ exec i s = .next
      (s.putTexels (paletteFour s.inByte) (texelDxt3 s.inByte) statusDone)) ∨
    (i = .decodeDxt5 ∧ 16 ≤ s.inlen.toNat ∧ exec i s = .next
      { s.putTexels (paletteFour s.inByte) (texelDxt5 s.inByte) statusDone with
        apalW := wordsOfBytes 2 (alphaEntry s.inByte) }) := by
  by_cases hout : ∃ out, outOf s.inByte i = some out
  · obtain ⟨out, ho⟩ := hout
    by_cases hs : s.inlen.toNat < blockSizeOf i
    · exact .inr (.inr (.inl ⟨⟨out, ho⟩, hs, exec_out_short ho hs⟩))
    · exact .inr (.inl ⟨out, ho, by omega, exec_out ho (by omega)⟩)
  · cases i <;> first | exact absurd ⟨_, rfl⟩ hout | skip
    · exact .inl ⟨rfl, rfl⟩
    all_goals
      refine .inr (.inr (.inr ?_))
    · by_cases hs : s.inlen.toNat < 8
      · exact .inl ⟨by simp, hs, congrArg Host.Outcome.next (decodeBlock_short hs _)⟩
      · exact .inr (.inl ⟨rfl, by omega,
          congrArg Host.Outcome.next (decodeBlock_full (by omega) _)⟩)
    · by_cases hs : s.inlen.toNat < 16
      · exact .inl ⟨by simp, hs, congrArg Host.Outcome.next (decodeBlock_short hs _)⟩
      · exact .inr (.inr (.inl ⟨rfl, by omega,
          congrArg Host.Outcome.next (decodeBlock_full (by omega) _)⟩))
    · by_cases hs : s.inlen.toNat < 16
      · exact .inl ⟨by simp, hs, congrArg Host.Outcome.next (decodeBlock_short hs _)⟩
      · exact .inr (.inr (.inr ⟨rfl, by omega,
          congrArg Host.Outcome.next (decodeBlock_full (by omega) _)⟩))

/-- A command's answer on two states with the same INLEN and IN is of the same shape, with the same
values written (rule R27). -/
theorem exec_congr (i : Instr) {s u : State} (hl : s.inlen = u.inlen) (hw : s.inW = u.inW) :
    (i = .nop ∧ exec i s = .next { s with status := statusDone }
      ∧ exec i u = .next { u with status := statusDone }) ∨
    (∃ out, outOf s.inByte i = some out ∧ exec i s = .next (s.putOut out)
      ∧ exec i u = .next (u.putOut out)) ∨
    ((∃ out, outOf s.inByte i = some out) ∧ exec i s = .next (s.raiseError .trunc)
      ∧ exec i u = .next (u.raiseError .trunc)) ∨
    ((i = .decodeDxt1 ∨ i = .decodeDxt3 ∨ i = .decodeDxt5)
      ∧ exec i s = .next { s with tex := Vector.replicate 16 0, status := statusShort }
      ∧ exec i u = .next { u with tex := Vector.replicate 16 0, status := statusShort }) ∨
    ((i = .decodeDxt1 ∨ i = .decodeDxt3) ∧ blockSizeOf i ≤ s.inlen.toNat ∧ ∃ pal tx st,
      exec i s = .next (s.putTexels pal tx st) ∧ exec i u = .next (u.putTexels pal tx st)) ∨
    (i = .decodeDxt5 ∧ 16 ≤ s.inlen.toNat ∧ ∃ pal tx st ap,
      exec i s = .next { s.putTexels pal tx st with apalW := ap }
        ∧ exec i u = .next { u.putTexels pal tx st with apalW := ap }) := by
  have hb : s.inByte = u.inByte := by funext j; simp only [State.inByte, hw]
  rcases exec_cases i s with ⟨rfl, h⟩ | ⟨o, ho, hs, h⟩ | ⟨⟨o, ho⟩, hs, h⟩ | ⟨hi, hs, h⟩ |
    ⟨rfl, hs, h⟩ | ⟨rfl, hs, h⟩ | ⟨rfl, hs, h⟩
  · exact .inl ⟨rfl, h, rfl⟩
  · exact .inr (.inl ⟨o, ho, h, exec_out (hb ▸ ho) (hl ▸ hs)⟩)
  · exact .inr (.inr (.inl ⟨⟨o, ho⟩, h, exec_out_short (hb ▸ ho) (hl ▸ hs)⟩))
  · refine .inr (.inr (.inr (.inl ⟨hi, h, ?_⟩)))
    rw [hl] at hs
    rcases hi with rfl | rfl | rfl <;> exact congrArg Host.Outcome.next (decodeBlock_short hs _)
  · refine .inr (.inr (.inr (.inr (.inl ⟨.inl rfl, hs, _, _, _, h, ?_⟩))))
    rw [hb]
    exact congrArg Host.Outcome.next (decodeBlock_full (hl ▸ hs) _)
  · refine .inr (.inr (.inr (.inr (.inl ⟨.inr rfl, hs, _, _, _, h, ?_⟩))))
    rw [hb]
    exact congrArg Host.Outcome.next (decodeBlock_full (hl ▸ hs) _)
  · refine .inr (.inr (.inr (.inr (.inr ⟨rfl, hs, _, _, _, _, h, ?_⟩))))
    rw [hb]
    exact congrArg Host.Outcome.next (decodeBlock_full (hl ▸ hs) _)

/-- No command changes CMD, INLEN or IN, nor the model's own two fields (rules R15, R17 and R18). -/
theorem exec_keeps {i : Instr} {s t : State} (h : exec i s = .next t) :
    t.cmd = s.cmd ∧ t.inlen = s.inlen ∧ t.inW = s.inW ∧ t.pending = s.pending
      ∧ t.readData = s.readData := by
  rcases exec_cases i s with ⟨rfl, h'⟩ | ⟨o, ho, hs, h'⟩ | ⟨⟨o, ho⟩, hs, h'⟩ | ⟨hi, hs, h'⟩ |
    ⟨rfl, hs, h'⟩ | ⟨rfl, hs, h'⟩ | ⟨rfl, hs, h'⟩ <;>
  · rw [h] at h'
    cases h'
    exact ⟨rfl, rfl, rfl, rfl, rfl⟩

end Sys2Proof.Laws
end

