-- ==== Sys2Proof/Laws/Claims.lean ====
section
/-! SUPPORT. The plain arithmetic of `Sys2Proof.Claims` is what the model's own functions compute: the
bytes of IN, OUT and APAL, the block's fields, the position maps, moved blocks, and the fields of a
command word. -/

namespace Sys2Proof.Laws

open Sys2Proof.Machine Sys2Proof.Claims

/-! ### Bytes and fields -/

theorem lane_eq (w : Word) (m : Nat) : lane w m = (byteAt w.toNat m).toNat := by
  rw [byteAt_toNat]
  simp only [lane, bits]
  rw [show (256 : Nat) = 2 ^ 8 from rfl, ← pow_mul]

theorem inB_eq (s : State) (i : Nat) : inB s i = (s.inByte i).toNat := lane_eq _ _

theorem outB_eq (s : State) (i : Nat) : outB s i = (s.outByte i).toNat := lane_eq _ _

theorem apalB_eq (s : State) (i : Nat) : apalB s i = (s.apalByte i).toNat := lane_eq _ _

/-- A 16-bit number of IN (rule R30). -/
theorem inU16_eq (s : State) (o : Nat) : inU16 s o = le s.inByte o 2 := by
  simp [inU16, inB_eq, le, packFields]
  omega

/-- A colour index read from its byte is the index of the 32-bit field (rule R34). -/
theorem index_eq (b : Nat → Byte) (o : Nat) {p : Nat} (h : p < 16) :
    index (fun i => (b i).toNat) o p = colorIndex (le b o 4) p := by
  have h0 := (b o).isLt
  have h1 := (b (o + 1)).isLt
  have h2 := (b (o + 2)).isLt
  have h3 := (b (o + 3)).isLt
  simp only [index, colorIndex, bits, le, packFields]
  interval_cases p <;> simp <;> omega

/-- An alpha code (rules R32 and R36). -/
theorem alphaCodeAt_eq (b : Nat → Byte) (p : Nat) :
    alphaCodeAt (fun i => (b i).toNat) p = alphaCode (alphaCodes b) p := by
  have e : 2 ^ (3 * p) = 8 ^ p := by rw [Nat.pow_mul]
  simp only [alphaCodeAt, alphaCode, alphaCodes, bits, le, packFields, e]
  simp
  congr 2
  ring

/-- The lanes of a TEX register (rule R20). -/
theorem lane_toWord (t : Texel) {m : Nat} (h : m < 4) : lane t.toWord m = (t.channel m).toNat := by
  rw [lane_eq]
  exact congrArg _ (byteAt_wordOfBytes _ h)

/-- A texel's register is its colour's CPAL value with the alpha in the top byte (rules R20, R21). -/
theorem withAlpha_toNat (c : Rgb) (a : Byte) :
    (c.withAlpha a).toWord.toNat = c.toWord.toNat + a.toNat * 2 ^ 24 := by
  simp [Texel.toWord, Rgb.toWord, wordOfBytes_toNat, packFields, Rgb.withAlpha, Texel.channel]

/-! ### Expansions -/

/-- Bit replication is this sum (rule R70). -/
theorem expand5_eq {v : Nat} (h : v < 32) : expand5 v = 8 * v + v / 4 := by
  have e : v >>> 2 < 2 ^ 3 := by rw [Nat.shiftRight_eq_div_pow]; omega
  rw [expand5, ← Nat.shiftLeft_add_eq_or_of_lt e, Nat.shiftLeft_eq, Nat.shiftRight_eq_div_pow]
  omega

theorem expand6_eq {v : Nat} (h : v < 64) : expand6 v = 4 * v + v / 16 := by
  have e : v >>> 4 < 2 ^ 2 := by rw [Nat.shiftRight_eq_div_pow]; omega
  rw [expand6, ← Nat.shiftLeft_add_eq_or_of_lt e, Nat.shiftLeft_eq, Nat.shiftRight_eq_div_pow]
  omega

/-- An expanded nibble is 17 times the nibble (rule R78). -/
theorem expandNibble_eq {n : Nat} (h : n < 16) : (expandNibble n).toNat = 17 * n := by
  rw [expandNibble, BitVec.toNat_ofNat, ← Nat.shiftLeft_add_eq_or_of_lt (i := 4) h, Nat.shiftLeft_eq]
  omega

theorem alphaNibble_eq (b : Nat → Byte) (i : Nat) :
    alphaNibble b i = (b (i / 2)).toNat / 16 ^ (i % 2) % 16 := by
  rcases Nat.mod_two_eq_zero_or_one i with h | h <;> simp [alphaNibble, bits, h]

/-- A packed byte of the quantizer (rule R68). -/
theorem quantizedByte_eq (b : Nat → Byte) {j : Nat} (h : j < 8) :
    (quantizedByte b j).toNat = (b (2 * j)).toNat / 16 + 16 * ((b (2 * j + 1)).toNat / 16) := by
  have h0 := (b (2 * j)).isLt
  have h1 := (b (2 * j + 1)).isLt
  have e : (b (2 * j)).toNat / 2 ^ 4 < 2 ^ 4 := by omega
  rw [quantizedByte, if_pos h]
  simp only [alphaToNibble, Nat.shiftRight_eq_div_pow, BitVec.toNat_ofNat,
    Nat.or_comm _ (_ <<< 4)]
  rw [← Nat.shiftLeft_add_eq_or_of_lt e, Nat.shiftLeft_eq]
  omega

/-! ### Moved blocks -/

theorem rotSrc_eq {k p : Nat} (hk : k < 4) (hp : p < 16) : rotSrc k p = mapRotate k p := by
  interval_cases k <;> interval_cases p <;> rfl

theorem flipSrc_eq {p : Nat} (hp : p < 16) : flipSrc p = mapFlipH p := by
  interval_cases p <;> rfl

/-- Permuting by the identity copies the block (rules R88 and R97). -/
theorem permuteDxt1_mapId (b : Nat → Byte) (i : Nat) : permuteDxt1 mapId b i = copyDxt1 b i := by
  simp only [permuteDxt1, copyDxt1]
  by_cases h : i < 4
  · rw [if_pos h, if_pos (by omega)]
  rw [if_neg h]
  by_cases h8 : i < 8
  · rw [if_pos h8, if_pos h8, perm2_mapId (le_lt ..), byteAt_le _ _ (by omega)]
    congr 1
    omega
  · rw [if_neg h8, if_neg h8]

theorem permuteDxt5_mapId (b : Nat → Byte) {i : Nat} (hi : i < 16) :
    permuteDxt5 mapId b i = b i := by
  simp only [permuteDxt5]
  split
  · rfl
  split
  · rw [perm3_mapId (le_lt ..), byteAt_le _ _ (by omega)]
    congr 1
    omega
  split
  · rfl
  · rw [perm2_mapId (le_lt ..), byteAt_le _ _ (by omega)]
    congr 1
    omega

/-- A permuted DXT1 block is the moved block (rule R92). -/
theorem movedDxt1_of_permute {src src' : Nat → Nat} (hs : ∀ p < 16, src' p = src p)
    (hlt : ∀ p < 16, src p < 16) {b c : Nat → Byte} (hc : ∀ m < 8, c m = permuteDxt1 src b m) :
    MovedDxt1 src' (fun i => (b i).toNat) (fun i => (c i).toNat) := by
  refine ⟨fun m hm => ?_, fun p hp => ?_⟩
  · simp only [hc m (by omega), permuteDxt1, if_pos hm]
  · rw [hs p hp, index_eq _ _ hp, index_eq _ _ (hlt p hp),
      le_congr (f := c) (g := permuteDxt1 src b) fun m hm => hc _ (by omega), le_permuteDxt1,
      colorIndex_perm2 _ _ hp]

/-- A permuted DXT5 block is the moved block (rule R92). -/
theorem movedDxt5_of_permute {src src' : Nat → Nat} (hs : ∀ p < 16, src' p = src p)
    (hlt : ∀ p < 16, src p < 16) {b c : Nat → Byte} (hc : ∀ m < 16, c m = permuteDxt5 src b m) :
    MovedDxt5 src' (fun i => (b i).toNat) (fun i => (c i).toNat) := by
  refine ⟨fun m hm => ?_, fun p hp => ?_, fun m h1 h2 => ?_, fun p hp => ?_⟩
  · simp only [hc m (by omega), permuteDxt5, if_pos hm]
  · rw [hs p hp, alphaCodeAt_eq, alphaCodeAt_eq, alphaCodes, le_congr (f := c)
      (g := permuteDxt5 src b) (o := 2) (n := 6) fun m hm => hc _ (by omega),
      le_permuteDxt5_alpha, alphaCode_perm3 _ _ hp]
    rfl
  · simp only [hc m (by omega), permuteDxt5, if_neg (show ¬ m < 2 by omega),
      if_neg (show ¬ m < 8 by omega), if_pos h2]
  · rw [hs p hp, index_eq _ _ hp, index_eq _ _ (hlt p hp),
      le_congr (f := c) (g := permuteDxt5 src b) fun m hm => hc _ (by omega),
      le_permuteDxt5_color, colorIndex_perm2 _ _ hp]

/-- Permuting twice is permuting once with the composed map (rule R89). -/
theorem permuteDxt1_permuteDxt1 (t : Nat → Nat) {u : Nat → Nat} (hu : ∀ p < 16, u p < 16)
    {b c : Nat → Byte} (hc : ∀ m < 8, c m = permuteDxt1 t b m) (m : Nat) :
    permuteDxt1 u c m = permuteDxt1 (fun p => t (u p)) b m := by
  rw [permuteDxt1_congr u hc, permuteDxt1, le_permuteDxt1, perm2_perm2 _ hu]
  by_cases h : m < 4
  · simp only [permuteDxt1, if_pos h]
  · rw [if_neg h, permuteDxt1, if_neg h]

theorem permuteDxt5_permuteDxt5 (t : Nat → Nat) {u : Nat → Nat} (hu : ∀ p < 16, u p < 16)
    {b c : Nat → Byte} (hc : ∀ m < 16, c m = permuteDxt5 t b m) {m : Nat} (hm : m < 16) :
    permuteDxt5 u c m = permuteDxt5 (fun p => t (u p)) b m := by
  rw [permuteDxt5_congr u hc hm, permuteDxt5, le_permuteDxt5_alpha, le_permuteDxt5_color,
    perm3_perm3 _ hu, perm2_perm2 _ hu]
  by_cases h2 : m < 2
  · simp only [permuteDxt5, if_pos h2]
  by_cases h8 : m < 8
  · simp only [permuteDxt5, if_neg h2, if_pos h8]
  by_cases h12 : m < 12
  · simp only [permuteDxt5, if_neg h2, if_neg h8, if_pos h12]
  · simp only [permuteDxt5, if_neg h2, if_neg h8, if_neg h12]

/-- The rotation maps compose (rule R89). -/
theorem mapRotate_mapRotate {k k' p : Nat} (hk : k < 4) (hk' : k' < 4) (hp : p < 16) :
    mapRotate k (mapRotate k' p) = mapRotate ((k + k') % 4) p := by
  have h : ∀ k < 4, ∀ k' < 4, ∀ p < 16,
      mapRotate k (mapRotate k' p) = mapRotate ((k + k') % 4) p := by decide
  exact h k hk k' hk' p hp

theorem mapFlipH_mapFlipH {p : Nat} (hp : p < 16) : mapFlipH (mapFlipH p) = mapId p := by
  have h : ∀ p < 16, mapFlipH (mapFlipH p) = mapId p := by decide
  exact h p hp

/-! ### Command words -/

theorem fields_nat (v : Word) : fieldOp v = v.toNat % 16 ∧ fieldFmt v = v.toNat / 16 % 4 ∧
    fieldK v = v.toNat / 64 % 4 ∧ fieldRsv v = v.toNat / 256 := by
  have := v.isLt
  simp only [fieldOp, fieldFmt, fieldK, fieldRsv, bits, Nat.reducePow, Nat.div_one]
  exact ⟨trivial, trivial, trivial, by omega⟩

/-- A word that decodes to a command is the command's word, and the command is well-formed
(rule R59). -/
theorem eq_encode_of_decode {w : Word} {i : Instr} (h : decode w = .ok i) :
    i.WellFormed ∧ w = encode i := by
  obtain ⟨he, hc⟩ : encodingError w = none
      ∧ commandOf (fieldOp w) (fieldFmt w) (fieldK w) = some i := by
    rcases decode_cases w with ⟨e, _, h'⟩ | ⟨j, h1, h2, h3⟩
    · rw [h] at h'; cases h'
    · rw [h] at h3; cases h3; exact ⟨h1, h2⟩
  have hw := word_toNat_of_fields w
  have hk := fieldK_lt w
  have hf := fieldFmt_lt w
  simp only [encodingError] at he
  split at he
  · cases he
  split at he
  · cases he
  split at he
  · cases he
  rename_i h1 h2 h3
  have hop : fieldOp w < 6 := by omega
  have hrsv : fieldRsv w = 0 := by omega
  rw [hrsv] at hw
  generalize fieldOp w = op at *
  generalize fieldFmt w = fmt at *
  generalize fieldK w = k at *
  suffices i.WellFormed ∧ w.toNat = (encode i).toNat from ⟨this.1, BitVec.eq_of_toNat_eq this.2⟩
  interval_cases op <;> interval_cases fmt <;> interval_cases k <;>
    simp only [commandOf, Option.some.injEq, reduceCtorEq] at hc <;>
    first | (subst hc; exact ⟨rfl, hw⟩) | (exfalso; omega)

theorem statusError_eq (e : ErrCode) : statusError e = BitVec.ofNat 32 e.code := by cases e <;> rfl

/-- The error number of an illegal word is its error's code (rules R61 and R103). -/
theorem errorOf_illegal {v : Word} {e : ErrCode} (h : encodingError v = some e) (n : Nat) :
    errorOf v.toNat n = e.code := by
  obtain ⟨h1, h2, h3, h4⟩ := fields_nat v
  have hr : v.toNat / 256 ≠ 0 ↔ 256 ≤ v.toNat := by omega
  simp only [encodingError, h1, h2, h3, h4, hr] at h
  simp only [errorOf]
  split at h
  · rename_i c; rw [if_pos c]; cases h; rfl
  · rename_i c
    rw [if_neg c]
    split at h
    · rename_i c; rw [if_pos c]; cases h; rfl
    · rename_i c
      rw [if_neg c]
      split at h
      · rename_i c; rw [if_pos c]; cases h; rfl
      · cases h

/-- The error number of a legal word: 4 for a short block of a command that is no DECODE
(rule R101). -/
theorem errorOf_legal {v : Word} {i : Instr} (h : decode v = .ok i) (n : Nat) :
    errorOf v.toNat n
      = if i ≠ .nop ∧ decodeSize i = none ∧ n < blockSizeOf i then 4 else 0 := by
  obtain ⟨hw, rfl⟩ := eq_encode_of_decode h
  cases i with
  | rotateDxt1 k =>
    have hk : k < 4 := of_decide_eq_true hw
    interval_cases k <;> simp [errorOf, encode, decodeSize, blockSizeOf]
  | rotateDxt5 k =>
    have hk : k < 4 := of_decide_eq_true hw
    interval_cases k <;> simp [errorOf, encode, decodeSize, blockSizeOf]
  | _ => simp [errorOf, encode, decodeSize, blockSizeOf]

end Sys2Proof.Laws
end

