-- ==== Sys2Proof/Laws/HostSequence.lean ====
section
/-! SUPPORT. What the parts of the host's image sequences do: loops and buffers, actions, one
command, and one block of a transform. -/

namespace Sys2Proof.Laws

open Sys2Proof.Machine

@[simp] theorem andThen_next {α β : Type} (a : α) (f : α → Host.Outcome β Fault Refusal) :
    andThen (.next a) f = f a := rfl

/-! ### Buffers -/

/-- A loop keeps what every turn of it keeps. -/
theorem upTo_keeps {α β : Type} {g : Nat → α → α} (f : α → β) :
    ∀ {n : Nat}, (∀ m < n, ∀ a, f (g m a) = f a) → ∀ a, f (upTo n g a) = f a
  | 0, _, _ => rfl
  | n + 1, h, a => (h n (by omega) _).trans (upTo_keeps f (fun m hm => h m (by omega)) a)

/-- A place that one turn of a loop sets, and no other turn changes, holds what that turn set. -/
theorem upTo_sets {α β : Type} {g : Nat → α → α} (f : α → β) (P : α → Prop) {k : Nat} {v : β}
    (hP : ∀ m a, P a → P (g m a)) (hset : ∀ a, P a → f (g k a) = v) :
    ∀ {n : Nat}, k < n → (∀ m < n, m ≠ k → ∀ a, f (g m a) = f a) → ∀ a, P a → f (upTo n g a) = v
  | 0, hk, _, _, _ => by omega
  | n + 1, hk, h, a, ha => by
    have hPn : ∀ n, P (upTo n g a) := fun n => by
      induction n with
      | zero => exact ha
      | succ n ih => exact hP n _ ih
    by_cases e : n = k
    · subst e; exact hset _ (hPn n)
    · exact (h n (by omega) e _).trans
        (upTo_sets f P hP hset (by omega) (fun m hm => h m (by omega)) a ha)

@[simp] theorem bufStore_length (buf : List Byte) (off n : Nat) (f : Nat → Byte) :
    (bufStore buf off n f).length = buf.length :=
  upTo_keeps List.length (fun _ _ _ => List.length_set) buf

theorem bufByte_set (buf : List Byte) (j : Nat) (v : Byte) (i : Nat) :
    bufByte (buf.set j v) i = if i = j ∧ i < buf.length then v else bufByte buf i := by
  by_cases h : i = j
  · subst h
    by_cases hl : i < buf.length <;> simp [bufByte, hl]
  · simp [bufByte, h, Ne.symm h]

/-- A byte of a buffer outside a store. -/
theorem bufByte_bufStore_out {buf : List Byte} {off n i : Nat} (f : Nat → Byte)
    (h : i < off ∨ off + n ≤ i) : bufByte (bufStore buf off n f) i = bufByte buf i :=
  upTo_keeps (fun b => bufByte b i)
    (fun m hm b => by simp only [bufByte_set]; exact if_neg (by omega)) buf

/-- A byte of a buffer inside a store. -/
theorem bufByte_bufStore {buf : List Byte} {off n m : Nat} (f : Nat → Byte) (hm : m < n)
    (h : off + m < buf.length) : bufByte (bufStore buf off n f) (off + m) = f m :=
  upTo_sets (fun b => bufByte b (off + m)) (fun b => off + m < b.length)
    (fun _ _ h => by simpa using h)
    (fun b hb => by simp only [bufByte_set]; exact if_pos ⟨trivial, hb⟩) hm
    (fun q _ hq b => by simp only [bufByte_set]; exact if_neg (by omega)) buf h

/-! ### Accesses of the host -/

theorem hostRead_eq (r : Reg) (s : State) :
    hostRead r s = .next ({ s with readData := some (s.readReg r) }, s.readReg r) := by
  simp [hostRead, perform_rd]

theorem hostWrite_eq (r : Reg) (h : r ≠ .cmd) (v : Word) (s : State) :
    hostWrite r v s = .next (s.writeReg v r) := perform_wr 0 r h v s

/-! ### Actions -/

theorem andThen_assoc {α β γ : Type} (o : Host.Outcome α Fault Refusal)
    (f : α → Host.Outcome β Fault Refusal) (g : β → Host.Outcome γ Fault Refusal) :
    andThen (andThen o f) g = andThen o fun a => andThen (f a) g := by cases o <;> rfl

@[simp] theorem runActs_nil (p : State × List Byte) : runActs [] p = .next p := rfl

@[simp] theorem runActs_cons (a : HostAct) (rest : List HostAct) (p : State × List Byte) :
    runActs (a :: rest) p = andThen (a.run p) (runActs rest) := rfl

theorem runActs_append (xs ys : List HostAct) (p : State × List Byte) :
    runActs (xs ++ ys) p = andThen (runActs xs p) (runActs ys) := by
  induction xs generalizing p with
  | nil => rfl
  | cons a xs ih =>
    rw [List.cons_append, runActs_cons, runActs_cons, andThen_assoc]
    exact congrArg (andThen (a.run p)) (funext ih)

theorem run_write {r : Reg} (h : r ≠ .cmd) (v : Word) (p : State × List Byte) :
    (HostAct.write r v).run p = .next (p.1.writeReg v r, p.2) := by
  rw [HostAct.run, hostWrite_eq r h, andThen_next]

theorem run_write_cmd {v : Word} {s t : State} (h : runCommand v s = .next t) (out : List Byte) :
    (HostAct.write .cmd v).run (s, out) = .next (t, out) := by
  rw [HostAct.run, hostWrite, perform_wr_cmd, h, andThen_next]

theorem run_check {s : State} (h : statusErr s.status = 0) (out : List Byte) :
    HostAct.check.run (s, out) = .next ({ s with readData := some s.status }, out) := by
  rw [HostAct.run, hostRead_eq, andThen_next]
  exact if_neg (by simpa [State.readReg] using h)

/-- A check of an error ends the sequence (rule R53). -/
theorem run_check_error {s : State} (h : statusErr s.status ≠ 0) (out : List Byte) :
    HostAct.check.run (s, out) = .fault .unitError := by
  rw [HostAct.run, hostRead_eq, andThen_next]
  exact if_pos (by simpa [State.readReg] using h)

theorem run_copy (r : Reg) (off n : Nat) (p : State × List Byte) :
    (HostAct.copy r off n).run p = .next ({ p.1 with readData := some (p.1.readReg r) },
      bufStore p.2 off n (byteAt (p.1.readReg r).toNat)) := by
  rw [HostAct.run, hostRead_eq, andThen_next]

theorem readReg_readData (s : State) (x : Option Word) (r : Reg) :
    ({ s with readData := x } : State).readReg r = s.readReg r := by cases r <;> rfl

/-- Loading a block's bytes changes IN alone, and IN then holds them (rule R18). -/
theorem runActs_load (b : Nat → Byte) (s : State) (out : List Byte) : ∀ n ≤ 4, ∃ v : Vector Word 4,
    runActs ((List.range n).map fun j =>
        .write (.inW (Fin.ofNat 4 j)) (wordOfBytes fun m => b (4 * j + m))) (s, out)
      = .next ({ s with inW := v }, out)
      ∧ ∀ i < 16, byteOfWords v i = if i < 4 * n then b i else s.inByte i
  | 0, _ => ⟨s.inW, rfl, fun i _ => by simp [State.inByte]⟩
  | n + 1, hn => by
    obtain ⟨v, hv, hb⟩ := runActs_load b s out n (by omega)
    have hf : (Fin.ofNat 4 n).val = n := Nat.mod_eq_of_lt (by omega)
    refine ⟨v.set n (wordOfBytes fun m => b (4 * n + m)) (by omega), ?_, fun i hi => ?_⟩
    · rw [List.range_succ, List.map_append, runActs_append, hv, andThen_next, List.map_singleton,
        runActs_cons, run_write (by simp), andThen_next, runActs_nil]
      simp only [State.writeReg]
      congr 3
      exact congrArg (fun j : Fin 4 => v.set j (wordOfBytes fun m => b (4 * n + m)))
        (Fin.ext hf : Fin.ofNat 4 n = ⟨n, by omega⟩)
    · rw [byteOfWords_set _ _ (by omega)]
      by_cases h : i / 4 = n
      · have h1 : i < 4 * (n + 1) := by omega
        have h2 : 4 * n + i % 4 = i := by omega
        rw [if_pos h, if_pos h1, byteAt_wordOfBytes _ (Nat.mod_lt _ (by omega)), h2]
      · rw [if_neg h, hb i hi]
        by_cases h1 : i < 4 * n
        · rw [if_pos h1, if_pos (by omega)]
        · rw [if_neg h1, if_neg (by omega)]

theorem clampInlen_ofNat {len : Nat} (h : len ≤ 16) :
    clampInlen (BitVec.ofNat 32 len) = BitVec.ofNat 32 len := by
  apply BitVec.eq_of_toNat_eq
  simp only [clampInlen_toNat, BitVec.toNat_ofNat]
  omega

/-- One command on a block: IN, INLEN and CMD are written, the command runs, STATUS is read
(rules R48 to R53 and R116). -/
theorem runActs_command {b : Nat → Byte} {size len : Nat} {i : Instr} (s : State) (out : List Byte)
    (hsize : size ≤ 16) (h4 : size % 4 = 0) (hlen : len ≤ 16) (hd : decode (encode i) = .ok i) :
    ∃ v : Vector Word 4, (∀ m < size, byteOfWords v m = b m) ∧
      ∀ t, exec i { s with inW := v, inlen := BitVec.ofNat 32 len, cmd := encode i } = .next t →
        statusErr t.status = 0 →
        runActs (commandActs b size len i) (s, out)
          = .next ({ t with readData := some t.status }, out) := by
  obtain ⟨v, hv, hb⟩ := runActs_load b s out (size / 4) (by omega)
  refine ⟨v, fun m hm => (hb m (by omega)).trans (if_pos (by omega)), fun t ht herr => ?_⟩
  have hcmd : runCommand (encode i) { s with inW := v, inlen := BitVec.ofNat 32 len } = .next t := by
    rw [runCommand, hd]
    exact ht
  rw [commandActs, runActs_append, hv, andThen_next, runActs_cons, run_write (by simp),
    andThen_next]
  simp only [State.writeReg, clampInlen_ofNat hlen]
  rw [runActs_cons, run_write_cmd hcmd, andThen_next, runActs_cons, run_check herr, andThen_next,
    runActs_nil]

theorem bufStore_congr (buf : List Byte) (off : Nat) {n : Nat} {f g : Nat → Byte}
    (h : ∀ m < n, f m = g m) : bufStore buf off n f = bufStore buf off n g := by
  induction n with
  | zero => rfl
  | succ n ih =>
    have e := ih fun m hm => h m (by omega)
    simp only [bufStore, upTo] at e ⊢
    rw [e, h n (by omega)]

/-- A store in two parts. -/
theorem bufStore_add (buf : List Byte) (off a : Nat) (f : Nat → Byte) : ∀ b,
    bufStore buf off (a + b) f = bufStore (bufStore buf off a f) (off + a) b fun m => f (a + m)
  | 0 => rfl
  | b + 1 => by
    have e := bufStore_add buf off a f b
    show (bufStore buf off (a + b) f).set (off + (a + b)) (f (a + b)) = _
    rw [e, ← Nat.add_assoc]
    rfl

theorem outByte_readReg {s : State} {j m : Nat} (hj : j < 4) (hm : m < 4) :
    byteAt (s.readReg (.outW (Fin.ofNat 4 j))).toNat m = s.outByte (4 * j + m) := by
  have h1 : (4 * j + m) / 4 = j := by omega
  have h2 : (4 * j + m) % 4 = m := by omega
  simp [State.outByte, byteOfWords, State.readReg, h1, h2, hj, Nat.mod_eq_of_lt hj]

/-- Copying OUT stores its bytes and changes no register (rules R19 and R39). -/
theorem runActs_copyOut (off : Nat) (s : State) (out : List Byte) : ∀ n ≤ 4, ∃ x,
    runActs ((List.range n).map fun j => .copy (.outW (Fin.ofNat 4 j)) (off + 4 * j) 4) (s, out)
      = .next ({ s with readData := x }, bufStore out off (4 * n) s.outByte)
  | 0, _ => ⟨s.readData, rfl⟩
  | n + 1, hn => by
    obtain ⟨x, hx⟩ := runActs_copyOut off s out n (by omega)
    refine ⟨some (s.readReg (.outW (Fin.ofNat 4 n))), ?_⟩
    rw [List.range_succ, List.map_append, runActs_append, hx, andThen_next, List.map_singleton,
      runActs_cons, run_copy, andThen_next, runActs_nil, readReg_readData, Nat.mul_succ, bufStore_add]
    congr 2
    exact bufStore_congr _ _ fun m hm => outByte_readReg (by omega) hm

/-! ### One block of a transform -/

/-- The OUT bytes of a command that takes a block of `blockSizeOf i` bytes depend on those alone. -/
theorem outOf_congr {i : Instr} {f g : Nat → Byte} {out : Nat → Byte}
    (h : ∀ m < blockSizeOf i, f m = g m) (ho : outOf g i = some out) :
    ∃ out', outOf f i = some out' ∧ ∀ m < blockSizeOf i, out' m = out m := by
  cases i <;> simp only [outOf, reduceCtorEq, Option.some.injEq] at ho <;> subst ho <;>
    refine ⟨_, rfl, fun m hm => ?_⟩ <;> simp only [blockSizeOf] at h hm
  · simp only [quantizedByte]
    split
    · rw [h _ (by omega), h _ (by omega)]
    · rfl
  · exact permuteDxt1_congr _ h m
  · exact permuteDxt5_congr _ h hm
  · exact permuteDxt1_congr _ h m
  · exact permuteDxt5_congr _ h hm
  · simp only [copyDxt1, if_pos hm, h m hm]
  · exact h m hm
  · exact h m hm

theorem blockSizeOf_le (i : Instr) : blockSizeOf i ≤ 16 ∧ blockSizeOf i % 4 = 0 := by
  cases i <;> simp [blockSizeOf]

/-- A command, and OUT copied after it. -/
theorem runActs_then_copyOut {acts : List HostAct} {p : State × List Byte} {u : State} {size : Nat}
    {f : Nat → Byte} (hrun : runActs acts p = .next (u, p.2)) (hsize : size ≤ 16)
    (h4 : size % 4 = 0) (hf : ∀ m < size, u.outByte m = f m) (off : Nat) :
    ∃ t, runActs (acts ++ copyOutActs off size) p = .next (t, bufStore p.2 off size f) := by
  obtain ⟨x, hx⟩ := runActs_copyOut off u p.2 (size / 4) (by omega)
  refine ⟨{ u with readData := x }, ?_⟩
  rw [runActs_append, hrun, andThen_next, copyOutActs, hx, show 4 * (size / 4) = size by omega,
    bufStore_congr p.2 off hf]

/-- One block of a transform: the host's buffer gets the command's OUT bytes of the block
(rules R50 to R52), and no fault occurs. -/
theorem runActs_transform {data : List Byte} {i : Instr} {out : Nat → Byte} (src dst : Nat)
    (hout : outOf (fun m => bufByte data (src * blockSizeOf i + m)) i = some out)
    (hd : decode (encode i) = .ok i) (p : State × List Byte) :
    ∃ t, runActs (transformActs data (blockSizeOf i) i src dst) p
      = .next (t, bufStore p.2 (dst * blockSizeOf i) (blockSizeOf i) out) := by
  have hsize := blockSizeOf_le i
  obtain ⟨v, hv, hrun⟩ := runActs_command (b := fun m => bufByte data (src * blockSizeOf i + m)) p.1
    p.2 hsize.1 hsize.2 hsize.1 hd
  obtain ⟨out', ho', hsame⟩ := outOf_congr (f := byteOfWords v) hv hout
  have hex := exec_out (i := i)
    (s := { p.1 with inW := v, inlen := BitVec.ofNat 32 (blockSizeOf i), cmd := encode i }) ho'
    (by simp only [BitVec.toNat_ofNat]; omega)
  exact runActs_then_copyOut (hrun _ hex (by rw [putOut_status]; decide)) hsize.1 hsize.2
    (fun m hm => (byteOfWords_wordsOfBytes (n := 4) out' (by omega)).trans (hsame m hm)) _

/-! ### Blocks -/

theorem runBlocks_append (xs ys : List (List HostAct)) (p : State × List Byte) :
    runBlocks (xs ++ ys) p = andThen (runBlocks xs p) (runBlocks ys) := by
  induction xs generalizing p with
  | nil => rfl
  | cons a xs ih =>
    rw [List.cons_append, runBlocks, runBlocks, andThen_assoc]
    exact congrArg (andThen (runActs a p)) (funext ih)

/-- The blocks of a sequence, each of which changes the buffer as `g` says. -/
theorem Sequence_run_over {acts : Nat → List HostAct} {g : Nat → List Byte → List Byte} {n : Nat}
    (h : ∀ k < n, ∀ p, ∃ t, runActs (acts k) p = .next (t, g k p.2)) (out : List Byte) (s : State) :
    ∃ t, (Sequence.over n acts out).run s = .next (t, upTo n g out) := by
  induction n with
  | zero => exact ⟨s, rfl⟩
  | succ n ih =>
    obtain ⟨t, ht⟩ := ih fun k hk => h k (by omega)
    obtain ⟨u, hu⟩ := h n (by omega) (t, upTo n g out)
    refine ⟨u, ?_⟩
    simp only [Sequence.run, Sequence.over] at ht ⊢
    rw [List.range_succ, List.map_append, runBlocks_append, ht, andThen_next, List.map_singleton,
      runBlocks, hu, andThen_next]
    rfl

/-- The blocks of a buffer after each input block was stored at its own output block. -/
theorem bufByte_blocks {size n k m : Nat} {dst : Nat → Nat} {f : Nat → Nat → Byte} {buf : List Byte}
    (hinj : ∀ a < n, ∀ b < n, dst a = dst b → a = b) (hk : k < n) (hm : m < size)
    (hlen : dst k * size + m < buf.length) :
    bufByte (upTo n (fun j b => bufStore b (dst j * size) size (f j)) buf) (dst k * size + m)
      = f k m := by
  refine upTo_sets (fun b => bufByte b (dst k * size + m))
    (fun b => dst k * size + m < b.length) (fun _ _ h => by simpa using h)
    (fun b hb => bufByte_bufStore _ hm hb) hk (fun j hj hjk b => ?_) buf hlen
  refine bufByte_bufStore_out _ ?_
  have hne : dst j ≠ dst k := fun e => hjk (hinj j hj k hk e)
  rcases Nat.lt_or_gt_of_ne hne with h | h
  · right
    have := Nat.mul_le_mul_right size (Nat.succ_le_of_lt h)
    rw [Nat.succ_mul] at this
    omega
  · left
    have := Nat.mul_le_mul_right size (Nat.succ_le_of_lt h)
    rw [Nat.succ_mul] at this
    omega

end Sys2Proof.Laws
end

