-- ==== Sys2Proof/Laws/DecodeImage.lean ====
section
/-! SUPPORT. What one block of an image decode stores in the image (spec 20_memory.md rule R48). -/

namespace Sys2Proof.Laws

open Sys2Proof.Machine

/-- The texel that a decoder gives for texel `i` of a whole block (rules R85 to R87). -/
def decodedTexel : Fmt → (Nat → Byte) → Nat → Texel
  | .dxt1, b, i => texelDxt1 b i
  | .dxt3, b, i => texelDxt3 b i
  | .dxt5, b, i => texelDxt5 b i

theorem colorBlock_congr {f g : Nat → Byte} {o : Nat} (h : ∀ m < 8, f (o + m) = g (o + m)) :
    colorBlock f o = colorBlock g o := by
  have e1 : le f o 2 = le g o 2 := le_congr fun m hm => h m (by omega)
  have e2 : le f (o + 2) 2 = le g (o + 2) 2 := le_congr fun m hm => by
    rw [Nat.add_assoc]; exact h _ (by omega)
  have e3 : le f (o + 4) 4 = le g (o + 4) 4 := le_congr fun m hm => by
    rw [Nat.add_assoc]; exact h _ (by omega)
  simp only [colorBlock, e1, e2, e3]

theorem paletteDxt1_congr {f g : Nat → Byte} (h : ∀ m < 8, f m = g m) :
    paletteDxt1 f = paletteDxt1 g := by
  simp only [paletteDxt1, colorBlock_congr (f := f) (g := g) (o := 0) (by simpa using h)]

theorem paletteFour_congr {f g : Nat → Byte} (h : ∀ m < 16, f m = g m) :
    paletteFour f = paletteFour g := by
  simp only [paletteFour, colorBlock_congr (f := f) (g := g) (o := 8) fun m hm => h _ (by omega)]

theorem alphaEntry_congr {f g : Nat → Byte} (h : ∀ m < 16, f m = g m) :
    alphaEntry f = alphaEntry g := by
  funext code
  simp only [alphaEntry, h 0 (by omega), h 1 (by omega)]

/-- A decoded texel depends on the block's bytes alone (rule R84). -/
theorem decodedTexel_congr (fmt : Fmt) {f g : Nat → Byte} (h : ∀ m < fmt.blockSize, f m = g m)
    {i : Nat} (hi : i < 16) : decodedTexel fmt f i = decodedTexel fmt g i := by
  cases fmt with
  | dxt1 =>
    simp only [decodedTexel, texelDxt1, paletteDxt1_congr h,
      colorBlock_congr (f := f) (g := g) (o := 0) fun m hm => h _ (by simp only [Fmt.blockSize]; omega)]
  | dxt3 =>
    simp only [decodedTexel, texelDxt3, paletteFour_congr h, alphaNibble,
      colorBlock_congr (f := f) (g := g) (o := 8) fun m hm => h _ (by simp only [Fmt.blockSize]; omega),
      h (i / 2) (by simp only [Fmt.blockSize]; omega)]
  | dxt5 =>
    simp only [decodedTexel, texelDxt5, paletteFour_congr h, alphaEntry_congr h, alphaCodes,
      colorBlock_congr (f := f) (g := g) (o := 8) fun m hm => h _ (by simp only [Fmt.blockSize]; omega),
      le_congr (f := f) (g := g) (o := 2) (n := 6) fun m hm => h _ (by simp only [Fmt.blockSize]; omega)]

/-- The texel that an image decode shows for texel `i` of block `n`: the block decoded if `data`
holds all of it, otherwise zero (rule R84). -/
def imageTexel (fmt : Fmt) (data : List Byte) (n i : Nat) : Texel :=
  if n * fmt.blockSize + fmt.blockSize ≤ data.length then
    decodedTexel fmt (fun m => bufByte data (n * fmt.blockSize + m)) i
  else ⟨0, 0, 0, 0⟩

/-- A decode of a whole block writes every TEX register and no error (rules R85 to R87). -/
theorem exec_decode_full (fmt : Fmt) {s : State} (h : fmt.blockSize ≤ s.inlen.toNat) :
    ∃ t, exec (decodeCommand fmt) s = .next t ∧ statusErr t.status = 0 ∧
      ∀ i : Fin 16, t.tex[i] = (decodedTexel fmt s.inByte i).toWord := by
  cases fmt
  · exact ⟨_, congrArg Host.Outcome.next (decodeBlock_full h _), statusErr_threeChannel,
      fun i => Vector.getElem_ofFn i.isLt⟩
  · exact ⟨_, congrArg Host.Outcome.next (decodeBlock_full h _), statusErr_done,
      fun i => Vector.getElem_ofFn i.isLt⟩
  · exact ⟨_, congrArg Host.Outcome.next (decodeBlock_full h _), statusErr_done,
      fun i => Vector.getElem_ofFn i.isLt⟩

/-- A decode of a short block writes 0 to every TEX register, and no error (rule R84). -/
theorem exec_decode_short (fmt : Fmt) {s : State} (h : s.inlen.toNat < fmt.blockSize) :
    exec (decodeCommand fmt) s
      = .next { s with tex := Vector.replicate 16 0, status := statusShort } := by
  cases fmt <;> exact congrArg Host.Outcome.next (decodeBlock_short h _)

/-- Store texel i of block (bx, by) in the image, unless it lies outside (rule R48). -/
def storeTexel (ws : List Word) (w h ch bx yb i : Nat) (img : List Byte) : List Byte :=
  if 4 * bx + i % 4 < w ∧ 4 * yb + i / 4 < h then
    bufStore img (pixelAt w ch (4 * bx + i % 4) (4 * yb + i / 4)) ch
      (byteAt (ws.getD i 0).toNat)
  else img

/-- The words that the host reads from TEX for block `n`. -/
def imageTexels (fmt : Fmt) (data : List Byte) (n : Nat) : List Word :=
  (List.range 16).map fun i => (imageTexel fmt data n i).toWord

theorem imageTexels_getD (fmt : Fmt) (data : List Byte) (n : Nat) {i : Nat} (h : i < 16) :
    (imageTexels fmt data n).getD i 0 = (imageTexel fmt data n i).toWord := by
  simp [imageTexels, h]

/-- A decode command on a unit that holds block `n` of `data`, as much of it as there is. -/
theorem exec_imageTexel {fmt : Fmt} {data : List Byte} {n : Nat} {u : State}
    (hlen : u.inlen.toNat = min (data.length - n * fmt.blockSize) fmt.blockSize)
    (hin : ∀ m < fmt.blockSize, n * fmt.blockSize + m < data.length →
      u.inByte m = bufByte data (n * fmt.blockSize + m)) :
    ∃ t, exec (decodeCommand fmt) u = .next t ∧ statusErr t.status = 0 ∧
      ∀ i : Fin 16, t.tex[i] = (imageTexel fmt data n i).toWord := by
  have hpos : 0 < fmt.blockSize := by cases fmt <;> decide
  by_cases hfull : n * fmt.blockSize + fmt.blockSize ≤ data.length
  · obtain ⟨t, ht, he, htex⟩ := exec_decode_full fmt (s := u) (by omega)
    refine ⟨t, ht, he, fun i => (htex i).trans ?_⟩
    rw [imageTexel, if_pos hfull]
    exact congrArg Texel.toWord
      (decodedTexel_congr fmt (fun m hm => hin m hm (by omega)) i.isLt)
  · refine ⟨_, exec_decode_short fmt (by omega), statusErr_short, fun i => ?_⟩
    rw [imageTexel, if_neg hfull]
    exact (Vector.getElem_replicate i.isLt).trans (by decide)

/-- Copying TEX after a decode stores the texels in the image. -/
theorem runActs_copyTexels {s : State} {ws : List Word}
    (hs : ∀ i < 16, s.readReg (.tex (Fin.ofNat 16 i)) = ws.getD i 0) (w h ch bx yb : Nat)
    (img : List Byte) : ∀ n ≤ 16, ∃ x,
    runActs ((List.range n).flatMap (copyTexelActs w h ch bx yb)) (s, img)
      = .next ({ s with readData := x }, upTo n (storeTexel ws w h ch bx yb) img)
  | 0, _ => ⟨s.readData, rfl⟩
  | n + 1, hn => by
    obtain ⟨x, hx⟩ := runActs_copyTexels hs w h ch bx yb img n (by omega)
    rw [List.range_succ, List.flatMap_append, runActs_append, hx, andThen_next,
      List.flatMap_singleton, upTo]
    by_cases hin : 4 * bx + n % 4 < w ∧ 4 * yb + n / 4 < h
    · refine ⟨some (ws.getD n 0), ?_⟩
      simp only [copyTexelActs, if_pos hin, storeTexel, runActs_cons, run_copy, andThen_next,
        runActs_nil, readReg_readData, hs n (by omega)]
    · refine ⟨x, ?_⟩
      simp only [copyTexelActs, if_neg hin, storeTexel, runActs_nil]

/-- One block of an image decode stores the block's texels, whatever `fill` is (rule R48). -/
theorem runActs_decode (fmt : Fmt) (fill : Nat → Byte) (data : List Byte) (w h n : Nat)
    (p : State × List Byte) : ∃ t, runActs (decodeActs fmt fill data w h n) p
      = .next (t, upTo 16 (storeTexel (imageTexels fmt data n) w h (decodedChannels fmt).count
          (n % blocksAlong w) (n / blocksAlong w)) p.2) := by
  have hsize : fmt.blockSize ≤ 16 ∧ fmt.blockSize % 4 = 0 := by cases fmt <;> decide
  have hd : decode (encode (decodeCommand fmt)) = .ok (decodeCommand fmt) := by cases fmt <;> rfl
  obtain ⟨v, hv, hrun⟩ := runActs_command
    (b := fun m => if n * fmt.blockSize + m < data.length then
      bufByte data (n * fmt.blockSize + m) else fill (n * fmt.blockSize + m))
    (len := min (data.length - n * fmt.blockSize) fmt.blockSize) p.1 p.2
    hsize.1 hsize.2 (by omega) hd
  generalize hu : ({ p.1 with
    inW := v
    inlen := BitVec.ofNat 32 (min (data.length - n * fmt.blockSize) fmt.blockSize)
    cmd := encode (decodeCommand fmt) } : State) = u at hrun
  have hin : u.inW = v := by rw [← hu]
  have hlen : u.inlen.toNat = min (data.length - n * fmt.blockSize) fmt.blockSize := by
    rw [← hu]; simp only [BitVec.toNat_ofNat]; omega
  obtain ⟨t, ht, he, htex⟩ := exec_imageTexel (u := u) hlen fun m hm h => by
    rw [State.inByte, hin, hv m hm, if_pos h]
  have hws : ∀ i < 16, ({ t with readData := some t.status } : State).readReg
      (.tex (Fin.ofNat 16 i)) = (imageTexels fmt data n).getD i 0 := fun i hi => by
    rw [imageTexels_getD _ _ _ hi, ← htex ⟨i, hi⟩]
    simp [State.readReg, Nat.mod_eq_of_lt hi]
  obtain ⟨x, hx⟩ := runActs_copyTexels hws w h (decodedChannels fmt).count (n % blocksAlong w)
    (n / blocksAlong w) p.2 16 (Nat.le_refl _)
  exact ⟨_, by simp only [decodeActs]; rw [runActs_append, hrun t ht he, andThen_next, hx]⟩

/-! ### The places of pixels -/

@[simp] theorem storeTexel_length (ws : List Word) (w h ch bx yb i : Nat) (img : List Byte) :
    (storeTexel ws w h ch bx yb i img).length = img.length := by
  simp only [storeTexel]
  split <;> simp

/-- Different pixels of an image do not share a byte (rule R45). -/
theorem pixelAt_apart {w ch X Y X' Y' : Nat} (hX : X < w) (hX' : X' < w) (h : X ≠ X' ∨ Y ≠ Y') :
    pixelAt w ch X Y + ch ≤ pixelAt w ch X' Y' ∨ pixelAt w ch X' Y' + ch ≤ pixelAt w ch X Y := by
  have key : ∀ {a b : Nat}, a < b → a * ch + ch ≤ b * ch := fun {a b} hab => by
    rw [← Nat.succ_mul]; exact Nat.mul_le_mul_right ch hab
  have hne : Y * w + X ≠ Y' * w + X' := by
    intro e
    rcases Nat.lt_trichotomy Y Y' with hY | hY | hY
    · have := Nat.mul_le_mul_right w (Nat.succ_le_of_lt hY)
      rw [Nat.succ_mul] at this; omega
    · subst hY; omega
    · have := Nat.mul_le_mul_right w (Nat.succ_le_of_lt hY)
      rw [Nat.succ_mul] at this; omega
  rcases Nat.lt_or_gt_of_ne hne with hlt | hlt
  · exact .inl (key hlt)
  · exact .inr (key hlt)

theorem pixelAt_lt {w h ch X Y c : Nat} (hX : X < w) (hY : Y < h) (hc : c < ch) :
    pixelAt w ch X Y + c < w * h * ch := by
  have h1 : Y * w + X + 1 ≤ w * h := by
    have := Nat.mul_le_mul_right w (Nat.succ_le_of_lt hY)
    rw [Nat.succ_mul] at this
    rw [Nat.mul_comm w h]; omega
  have h2 := Nat.mul_le_mul_right ch h1
  rw [Nat.succ_mul] at h2
  simp only [pixelAt]; omega

/-- Storing a texel leaves every other pixel (rule R48). -/
theorem storeTexel_other {ws : List Word} {w h ch bx yb i X Y c : Nat} {img : List Byte} (hX : X < w)
    (hc : c < ch) (hne : 4 * bx + i % 4 ≠ X ∨ 4 * yb + i / 4 ≠ Y) :
    bufByte (storeTexel ws w h ch bx yb i img) (pixelAt w ch X Y + c)
      = bufByte img (pixelAt w ch X Y + c) := by
  simp only [storeTexel]
  split
  · rename_i hin
    refine bufByte_bufStore_out _ ?_
    have := pixelAt_apart (ch := ch) hin.1 hX hne
    omega
  · rfl

/-- Storing a texel sets its pixel, channel by channel (rules R20, R45 and R48). -/
theorem storeTexel_same {ws : List Word} {w h ch bx yb i c : Nat} {img : List Byte}
    (hX : 4 * bx + i % 4 < w) (hY : 4 * yb + i / 4 < h) (hc : c < ch)
    (hlen : img.length = w * h * ch) :
    bufByte (storeTexel ws w h ch bx yb i img)
        (pixelAt w ch (4 * bx + i % 4) (4 * yb + i / 4) + c)
      = byteAt (ws.getD i 0).toNat c := by
  simp only [storeTexel, if_pos (And.intro hX hY)]
  exact bufByte_bufStore _ hc (by rw [hlen]; exact pixelAt_lt hX hY hc)

end Sys2Proof.Laws
end

