-- ==== Sys2Proof/Laws/Images.lean ====
section
/-! SUPPORT. What the host's image sequences leave in the output buffer, as one loop over the blocks,
and where the blocks go (spec 20_memory.md rules R46 to R52). -/

namespace Sys2Proof.Laws

open Sys2Proof.Machine Sys2Proof.Claims

/-! ### Block numbers of a grid -/

/-- Column and row of a block number (rule R46). -/
theorem grid_split {nx bx yb : Nat} (h : bx < nx) :
    (yb * nx + bx) % nx = bx ∧ (yb * nx + bx) / nx = yb := by
  rw [Nat.mul_comm]
  exact ⟨by rw [Nat.mul_add_mod]; exact Nat.mod_eq_of_lt h,
    by rw [Nat.mul_add_div (by omega), Nat.div_eq_of_lt h, Nat.add_zero]⟩

theorem grid_lt {nx ny bx yb : Nat} (h : bx < nx) (h' : yb < ny) : yb * nx + bx < nx * ny := by
  have := Nat.mul_le_mul_right nx (Nat.succ_le_of_lt h')
  rw [Nat.succ_mul] at this
  rw [Nat.mul_comm nx]
  omega

theorem grid_inj {nx a b c d : Nat} (ha : a < nx) (hb : b < nx) (h : c * nx + a = d * nx + b) :
    a = b ∧ c = d := by
  have h1 := grid_split (yb := c) ha
  have h2 := grid_split (yb := d) hb
  rw [h] at h1
  exact ⟨h1.1.symm.trans h2.1, h1.2.symm.trans h2.2⟩

theorem grid_unsplit {nx ny n : Nat} (h : n < nx * ny) :
    n % nx < nx ∧ n / nx < ny ∧ n = n / nx * nx + n % nx := by
  have hx : 0 < nx := by
    rcases Nat.eq_zero_or_pos nx with rfl | hx
    · simp at h
    · exact hx
  refine ⟨Nat.mod_lt _ hx, by rwa [Nat.div_lt_iff_lt_mul hx, Nat.mul_comm], ?_⟩
  rw [Nat.mul_comm]
  exact (Nat.div_add_mod n nx).symm

/-- A byte of a block lies in the buffer of the whole grid. -/
theorem block_lt {a n bs m : Nat} (h : a < n) (hm : m < bs) : a * bs + m < n * bs := by
  have := Nat.mul_le_mul_right bs (Nat.succ_le_of_lt h)
  rw [Nat.succ_mul] at this
  omega

theorem block_le {a n bs : Nat} (h : a < n) : a * bs + bs ≤ n * bs := by
  have := Nat.mul_le_mul_right bs (Nat.succ_le_of_lt h)
  rw [Nat.succ_mul] at this
  omega

/-- A rotation moves different blocks to different places of the output grid (rule R50). -/
theorem rotatedBlock_inj {k nx ny : Nat} (hk : k < 4) : ∀ a < nx * ny, ∀ b < nx * ny,
    rotatedBlock k nx ny a = rotatedBlock k nx ny b → a = b := by
  intro a ha b hb h
  obtain ⟨a1, a2, a3⟩ := grid_unsplit ha
  obtain ⟨b1, b2, b3⟩ := grid_unsplit hb
  generalize a % nx = x at *
  generalize a / nx = y at *
  generalize b % nx = x' at *
  generalize b / nx = y' at *
  subst a3 b3
  simp only [rotatedBlock, grid_split a1, grid_split b1] at h
  interval_cases k <;> simp [remap, rotatedColumns] at h <;>
    obtain ⟨p, q⟩ := grid_inj (by omega) (by omega) h
  · rw [p, q]
  · rw [q, show y = y' by omega]
  · rw [show x = x' by omega, show y = y' by omega]
  · rw [p, show x = x' by omega]

theorem rotatedBlock_lt {k nx ny : Nat} (hk : k < 4) :
    ∀ a < nx * ny, rotatedBlock k nx ny a < nx * ny := by
  intro a ha
  obtain ⟨a1, a2, -⟩ := grid_unsplit ha
  simp only [rotatedBlock]
  generalize a / nx = y at *
  interval_cases k <;> simp [remap, rotatedColumns]
  · exact grid_lt a1 a2
  · rw [Nat.mul_comm nx]
    exact grid_lt (by omega) (by omega)
  · exact grid_lt (by omega) (by omega)
  · rw [Nat.mul_comm nx]
    exact grid_lt (by omega) (by omega)

/-- Two rotations move a block as their sum does (rules R50 and R89). -/
theorem rotatedBlock_rotatedBlock {k k' nx ny n : Nat} (hk : k < 4) (hk' : k' < 4)
    (hn : n < nx * ny) :
    rotatedBlock k' (if k % 2 = 0 then nx else ny) (if k % 2 = 0 then ny else nx)
      (rotatedBlock k nx ny n) = rotatedBlock ((k + k') % 4) nx ny n := by
  obtain ⟨a1, a2, a3⟩ := grid_unsplit hn
  generalize n % nx = x at *
  generalize n / nx = y at *
  subst a3
  obtain ⟨e1, e2⟩ := grid_split (yb := y) a1
  have unfold1 : ∀ k nx ny m, rotatedBlock k nx ny m = (remap k nx ny (m % nx) (m / nx)).2
      * rotatedColumns k nx ny + (remap k nx ny (m % nx) (m / nx)).1 := fun _ _ _ _ => rfl
  have e3 : rotatedBlock k nx ny (y * nx + x)
      = (remap k nx ny x y).2 * rotatedColumns k nx ny + (remap k nx ny x y).1 := by
    rw [unfold1, e1, e2]
  have hlt : (remap k nx ny x y).1 < rotatedColumns k nx ny := by
    interval_cases k <;> simp [remap, rotatedColumns] <;> omega
  have hcol : (if k % 2 = 0 then nx else ny) = rotatedColumns k nx ny := by
    interval_cases k <;> simp [rotatedColumns]
  rw [hcol, e3, unfold1, (grid_split hlt).1, (grid_split hlt).2, unfold1, e1, e2]
  interval_cases k <;> interval_cases k' <;> simp [remap, rotatedColumns]
  all_goals first | rfl | (congr 2 <;> omega)

/-- A vertical flip moves different block rows to different block rows (rule R52). -/
theorem flippedBlock_inj {nx ny : Nat} : ∀ a < nx * ny, ∀ b < nx * ny,
    flippedBlock nx ny a = flippedBlock nx ny b → a = b := by
  intro a ha b hb h
  obtain ⟨a1, a2, a3⟩ := grid_unsplit ha
  obtain ⟨b1, b2, b3⟩ := grid_unsplit hb
  obtain ⟨p, q⟩ := grid_inj a1 b1 h
  rw [a3, b3, p, show a / nx = b / nx by omega]

theorem flippedBlock_lt {nx ny : Nat} : ∀ a < nx * ny, flippedBlock nx ny a < nx * ny := by
  intro a ha
  obtain ⟨a1, a2, -⟩ := grid_unsplit ha
  simp only [flippedBlock]
  generalize a / nx = y at *
  exact grid_lt a1 (by omega)

/-! ### The sequences -/

/-- The transform command of a grid format, as a function on blocks (rule R92). -/
def gridPermute (f : GridFmt) (src : Nat → Nat) (b : Nat → Byte) : Nat → Byte :=
  match f with
  | .dxt1 => permuteDxt1 src b
  | .dxt5 => permuteDxt5 src b

theorem gridPermute_congr (f : GridFmt) {t u : Nat → Nat} (h : ∀ p < 16, t p = u p) (b : Nat → Byte)
    (m : Nat) : gridPermute f t b m = gridPermute f u b m := by
  cases f
  · simp only [gridPermute, permuteDxt1, perm2_congr _ h]
  · simp only [gridPermute, permuteDxt5, perm2_congr _ h, perm3_congr _ h]

theorem gridPermute_gridPermute (f : GridFmt) (t : Nat → Nat) {u : Nat → Nat}
    (hu : ∀ p < 16, u p < 16) {b c : Nat → Byte} (hc : ∀ m < gridBytes f, c m = gridPermute f t b m)
    {m : Nat} (hm : m < gridBytes f) :
    gridPermute f u c m = gridPermute f (fun p => t (u p)) b m := by
  cases f
  · exact permuteDxt1_permuteDxt1 t hu hc m
  · exact permuteDxt5_permuteDxt5 t hu hc hm

/-- Buffers of whole blocks are equal if their blocks are. -/
theorem buf_ext {bs n : Nat} (hbs : 0 < bs) {l r : List Byte} (hl : l.length = n * bs)
    (hr : r.length = n * bs)
    (h : ∀ q < n, ∀ m < bs, bufByte l (q * bs + m) = bufByte r (q * bs + m)) : l = r := by
  have e : ∀ {j : Nat} (l : List Byte) (h : j < l.length), l[j] = bufByte l j := fun l h => by
    simp [bufByte, h]
  apply List.ext_getElem (hl.trans hr.symm)
  intro j h1 h2
  rw [e l h1, e r h2]
  have hj : j / bs < n := by rw [Nat.div_lt_iff_lt_mul hbs]; omega
  have ej : j = j / bs * bs + j % bs := by
    rw [Nat.mul_comm]
    exact (Nat.div_add_mod _ _).symm
  rw [ej]
  exact h _ hj _ (Nat.mod_lt _ hbs)

/-- The output buffer of a transform of `n` blocks: block k of `data`, changed by `out`, is stored as
block `dst k`. -/
def transformed (data : List Byte) (bs n : Nat) (dst : Nat → Nat) (out : (Nat → Byte) → Nat → Byte) :
    List Byte :=
  upTo n (fun k b => bufStore b (dst k * bs) bs (out fun m => bufByte data (k * bs + m)))
    (List.replicate (n * bs) 0)

@[simp] theorem transformed_length (data : List Byte) (bs n : Nat) (dst : Nat → Nat)
    (out : (Nat → Byte) → Nat → Byte) : (transformed data bs n dst out).length = n * bs := by
  rw [transformed, upTo_keeps List.length fun m _ a => bufStore_length ..]
  simp

/-- Byte m of the output block of input block k. -/
theorem transformed_byte (data : List Byte) {bs n k m : Nat} {dst : Nat → Nat}
    (out : (Nat → Byte) → Nat → Byte) (hinj : ∀ a < n, ∀ b < n, dst a = dst b → a = b)
    (hlt : ∀ a < n, dst a < n) (hk : k < n) (hm : m < bs) :
    bufByte (transformed data bs n dst out) (dst k * bs + m)
      = out (fun m => bufByte data (k * bs + m)) m :=
  bufByte_blocks (f := fun k => out fun m => bufByte data (k * bs + m)) hinj hk hm
    (by rw [List.length_replicate]; exact block_lt (hlt k hk) hm)

theorem run_transforms (data : List Byte) {i : Instr} {bs : Nat} (hbs : blockSizeOf i = bs)
    (hd : decode (encode i) = .ok i) {out : (Nat → Byte) → Nat → Byte}
    (ho : ∀ b, outOf b i = some (out b)) (dst : Nat → Nat) (n : Nat) (s : State) :
    ∃ t, (Sequence.over n (fun n => transformActs data bs i n (dst n))
        (List.replicate (n * bs) 0)).run s = .next (t, transformed data bs n dst out) := by
  subst hbs
  exact Sequence_run_over (g := fun k b => bufStore b (dst k * blockSizeOf i) (blockSizeOf i)
    (out fun m => bufByte data (k * blockSizeOf i + m)))
    (fun k _ p => runActs_transform k (dst k) (ho _) hd p) _ _

theorem gridBlockSize_eq (f : GridFmt) : gridBlockSize f = gridBytes f := by cases f <;> rfl

theorem gridFmtOfSize_eq (f : GridFmt) : gridFmtOfSize (gridBytes f) = some f := by cases f <;> rfl

theorem badDimensions_false {w h : Nat} (hw : w % 4 = 0) (hh : h % 4 = 0) :
    badDimensions w h = false := by simp [badDimensions, hw, hh]

theorem badDimensions_true {w h : Nat} (hb : w % 4 ≠ 0 ∨ h % 4 ≠ 0) : badDimensions w h = true := by
  simpa [badDimensions] using hb

theorem stepsOf_lt (times : Int) : stepsOf times < 4 := by
  simp only [stepsOf]
  omega

/-- The sequence of a transform of `n` blocks. -/
def transformSequence (data : List Byte) (bs n : Nat) (i : Instr) (dst : Nat → Nat) : Sequence :=
  .over n (fun k => transformActs data bs i k (dst k)) (List.replicate (n * bs) 0)

theorem rotateSequence_eq (f : GridFmt) {data : List Byte} {w h : Nat} (times : Int)
    (hw : w % 4 = 0) (hh : h % 4 = 0) (hl : w / 4 * (h / 4) * gridBytes f ≤ data.length) :
    rotateSequence f data w h times = .next (transformSequence data (gridBytes f) (w / 4 * (h / 4))
      (rotateCommand f (stepsOf times)) (rotatedBlock (stepsOf times) (w / 4) (h / 4))) := by
  simp [rotateSequence, badDimensions_false hw hh, gridBlockSize_eq, Nat.not_lt.mpr hl,
    transformSequence]

theorem flipHSequence_eq (f : GridFmt) {data : List Byte} {w h : Nat}
    (hw : w % 4 = 0) (hh : h % 4 = 0) (hl : w / 4 * (h / 4) * gridBytes f ≤ data.length) :
    flipHSequence data w h (gridBytes f) = .next (transformSequence data (gridBytes f)
      (w / 4 * (h / 4)) (fliphCommand f) fun n => n) := by
  simp [flipHSequence, badDimensions_false hw hh, gridFmtOfSize_eq, Nat.not_lt.mpr hl,
    transformSequence]

theorem flipVSequence_eq (f : GridFmt) {data : List Byte} {w h : Nat}
    (hw : w % 4 = 0) (hh : h % 4 = 0) (hl : w / 4 * (h / 4) * gridBytes f ≤ data.length) :
    flipVSequence data w h (gridBytes f) = .next (transformSequence data (gridBytes f)
      (w / 4 * (h / 4)) (flipvCommand f) (flippedBlock (w / 4) (h / 4))) := by
  simp [flipVSequence, badDimensions_false hw hh, gridFmtOfSize_eq, Nat.not_lt.mpr hl,
    transformSequence]

/-- A rotation without a fault (rule R50). -/
theorem rotateImage_eq (f : GridFmt) {data : List Byte} {w h : Nat} (times : Int) (s : State)
    (hw : w % 4 = 0) (hh : h % 4 = 0) (hl : w / 4 * (h / 4) * gridBytes f ≤ data.length) :
    ∃ t, rotateImage f data w h times s = .next (t, transformed data (gridBytes f)
      (w / 4 * (h / 4)) (rotatedBlock (stepsOf times) (w / 4) (h / 4))
      (gridPermute f (mapRotate (stepsOf times)))) := by
  rw [rotateImage, rotateSequence_eq f times hw hh hl, andThen_next]
  have hk := stepsOf_lt times
  generalize stepsOf times = k at *
  cases f
  · exact run_transforms data (i := .rotateDxt1 k) rfl (by interval_cases k <;> rfl)
      (fun _ => rfl) _ _ _
  · exact run_transforms data (i := .rotateDxt5 k) rfl (by interval_cases k <;> rfl)
      (fun _ => rfl) _ _ _

/-- A horizontal flip without a fault (rule R51). -/
theorem flipImageH_eq (f : GridFmt) {data : List Byte} {w h : Nat} (s : State)
    (hw : w % 4 = 0) (hh : h % 4 = 0) (hl : w / 4 * (h / 4) * gridBytes f ≤ data.length) :
    ∃ t, flipImageH data w h (gridBytes f) s = .next (t, transformed data (gridBytes f)
      (w / 4 * (h / 4)) (fun n => n) (gridPermute f mapFlipH)) := by
  rw [flipImageH, flipHSequence_eq f hw hh hl, andThen_next]
  cases f
  · exact run_transforms data (i := .fliphDxt1) rfl rfl (fun _ => rfl) (fun n => n) _ _
  · exact run_transforms data (i := .fliphDxt5) rfl rfl (fun _ => rfl) (fun n => n) _ _

/-- What FLIPV does to a block of a grid format (rules R97 and R99). -/
def gridCopy (f : GridFmt) (b : Nat → Byte) : Nat → Byte :=
  match f with
  | .dxt1 => copyDxt1 b
  | .dxt5 => b

theorem gridCopy_eq (f : GridFmt) (b : Nat → Byte) {m : Nat} (hm : m < gridBytes f) :
    gridCopy f b m = b m := by
  cases f
  · exact if_pos hm
  · rfl

/-- A vertical flip without a fault (rule R52). -/
theorem flipImageV_eq (f : GridFmt) {data : List Byte} {w h : Nat} (s : State)
    (hw : w % 4 = 0) (hh : h % 4 = 0) (hl : w / 4 * (h / 4) * gridBytes f ≤ data.length) :
    ∃ t, flipImageV data w h (gridBytes f) s = .next (t, transformed data (gridBytes f)
      (w / 4 * (h / 4)) (flippedBlock (w / 4) (h / 4)) (gridCopy f)) := by
  rw [flipImageV, flipVSequence_eq f hw hh hl, andThen_next]
  cases f
  · exact run_transforms data (i := .flipvDxt1) rfl rfl (fun _ => rfl) _ _ _
  · exact run_transforms data (i := .flipvDxt5) rfl rfl (fun _ => rfl) _ _ _

/-- One block of the alpha half of an encode (rule R49). -/
theorem runActs_quantize (px : List Byte) (w h : Nat) (ch : Channels) (n : Nat)
    (p : State × List Byte) : ∃ t, runActs (quantizeActs px w h ch n) p
      = .next (t, bufStore p.2 (n * 16) 8 (quantizedByte fun i =>
          (sampleTexel px w h ch (n % blocksAlong w) (n / blocksAlong w) i).a)) := by
  obtain ⟨v, hv, hrun⟩ := runActs_command (b := fun i => (sampleTexel px w h ch
    (n % blocksAlong w) (n / blocksAlong w) i).a) (size := 16) (len := 16) (i := .qalpha3Dxt3) p.1 p.2
    (by omega) rfl (by omega) rfl
  have hex := exec_out (i := .qalpha3Dxt3) (s := { p.1 with
    inW := v, inlen := BitVec.ofNat 32 16, cmd := encode .qalpha3Dxt3 }) rfl (Nat.le_refl 16)
  refine runActs_then_copyOut (size := 8) (hrun _ hex (by rw [putOut_status]; exact statusErr_done))
    (by omega) rfl (fun m hm => ?_) _
  refine (byteOfWords_wordsOfBytes (n := 4) _ (by omega)).trans ?_
  simp only [quantizedByte, if_pos hm, State.inByte]
  rw [hv _ (by omega), hv _ (by omega)]

/-- The alpha half of an encode, as one loop over the blocks (rule R49). -/
def quantizedImage (px : List Byte) (w h : Nat) (ch : Channels) (out : List Byte) : List Byte :=
  upTo (blocksAlong w * blocksAlong h) (fun n b => bufStore b (n * 16) 8 (quantizedByte fun i =>
    (sampleTexel px w h ch (n % blocksAlong w) (n / blocksAlong w) i).a)) out

theorem quantizeImage_eq (px : List Byte) (w h : Nat) (ch : Channels) (out : List Byte) (s : State) :
    ∃ t, quantizeImage px w h ch out s = .next (t, quantizedImage px w h ch out) :=
  Sequence_run_over (fun k _ p => runActs_quantize px w h ch k p) _ _

@[simp] theorem quantizedImage_length (px : List Byte) (w h : Nat) (ch : Channels)
    (out : List Byte) : (quantizedImage px w h ch out).length = out.length :=
  upTo_keeps List.length (fun _ _ _ => bufStore_length ..) out

/-- The image that a decode gives, as one loop over the blocks (rule R48). -/
def decodedImage (f : Fmt) (data : List Byte) (w h : Nat) : List Byte :=
  upTo (blocksAlong w * blocksAlong h) (fun n img => upTo 16 (storeTexel (imageTexels f data n) w h
      (decodedChannels f).count (n % blocksAlong w) (n / blocksAlong w)) img)
    (List.replicate (w * h * (decodedChannels f).count) 0)

theorem decodeImage_eq (f : Fmt) (fill : Nat → Byte) (data : List Byte) (w h : Nat) (s : State) :
    ∃ t, decodeImage f fill data w h s = .next (t, decodedImage f data w h) :=
  Sequence_run_over (fun k _ p => runActs_decode f fill data w h k p) _ _

@[simp] theorem decodedImage_length (f : Fmt) (data : List Byte) (w h : Nat) :
    (decodedImage f data w h).length = w * h * (decodedChannels f).count := by
  rw [decodedImage, upTo_keeps List.length fun m _ a =>
    upTo_keeps List.length (fun _ _ _ => storeTexel_length ..) a]
  simp

/-- Every pixel of a decoded image is a texel of its block (rule R48). -/
theorem decodedImage_pixel (f : Fmt) (data : List Byte) {w h X Y c : Nat} (hX : X < w) (hY : Y < h)
    (hc : c < (decodedChannels f).count) :
    bufByte (decodedImage f data w h) (pixelAt w (decodedChannels f).count X Y + c)
      = byteAt (imageTexel f data (Y / 4 * blocksAlong w + X / 4)
          (4 * (Y % 4) + X % 4)).toWord.toNat c := by
  have hx : X / 4 < blocksAlong w := by simp only [blocksAlong]; omega
  have hy : Y / 4 < blocksAlong h := by simp only [blocksAlong]; omega
  obtain ⟨e1, e2⟩ := grid_split (yb := Y / 4) hx
  refine upTo_sets (fun b => bufByte b (pixelAt w (decodedChannels f).count X Y + c))
    (fun b => b.length = w * h * (decodedChannels f).count)
    (fun m a ha => (upTo_keeps List.length (fun _ _ _ => storeTexel_length ..) a).trans ha)
    (fun a ha => ?_) (grid_lt hx hy) (fun m hm hne a => ?_) _ (by simp)
  · refine upTo_sets (fun b => bufByte b (pixelAt w (decodedChannels f).count X Y + c))
      (fun b => b.length = w * h * (decodedChannels f).count) (k := 4 * (Y % 4) + X % 4)
      (fun m a ha => (storeTexel_length ..).trans ha) (fun a ha => ?_) (by omega)
      (fun m hm hne a => ?_) _ ha
    · have p1 : 4 * (X / 4) + (4 * (Y % 4) + X % 4) % 4 = X := by omega
      have p2 : 4 * (Y / 4) + (4 * (Y % 4) + X % 4) / 4 = Y := by omega
      have := storeTexel_same (ws := imageTexels f data (Y / 4 * blocksAlong w + X / 4))
        (bx := X / 4) (yb := Y / 4) (i := 4 * (Y % 4) + X % 4) (c := c) (w := w) (h := h) (img := a)
        (ch := (decodedChannels f).count) (by omega) (by omega) hc ha
      rw [p1, p2] at this
      simp only [e1, e2]
      rw [this, imageTexels_getD _ _ _ (by omega)]
    · simp only [e1, e2]
      exact storeTexel_other hX hc (by omega)
  · refine upTo_keeps (fun b => bufByte b (pixelAt w (decodedChannels f).count X Y + c))
      (fun i hi b => storeTexel_other hX hc ?_) a
    by_contra hh
    have q : m % blocksAlong w = X / 4 ∧ m / blocksAlong w = Y / 4 := by
      generalize m % blocksAlong w = x at *
      generalize m / blocksAlong w = y at *
      omega
    have := Nat.div_add_mod m (blocksAlong w)
    rw [q.1, q.2, Nat.mul_comm] at this
    exact hne this.symm

end Sys2Proof.Laws
end

