-- ==== Sys2Proof/Laws/PerInstr.lean ====
section
/-! SUPPORT. Statements made for every command, one lemma a constructor: the fields of each command's
word are the OP, FMT and K columns of spec 30_encoding.md rule R59, and its reserved bits are 0. -/

namespace Sys2Proof.Laws

/-- The OP, FMT and K columns of rule R59. -/
def columns : Instr → Nat × Nat × Nat
  | .nop => (0, 0, 0)
  | .qalpha3Dxt3 => (2, 1, 0)
  | .decodeDxt1 => (1, 0, 0)
  | .decodeDxt3 => (1, 1, 0)
  | .decodeDxt5 => (1, 2, 0)
  | .rotateDxt1 k => (3, 0, k)
  | .rotateDxt5 k => (3, 2, k)
  | .fliphDxt1 => (4, 0, 0)
  | .fliphDxt5 => (4, 2, 0)
  | .flipvDxt1 => (5, 0, 0)
  | .flipvDxt3 => (5, 1, 0)
  | .flipvDxt5 => (5, 2, 0)

/-- The fields of the word of `i`, if `i` is well formed, are the columns of its row (rule R59). -/
def EncodedFields.Statement (i : Instr) : Prop :=
  i.WellFormed → (fieldOp (encode i), fieldFmt (encode i), fieldK (encode i)) = columns i
    ∧ fieldRsv (encode i) = 0

theorem EncodedFields.nop : EncodedFields.Statement .nop := by
  intro _; decide

theorem EncodedFields.qalpha3Dxt3 : EncodedFields.Statement .qalpha3Dxt3 := by
  intro _; decide

theorem EncodedFields.decodeDxt1 : EncodedFields.Statement .decodeDxt1 := by
  intro _; decide

theorem EncodedFields.decodeDxt3 : EncodedFields.Statement .decodeDxt3 := by
  intro _; decide

theorem EncodedFields.decodeDxt5 : EncodedFields.Statement .decodeDxt5 := by
  intro _; decide

theorem EncodedFields.rotateDxt1 (k : Nat) : EncodedFields.Statement (.rotateDxt1 k) := by
  intro h
  have hk : k < 4 := of_decide_eq_true h
  interval_cases k <;> decide

theorem EncodedFields.rotateDxt5 (k : Nat) : EncodedFields.Statement (.rotateDxt5 k) := by
  intro h
  have hk : k < 4 := of_decide_eq_true h
  interval_cases k <;> decide

theorem EncodedFields.fliphDxt1 : EncodedFields.Statement .fliphDxt1 := by
  intro _; decide

theorem EncodedFields.fliphDxt5 : EncodedFields.Statement .fliphDxt5 := by
  intro _; decide

theorem EncodedFields.flipvDxt1 : EncodedFields.Statement .flipvDxt1 := by
  intro _; decide

theorem EncodedFields.flipvDxt3 : EncodedFields.Statement .flipvDxt3 := by
  intro _; decide

theorem EncodedFields.flipvDxt5 : EncodedFields.Statement .flipvDxt5 := by
  intro _; decide

end Sys2Proof.Laws
end

