-- ==== Sys2Proof/Laws/Schedule.lean ====
section
/-! SUPPORT. What the actions of one block store, whatever unit they run on, and what one turn of a
sequence under way can do (spec 20_memory.md rule R44, 70_reset_and_hazards.md rule R114). -/

namespace Sys2Proof.Laws

open Sys2Proof.Machine Sys2Proof.Claims

/-! ### What actions store -/

/-- The output buffer after an action that stores the bytes `V`. -/
def storedBy (V : Nat → Byte) (a : HostAct) (out : List Byte) : List Byte :=
  match a with
  | .write _ _ => out
  | .check => out
  | .copy _ off n => bufStore out off n fun m => V (off + m)

/-- The actions run through from the state `s`, and every byte they store at a place j is `V j`. -/
def ActsStore (V : Nat → Byte) (acts : List HostAct) (s : State) : Prop :=
  match acts with
  | [] => True
  | a :: rest => ∃ t, (∀ out, a.run (s, out) = .next (t, storedBy V a out)) ∧ ActsStore V rest t

@[simp] theorem storedBy_length (V : Nat → Byte) (a : HostAct) (out : List Byte) :
    (storedBy V a out).length = out.length := by cases a <;> simp [storedBy]

/-- A byte of the buffer after a copy: `V` inside the copied range, as before outside it. -/
theorem storedBy_copy_byte (V : Nat → Byte) (r : Reg) (off n : Nat) {out : List Byte} {j : Nat}
    (hj : j < out.length) : bufByte (storedBy V (.copy r off n) out) j
      = if off ≤ j ∧ j < off + n then V j else bufByte out j := by
  split
  · rename_i h
    obtain ⟨m, rfl⟩ := Nat.exists_eq_add_of_le h.1
    exact bufByte_bufStore (n := n) _ (by omega) hj
  · exact bufByte_bufStore_out _ (by omega)

/-- An action that copies nothing does the same on every output buffer, and leaves it. -/
theorem run_of_no_copy {a : HostAct} (ha : ∀ r off n, a ≠ .copy r off n) {s t : State}
    {out out' : List Byte} (h : a.run (s, out) = .next (t, out')) (V : Nat → Byte)
    (o : List Byte) : a.run (s, o) = .next (t, storedBy V a o) := by
  cases a with
  | write r v =>
    simp only [HostAct.run, storedBy] at h ⊢
    generalize hostWrite r v s = x at h ⊢
    cases x <;> simp [andThen] at h ⊢
    exact h.1
  | check =>
    simp only [HostAct.run, storedBy] at h ⊢
    generalize hostRead .status s = x at h ⊢
    cases x <;> simp [andThen] at h ⊢
    split at h
    · rename_i hc
      obtain ⟨rfl, -⟩ := by simpa using h
      exact if_pos hc
    · cases h
  | copy r off n => exact absurd rfl (ha r off n)

/-- Actions without a copy that run through once store nothing, whatever follows them. -/
theorem actsStore_append_of_no_copy {V : Nat → Byte} {xs ys : List HostAct} {s t : State}
    {out out' : List Byte} (hx : ∀ a ∈ xs, ∀ r off n, a ≠ .copy r off n)
    (hr : runActs xs (s, out) = .next (t, out')) (hy : ActsStore V ys t) :
    ActsStore V (xs ++ ys) s := by
  induction xs generalizing s out with
  | nil => cases hr; exact hy
  | cons a xs ih =>
    rw [runActs_cons] at hr
    cases ha : a.run (s, out) with
    | next p =>
      rw [ha, andThen_next] at hr
      exact ⟨p.1, run_of_no_copy (hx a (by simp)) (out' := p.2) ha V,
        ih (fun b hb => hx b (by simp [hb])) (out := p.2) hr⟩
    | fault r => rw [ha] at hr; cases hr
    | refused r => rw [ha] at hr; cases hr

/-- Copies of registers that hold the bytes `V`. -/
theorem actsStore_copies {V : Nat → Byte} {ys : List HostAct} {s : State}
    (h : ∀ a ∈ ys, ∃ r off n, a = .copy r off n ∧
      ∀ m < n, byteAt (s.readReg r).toNat m = V (off + m)) : ActsStore V ys s := by
  induction ys generalizing s with
  | nil => trivial
  | cons a ys ih =>
    obtain ⟨r, off, n, rfl, hv⟩ := h a (by simp)
    refine ⟨{ s with readData := some (s.readReg r) }, fun out => ?_, ih fun b hb => ?_⟩
    · rw [run_copy, storedBy, bufStore_congr _ _ hv]
    · obtain ⟨r', off', n', e, hv'⟩ := h b (by simp [hb])
      exact ⟨r', off', n', e, fun m hm => by rw [readReg_readData]; exact hv' m hm⟩

theorem commandActs_no_copy {b : Nat → Byte} {size len : Nat} {i : Instr} :
    ∀ a ∈ commandActs b size len i, ∀ r off n, a ≠ .copy r off n := by
  intro a ha r off n e
  subst e
  simp [commandActs] at ha

/-- One command on a block and copies of registers after it: the block stores the bytes `V`, from
every state of the unit, if the command leaves them in the copied registers. -/
theorem actsStore_block {V : Nat → Byte} {b : Nat → Byte} {size len : Nat} {i : Instr}
    {ys : List HostAct} (s : State) (hsize : size ≤ 16) (h4 : size % 4 = 0) (hlen : len ≤ 16)
    (hd : decode (encode i) = .ok i)
    (h : ∀ u : State, (∀ m < size, u.inByte m = b m) → u.inlen = BitVec.ofNat 32 len →
      ∃ t, exec i u = .next t ∧ statusErr t.status = 0 ∧
        ∀ a ∈ ys, ∃ r off n, a = .copy r off n ∧
          ∀ m < n, byteAt (t.readReg r).toNat m = V (off + m)) :
    ActsStore V (commandActs b size len i ++ ys) s := by
  obtain ⟨v, hv, hrun⟩ := runActs_command s [] hsize h4 hlen hd
  obtain ⟨t, ht, he, hy⟩ := h { s with inW := v, inlen := BitVec.ofNat 32 len, cmd := encode i } hv rfl
  refine actsStore_append_of_no_copy commandActs_no_copy (hrun t ht he) (actsStore_copies fun a ha => ?_)
  obtain ⟨r, off, n, e, hb⟩ := hy a ha
  exact ⟨r, off, n, e, fun m hm => by rw [readReg_readData]; exact hb m hm⟩

/-- The copies of OUT after a command that leaves the bytes `V` there. -/
theorem copyOutActs_spec {V : Nat → Byte} {t : State} {off size : Nat} (hsize : size ≤ 16)
    (h : ∀ m < size, t.outByte m = V (off + m)) :
    ∀ a ∈ copyOutActs off size, ∃ r o n, a = .copy r o n ∧
      ∀ m < n, byteAt (t.readReg r).toNat m = V (o + m) := by
  intro a ha
  simp only [copyOutActs, List.mem_map, List.mem_range] at ha
  obtain ⟨j, hj, rfl⟩ := ha
  exact ⟨_, _, _, rfl, fun m hm => by
    rw [outByte_readReg (by omega) hm, h _ (by omega), Nat.add_assoc]⟩

/-- One block of a transform, from any state of the unit (rules R44 and R50 to R52). -/
theorem actsStore_transform {V : Nat → Byte} {data : List Byte} {i : Instr} {out : Nat → Byte}
    {src dst : Nat} (hd : decode (encode i) = .ok i)
    (hout : outOf (fun m => bufByte data (src * blockSizeOf i + m)) i = some out)
    (hV : ∀ m < blockSizeOf i, out m = V (dst * blockSizeOf i + m)) (s : State) :
    ActsStore V (transformActs data (blockSizeOf i) i src dst) s := by
  have hsize := blockSizeOf_le i
  refine actsStore_block s hsize.1 hsize.2 hsize.1 hd fun u hu hl => ?_
  obtain ⟨out', ho', hsame⟩ := outOf_congr (f := u.inByte) hu hout
  refine ⟨_, exec_out ho' ?_, by rw [putOut_status]; exact statusErr_done,
    copyOutActs_spec hsize.1 fun m hm => ?_⟩
  · rw [hl, BitVec.toNat_ofNat]
    have := hsize.1
    omega
  · exact ((byteOfWords_wordsOfBytes (n := 4) out' (by omega)).trans (hsame m hm)).trans (hV m hm)

/-- One block of the alpha half of an encode, from any state of the unit (rules R44 and R49). -/
theorem actsStore_quantize {V : Nat → Byte} (px : List Byte) (w h : Nat) (ch : Channels) (n : Nat)
    (hV : ∀ m < 8, quantizedByte (fun i => (sampleTexel px w h ch (n % blocksAlong w)
      (n / blocksAlong w) i).a) m = V (n * 16 + m)) (s : State) :
    ActsStore V (quantizeActs px w h ch n) s := by
  refine actsStore_block s (by omega) rfl (by omega) rfl fun u hu hl => ?_
  refine ⟨_, exec_out (i := .qalpha3Dxt3) rfl (by rw [hl]; decide), by
    rw [putOut_status]; exact statusErr_done, copyOutActs_spec (by omega) fun m hm => ?_⟩
  refine (byteOfWords_wordsOfBytes (n := 4) _ (by omega)).trans (Eq.trans ?_ (hV m hm))
  simp only [quantizedByte, if_pos hm]
  rw [hu _ (by omega), hu _ (by omega)]

/-- One block of an image decode, from any state of the unit (rules R44 and R48). -/
theorem actsStore_decode {V : Nat → Byte} (fmt : Fmt) (fill : Nat → Byte) (data : List Byte)
    (w h n : Nat)
    (hV : ∀ i < 16, ∀ c < (decodedChannels fmt).count, 4 * (n % blocksAlong w) + i % 4 < w →
      4 * (n / blocksAlong w) + i / 4 < h → byteAt (imageTexel fmt data n i).toWord.toNat c
        = V (pixelAt w (decodedChannels fmt).count (4 * (n % blocksAlong w) + i % 4)
            (4 * (n / blocksAlong w) + i / 4) + c)) (s : State) :
    ActsStore V (decodeActs fmt fill data w h n) s := by
  have hsize : fmt.blockSize ≤ 16 ∧ fmt.blockSize % 4 = 0 := by cases fmt <;> decide
  have hd : decode (encode (decodeCommand fmt)) = .ok (decodeCommand fmt) := by cases fmt <;> rfl
  refine actsStore_block s hsize.1 hsize.2 (by omega) hd fun u hu hl => ?_
  obtain ⟨t, ht, he, htex⟩ := exec_imageTexel (fmt := fmt) (data := data) (n := n) (u := u)
    (by rw [hl, BitVec.toNat_ofNat]; omega) fun m hm h => by rw [hu m hm]; exact if_pos h
  refine ⟨t, ht, he, fun a ha => ?_⟩
  simp only [List.mem_flatMap, List.mem_range, copyTexelActs] at ha
  obtain ⟨i, hi, ha⟩ := ha
  split at ha
  · rename_i hin
    obtain rfl := List.mem_singleton.1 ha
    refine ⟨_, _, _, rfl, fun c hc => ?_⟩
    rw [← hV i hi c hc hin.1 hin.2, ← htex ⟨i, hi⟩]
    simp [State.readReg, Nat.mod_eq_of_lt hi]
  · simp at ha

/-! ### Every image sequence -/

theorem mem_over {n : Nat} {acts : Nat → List HostAct} {out : List Byte} {b : List HostAct}
    (h : b ∈ (Sequence.over n acts out).blocks) : ∃ k < n, b = acts k := by
  simp only [Sequence.over, List.mem_map, List.mem_range] at h
  obtain ⟨k, hk, rfl⟩ := h
  exact ⟨k, hk, rfl⟩

/-- The blocks of a transform store the bytes of its output buffer. -/
theorem transformSequence_stores {data : List Byte} {bs n : Nat} {i : Instr} {dst : Nat → Nat}
    {out : (Nat → Byte) → Nat → Byte} (hbs : blockSizeOf i = bs) (hd : decode (encode i) = .ok i)
    (ho : ∀ b, outOf b i = some (out b)) (hinj : ∀ a < n, ∀ b < n, dst a = dst b → a = b)
    (hlt : ∀ a < n, dst a < n) :
    ∀ acts ∈ (transformSequence data bs n i dst).blocks, ∀ s,
      ActsStore (bufByte (transformed data bs n dst out)) acts s := by
  subst hbs
  intro acts ha s
  obtain ⟨k, hk, rfl⟩ := mem_over ha
  exact actsStore_transform hd (ho _)
    (fun m hm => (transformed_byte data out hinj hlt hk hm).symm) s

/-- What makes the order of blocks, the choice of units and resets between blocks harmless: there is
one byte for every place of the output buffer, and every block of an image sequence, from every state of
a unit, runs through and stores these bytes alone (rule R44). -/
theorem imageSequence_stores {q : Sequence} (h : IsImageSequence q) :
    ∃ V, ∀ acts ∈ q.blocks, ∀ s, ActsStore V acts s := by
  rcases h with ⟨f, fill, d, w, h, rfl⟩ | ⟨px, w, h, ch, out, rfl⟩ | ⟨f, d, w, h, times, hq⟩ |
    ⟨d, w, h, bs, hq⟩
  · refine ⟨bufByte (decodedImage f d w h), fun acts ha s => ?_⟩
    obtain ⟨k, hk, rfl⟩ := mem_over ha
    obtain ⟨g1, g2, g3⟩ := grid_unsplit hk
    refine actsStore_decode f fill d w h k (fun i hi c hc h1 h2 => ?_) s
    rw [decodedImage_pixel f d h1 h2 hc]
    congr 4
    · rw [show (4 * (k / blocksAlong w) + i / 4) / 4 = k / blocksAlong w by omega,
        show (4 * (k % blocksAlong w) + i % 4) / 4 = k % blocksAlong w by omega]
      exact g3
    · omega
  · refine ⟨fun j => quantizedByte (fun i => (sampleTexel px w h ch (j / 16 % blocksAlong w)
      (j / 16 / blocksAlong w) i).a) (j % 16), fun acts ha s => ?_⟩
    obtain ⟨k, hk, rfl⟩ := mem_over ha
    refine actsStore_quantize px w h ch k (fun m hm => ?_) s
    rw [show (k * 16 + m) / 16 = k by omega, show (k * 16 + m) % 16 = m by omega]
  · by_cases hb : w % 4 ≠ 0 ∨ h % 4 ≠ 0
    · simp [rotateSequence, badDimensions_true hb] at hq
    obtain ⟨hw, hh⟩ : w % 4 = 0 ∧ h % 4 = 0 := by omega
    by_cases hl : w / 4 * (h / 4) * gridBytes f ≤ d.length
    · rw [rotateSequence_eq f times hw hh hl] at hq
      cases hq
      have hk := stepsOf_lt times
      generalize stepsOf times = k at *
      refine ⟨_, transformSequence_stores (out := gridPermute f (mapRotate k)) ?_ ?_ ?_
        (rotatedBlock_inj hk) (rotatedBlock_lt hk)⟩
      · cases f <;> rfl
      · cases f <;> interval_cases k <;> rfl
      · cases f <;> exact fun _ => rfl
    · simp [rotateSequence, badDimensions_false hw hh, gridBlockSize_eq, Nat.lt_of_not_le hl] at hq
  · by_cases hb : w % 4 ≠ 0 ∨ h % 4 ≠ 0
    · rcases hq with hq | hq <;> simp [flipHSequence, flipVSequence, badDimensions_true hb] at hq
    obtain ⟨hw, hh⟩ : w % 4 = 0 ∧ h % 4 = 0 := by omega
    by_cases hbs : ∃ f, bs = gridBytes f
    · obtain ⟨f, rfl⟩ := hbs
      by_cases hl : w / 4 * (h / 4) * gridBytes f ≤ d.length
      · rcases hq with hq | hq
        · rw [flipHSequence_eq f hw hh hl] at hq
          cases hq
          refine ⟨_, transformSequence_stores (out := gridPermute f mapFlipH) ?_ ?_ ?_
            (fun a _ b _ h => h) fun a h => h⟩ <;>
            cases f <;> first | rfl | exact fun _ => rfl
        · rw [flipVSequence_eq f hw hh hl] at hq
          cases hq
          refine ⟨_, transformSequence_stores (out := gridCopy f) ?_ ?_ ?_ flippedBlock_inj
            flippedBlock_lt⟩ <;> cases f <;> first | rfl | exact fun _ => rfl
      · rcases hq with hq | hq <;> simp [flipHSequence, flipVSequence, badDimensions_false hw hh,
          gridFmtOfSize_eq, Nat.lt_of_not_le hl] at hq
    · have : gridFmtOfSize bs = none := by
        simp only [gridFmtOfSize]
        rw [if_neg (c := bs = 8) (fun h => hbs ⟨.dxt1, h⟩),
          if_neg (c := bs = 16) (fun h => hbs ⟨.dxt5, h⟩)]
      rcases hq with hq | hq <;>
        simp [flipHSequence, flipVSequence, badDimensions_false hw hh, this] at hq

/-! ### Turns -/

/-- What the next action of an agent can do to the worker, the buffer and the list of done blocks. -/
theorem act_cases (w : Worker) (out : List Byte) :
    (w.job = none ∧ w.act out = .next (w, out, [])) ∨
    (∃ k, w.job = some ⟨k, []⟩ ∧ w.act out = .next ({ w with job := none }, out, [])) ∨
    (∃ k a rest, w.job = some ⟨k, a :: rest⟩ ∧ w.act out = andThen (a.run (w.unit, out)) fun r =>
      .next (⟨r.1, if rest = [] then none else some ⟨k, rest⟩⟩, r.2, if rest = [] then [k] else [])) := by
  rcases w with ⟨s, _ | ⟨k, _ | ⟨a, _ | ⟨b, rest⟩⟩⟩⟩
  · exact .inl ⟨rfl, rfl⟩
  · exact .inr (.inl ⟨k, rfl, rfl⟩)
  · exact .inr (.inr ⟨k, a, [], rfl, rfl⟩)
  · exact .inr (.inr ⟨k, a, b :: rest, rfl, rfl⟩)

theorem runTurns_append (q : Sequence) (xs ys : List Turn) (p : Progress) :
    runTurns q (xs ++ ys) p = andThen (runTurns q xs p) (runTurns q ys) := by
  induction xs generalizing p with
  | nil => rfl
  | cons t xs ih =>
    rw [List.cons_append, runTurns, runTurns, andThen_assoc]
    exact congrArg (andThen (t.run q p)) (funext ih)

theorem run_take {q : Sequence} {p : Progress} {u : Nat} {w : Worker} (h : p.workers[u]? = some w)
    (k : Nat) : (Turn.take u k).run q p = .next { p with workers := p.workers.set u (w.take q k) } := by
  simp only [Turn.run, Turn.unit, h]

theorem run_reset {q : Sequence} {p : Progress} {u : Nat} {w : Worker} (h : p.workers[u]? = some w) :
    (Turn.reset u).run q p = .next { p with workers := p.workers.set u w.reset } := by
  simp only [Turn.run, Turn.unit, h]

theorem run_act {q : Sequence} {p : Progress} {u : Nat} {w : Worker} (h : p.workers[u]? = some w) :
    (Turn.act u).run q p = andThen (w.act p.out) fun r =>
      .next ⟨p.workers.set u r.1, r.2.1, r.2.2 ++ p.done⟩ := by
  simp only [Turn.run, Turn.unit, h]

end Sys2Proof.Laws
end

