-- ==== Sys2Proof/Laws/Step.lean ====
section
/-! SUPPORT. What one step can do, said once. -/

namespace Sys2Proof.Laws

open Sys2Proof.Machine

/-- A write of CMD runs the command of its word, or ends with the word's error (rules R15 and
R102). -/
theorem runCommand_cases (v : Word) (s : State) :
    (∃ i, decode v = .ok i ∧ runCommand v s = exec i { s with cmd := v }) ∨
    (∃ e, decode v = .error e
      ∧ runCommand v s = .next { s with cmd := v, status := statusError e }) := by
  cases h : decode v with
  | ok i => exact .inl ⟨i, rfl, by simp only [runCommand, h]; rfl⟩
  | error e => exact .inr ⟨e, rfl, by simp only [runCommand, h]; rfl⟩

/-- What `step` can answer: with no event pending the state stays; otherwise two agents pending are
refused, a reset resets, and an access is performed. -/
theorem step_cases (s : State) :
    (s.pending = [] ∧ step s = .next s) ∨
    (agentsInterleave s.pending = true ∧ step s = .refused .agentsInterleave) ∨
    (∃ rest, s.pending = .reset :: rest
      ∧ step s = .next { State.reset with pending := rest, readData := s.readData }) ∨
    (∃ a rest, s.pending = .access a :: rest ∧ agentsInterleave s.pending = false
      ∧ step s = perform a { s with pending := rest }) := by
  rcases hp : s.pending with _ | ⟨e, rest⟩
  · exact .inl ⟨rfl, by simp only [step, performNext, hp]⟩
  · by_cases hi : agentsInterleave (e :: rest) = true
    · exact .inr (.inl ⟨hi, by simp only [step, performNext, hp, hi, if_true]⟩)
    · have hi : agentsInterleave (e :: rest) = false := by simpa using hi
      cases e with
      | reset =>
        refine .inr (.inr (.inl ⟨rest, rfl, ?_⟩))
        simp only [step, performNext, hp, hi]
        rfl
      | access a =>
        refine .inr (.inr (.inr ⟨a, rest, rfl, hi, ?_⟩))
        simp only [step, performNext, hp, hi]
        rfl

/-- An access with no agent but its own pending is performed. -/
theorem step_access {s : State} {a : Access} {rest : List Event}
    (hp : s.pending = .access a :: rest) (hi : agentsInterleave s.pending = false) :
    step s = perform a { s with pending := rest } := by
  rw [hp] at hi
  simp only [step, performNext, hp, hi]
  rfl

/-- The write of a command word runs the command (rules R15 and R29). -/
theorem step_withFetchWord (s : State) (nbits w : Nat) :
    step (s.withFetchWord nbits w)
      = runCommand (BitVec.ofNat 32 (w % 2 ^ nbits)) { s with pending := [] } := rfl

theorem runCommand_ok {v : Word} {i : Instr} (h : decode v = .ok i) (s : State) :
    runCommand v s = exec i { s with cmd := v } := by
  simp only [runCommand, h]
  rfl

theorem runCommand_error {v : Word} {e : ErrCode} (h : decode v = .error e) (s : State) :
    runCommand v s = .next { s with cmd := v, status := statusError e } := by
  simp only [runCommand, h]
  rfl

/-- What a write of CMD keeps (rules R15, R17 and R18). -/
theorem runCommand_keeps {v : Word} {s t : State} (h : runCommand v s = .next t) :
    t.cmd = v ∧ t.inlen = s.inlen ∧ t.inW = s.inW ∧ t.pending = s.pending
      ∧ t.readData = s.readData := by
  rcases runCommand_cases v s with ⟨i, hi, e⟩ | ⟨e, he, h'⟩
  · exact exec_keeps (e.symm.trans h)
  · rw [h] at h'
    cases h'
    exact ⟨rfl, rfl, rfl, rfl, rfl⟩

/-- An access that is performed: a read, a write of CMD, or a write of another register. -/
theorem perform_next_cases {a : Access} {s t : State} (h : perform a s = .next t) :
    (∃ r, t = { s with readData := some (s.readReg r) }) ∨
    (∃ ag v, a = ⟨ag, .write v, 0x00, 4⟩ ∧ runCommand v s = .next t) ∨
    (∃ ag v off, a = ⟨ag, .write v, off, 4⟩ ∧ off % 4 = 0 ∧ off < 256
      ∧ Reg.ofOffset off ≠ .cmd ∧ t = s.writeReg v (Reg.ofOffset off)) := by
  obtain ⟨ag, kind, off, width⟩ := a
  by_cases h1 : width ≠ 4 ∨ off % 4 ≠ 0
  · rw [show perform ⟨ag, kind, off, width⟩ s = _ from if_pos h1] at h
    cases h
  by_cases h2 : 256 ≤ off
  · rw [show perform ⟨ag, kind, off, width⟩ s = _ from (if_neg h1).trans (if_pos h2)] at h
    cases h
  obtain rfl : width = 4 := by omega
  cases kind with
  | read =>
    rw [show perform ⟨ag, .read, off, 4⟩ s = _ from (if_neg h1).trans (if_neg h2)] at h
    cases h
    exact .inl ⟨_, rfl⟩
  | write v =>
    rw [show perform ⟨ag, .write v, off, 4⟩ s = writeWindow off v s from
      (if_neg h1).trans (if_neg h2)] at h
    by_cases h0 : off = 0
    · subst h0
      exact .inr (.inl ⟨ag, v, rfl, h⟩)
    · have hc : Reg.ofOffset off ≠ .cmd := by
        intro e
        simp only [Reg.ofOffset, if_neg h0] at e
        split_ifs at e
      refine .inr (.inr ⟨ag, v, off, rfl, by omega, by omega, hc, ?_⟩)
      simp only [writeWindow] at h
      cases h
      rfl

/-- Two agents are pending at once exactly if two pending accesses are of different agents. -/
theorem agentsInterleave_iff (p : List Event) : agentsInterleave p = true ↔
    ∃ a b : Access, .access a ∈ p ∧ .access b ∈ p ∧ a.agent ≠ b.agent := by
  have mem : ∀ x, x ∈ p.filterMap Event.agent? ↔ ∃ a : Access, .access a ∈ p ∧ a.agent = x := by
    intro x
    rw [List.mem_filterMap]
    constructor
    · rintro ⟨e, he, h⟩
      cases e with
      | access a => exact ⟨a, he, by simpa [Event.agent?] using h⟩
      | reset => cases h
    · rintro ⟨a, ha, rfl⟩
      exact ⟨_, ha, rfl⟩
  unfold agentsInterleave
  generalize p.filterMap Event.agent? = l at *
  cases l with
  | nil =>
    simp only [Bool.false_eq_true, false_iff]
    rintro ⟨a, _, ha, _⟩
    exact absurd ((mem a.agent).2 ⟨a, ha, rfl⟩) (by simp)
  | cons x l =>
    simp only [List.any_eq_true, bne_iff_ne]
    constructor
    · rintro ⟨y, hy, hne⟩
      obtain ⟨a, ha, rfl⟩ := (mem x).1 (by simp)
      obtain ⟨b, hb, rfl⟩ := (mem y).1 (by simp [hy])
      exact ⟨a, b, ha, hb, Ne.symm hne⟩
    · rintro ⟨a, b, ha, hb, hne⟩
      have h1 := (mem _).2 ⟨a, ha, rfl⟩
      have h2 := (mem _).2 ⟨b, hb, rfl⟩
      by_cases hx : a.agent = x
      · exact ⟨_, (List.mem_cons.1 h2).resolve_left fun e => hne (hx.trans e.symm),
          fun e => hne (hx.trans e.symm)⟩
      · exact ⟨_, (List.mem_cons.1 h1).resolve_left hx, hx⟩

end Sys2Proof.Laws
end

