-- ==== Sys2Proof/Tests/Slice0.lean ====
section
/-! SUPPORT. Tests of single steps against the spec's own vectors (95_test_vectors.md, named in each
test), words written out from 30_encoding.md, ill-formed terms, and for every obligation with
hypotheses a state and operands that meet them. -/

namespace Sys2Proof.Tests

open Sys2Proof.Machine Sys2Proof.Claims

/-- The next state of an outcome, if it has one. -/
def nextOf {α : Type} (o : Host.Outcome α Fault Refusal) : Option α :=
  match o with
  | .next a => some a
  | .fault _ => none
  | .refused _ => none

/-- The fault of an outcome, if it has one. -/
def faultOf {α : Type} (o : Host.Outcome α Fault Refusal) : Option Fault :=
  match o with
  | .next _ => none
  | .fault r => some r
  | .refused _ => none

/-- The refusal of an outcome, if it has one. -/
def refusalOf {α : Type} (o : Host.Outcome α Fault Refusal) : Option Refusal :=
  match o with
  | .next _ => none
  | .fault _ => none
  | .refused r => some r

/-- A unit with the given INLEN and IN words and no result register 0. -/
def unit (len : Nat) (w0 w1 w2 w3 : Word) : State where
  cmd := 0
  status := 3
  inlen := BitVec.ofNat 32 len
  inW := #v[w0, w1, w2, w3]
  outW := Vector.replicate 4 0x11111111
  tex := Vector.replicate 16 0x22222222
  cpal := Vector.replicate 4 0x00333333
  apalW := Vector.replicate 2 0x44444444
  pending := []
  readData := none

/-- A unit in which nothing but OUT and STATUS can differ from `s`. -/
def outIs (s : State) (w0 w1 w2 w3 : Word) : Option State :=
  some { s with outW := #v[w0, w1, w2, w3], status := 0 }

/-! ### Well-formedness -/

theorem test_wellFormed_refuses_k4_dxt1 : (Instr.rotateDxt1 4).wellFormed = false := by decide
theorem test_wellFormed_refuses_k4_dxt5 : (Instr.rotateDxt5 4).wellFormed = false := by decide
theorem test_wellFormed_accepts_k3 :
    (Instr.rotateDxt1 3).wellFormed = true ∧ (Instr.rotateDxt5 3).wellFormed = true := by decide

/-! ### Decoding: RSV(24) ‖ K(2) ‖ FMT(2) ‖ OP(4) (rules R55 to R59) -/

theorem test_decode_nop : decode (0#24 ++ 0b00#2 ++ 0b00#2 ++ 0b0000#4) = .ok .nop := by decide
theorem test_decode_qalpha3Dxt3 :
    decode (0#24 ++ 0b00#2 ++ 0b01#2 ++ 0b0010#4) = .ok .qalpha3Dxt3 := by decide
theorem test_decode_decodeDxt1 :
    decode (0#24 ++ 0b00#2 ++ 0b00#2 ++ 0b0001#4) = .ok .decodeDxt1 := by decide
theorem test_decode_decodeDxt3 :
    decode (0#24 ++ 0b00#2 ++ 0b01#2 ++ 0b0001#4) = .ok .decodeDxt3 := by decide
theorem test_decode_decodeDxt5 :
    decode (0#24 ++ 0b00#2 ++ 0b10#2 ++ 0b0001#4) = .ok .decodeDxt5 := by decide
theorem test_decode_rotateDxt1 :
    decode (0#24 ++ 0b10#2 ++ 0b00#2 ++ 0b0011#4) = .ok (.rotateDxt1 2) := by decide
theorem test_decode_rotateDxt5 :
    decode (0#24 ++ 0b01#2 ++ 0b10#2 ++ 0b0011#4) = .ok (.rotateDxt5 1) := by decide
theorem test_decode_fliphDxt1 :
    decode (0#24 ++ 0b00#2 ++ 0b00#2 ++ 0b0100#4) = .ok .fliphDxt1 := by decide
theorem test_decode_fliphDxt5 :
    decode (0#24 ++ 0b00#2 ++ 0b10#2 ++ 0b0100#4) = .ok .fliphDxt5 := by decide
theorem test_decode_flipvDxt1 :
    decode (0#24 ++ 0b00#2 ++ 0b00#2 ++ 0b0101#4) = .ok .flipvDxt1 := by decide
theorem test_decode_flipvDxt3 :
    decode (0#24 ++ 0b00#2 ++ 0b01#2 ++ 0b0101#4) = .ok .flipvDxt3 := by decide
theorem test_decode_flipvDxt5 :
    decode (0#24 ++ 0b00#2 ++ 0b10#2 ++ 0b0101#4) = .ok .flipvDxt5 := by decide

/-- The illegal words of V-ERR-1 to V-ERR-11, and the last legal and first illegal of some fields. -/
theorem test_illegal_words :
    decode 0x00000006 = .error .badOp ∧ decode 0x0000010F = .error .badOp ∧
    decode 0x00000100 = .error .badField ∧ decode 0x00000010 = .error .badField ∧
    decode 0x00000041 = .error .badField ∧ decode 0x00000071 = .error .badField ∧
    decode 0x00000031 = .error .badFmt ∧ decode 0x00000002 = .error .badFmt ∧
    decode 0x00000013 = .error .badFmt ∧ decode 0x00000014 = .error .badFmt ∧
    decode 0x80000021 = .error .badField := by decide

/-- The words of P1 to P5 and of the transform vectors. -/
theorem test_encode_words :
    encode (.rotateDxt1 1) = 0x43 ∧ encode (.rotateDxt1 3) = 0xC3 ∧ encode (.rotateDxt5 1) = 0x63 ∧
    encode (.rotateDxt5 2) = 0xA3 ∧ encode (.rotateDxt5 3) = 0xE3 := by decide

/-- The assembler's spellings (rules R64 and R65). -/
theorem test_assemble :
    assemble "ROTATE.DXT5 1" = some (.rotateDxt5 1) ∧
    assemble "ROTATE.DXT1 #270" = some (.rotateDxt1 3) ∧
    assemble "ROTCCW.DXT1" = some (.rotateDxt1 3) ∧ assemble "COPY.DXT3" = some .flipvDxt3 ∧
    assemble "ROTATE.DXT3 1" = none ∧ assemble "NOP.DXT1" = none := by decide

theorem test_decodeTableWord :
    decodeTableWord 32 0x15 = some .flipvDxt3 ∧ decodeTableWord 32 0x14 = none := by decide

/-! ### Commands -/

/-- The example of rule R100. -/
theorem test_nop : nextOf (exec .nop (unit 16 1 2 3 4))
    = some { unit 16 1 2 3 4 with status := 0 } := by decide

/-- V-QA-1. -/
theorem test_qalpha3Dxt3 :
    let s := unit 16 0x1F100F00 0xFFF08F80 0xFE01807F 0xAA55CC33
    nextOf (exec .qalpha3Dxt3 s) = outIs s 0xFF881100 0xA5C3F087 0 0 := by decide

/-- V-QA-5. -/
theorem test_qalpha3Dxt3_short :
    nextOf (exec .qalpha3Dxt3 (unit 15 1 2 3 4)) = some { unit 15 1 2 3 4 with status := 4 } := by
  decide

set_option maxRecDepth 4000 in
/-- V-DEC1-1. -/
theorem test_decodeDxt1_fourColour :
    let s := unit 8 0x001FFFE0 0xB14E1BE4 0 0
    nextOf (exec .decodeDxt1 s) = some { s with
      status := 0x10
      cpal := #v[0x0000FFFF, 0x00FF0000, 0x0055AAAA, 0x00AA5555]
      tex := #v[0xFF00FFFF, 0xFFFF0000, 0xFF55AAAA, 0xFFAA5555,
        0xFFAA5555, 0xFF55AAAA, 0xFFFF0000, 0xFF00FFFF,
        0xFF55AAAA, 0xFFAA5555, 0xFF00FFFF, 0xFFFF0000,
        0xFFFF0000, 0xFF00FFFF, 0xFFAA5555, 0xFF55AAAA] } := by decide

set_option maxRecDepth 4000 in
/-- V-DEC1-4. -/
theorem test_decodeDxt1_threeColour :
    let t := nextOf (exec .decodeDxt1 (unit 8 0xF800001F 0xE4E4E4E4 0 0))
    t.map (·.cpal) = some #v[0x00FF0000, 0x000000FF, 0x007F007F, 0x00000000] ∧
    t.map (fun t => t.tex[7]) = some 0xFF000000 := by decide

set_option maxRecDepth 4000 in
/-- V-DEC3-1. -/
theorem test_decodeDxt3 :
    let t := nextOf (exec .decodeDxt3 (unit 16 0x76543210 0xFEDCBA98 0xFFFF07E0 0x1B1B1B1B))
    t.map (·.status) = some 0 ∧
    t.map (fun t => [t.tex[0], t.tex[1], t.tex[6], t.tex[15]])
      = some [0x00AAFFAA, 0x1155FF55, 0x66FFFFFF, 0xFF00FF00] := by decide

set_option maxRecDepth 4000 in
/-- V-DEC3-2. -/
theorem test_decodeDxt3_fourColour :
    let t := nextOf (exec .decodeDxt3 (unit 16 0xFFFFFFFF 0xFFFFFFFF 0xF800001F 0xFFFFFFFF))
    t.map (·.cpal) = some #v[0x00FF0000, 0x000000FF, 0x00AA0055, 0x005500AA] ∧
    t.map (·.tex) = some (Vector.replicate 16 0xFF5500AA) := by decide

set_option maxRecDepth 4000 in
/-- V-DEC5-1. -/
theorem test_decodeDxt5_sevenths :
    let t := nextOf (exec .decodeDxt5 (unit 16 0xC68800FF 0xFAC688FA 0x001FF800 0xE4E4E4E4))
    t.map (·.apalW) = some #v[0x92B600FF, 0x0024496D] ∧
    t.map (fun t => [t.tex[0], t.tex[2], t.tex[11], t.tex[13]])
      = some [0xFF0000FF, 0xB65500AA, 0x92AA0055, 0x49FF0000] := by decide

set_option maxRecDepth 4000 in
/-- V-DEC5-2. -/
theorem test_decodeDxt5_fifths :
    let t := nextOf (exec .decodeDxt5 (unit 16 0xC688FF00 0xFAC688FA 0xFFFF07E0 0x1B1B1B1B))
    t.map (·.apalW) = some #v[0x6633FF00, 0xFF00CC99] ∧
    t.map (fun t => [t.tex[3], t.tex[6], t.tex[7], t.status])
      = some [0x6600FF00, 0x00FFFFFF, 0xFF00FF00, 0] := by decide

/-- V-ROT1-5. -/
theorem test_rotateDxt1_90 :
    let s := unit 8 0x001FFFE0 0xB14E1BE4 5 6
    nextOf (exec (.rotateDxt1 1) s) = outIs s 0x001FFFE0 0xC6936C39 0 0 := by decide

/-- V-ROT1-7. -/
theorem test_rotateDxt1_270 :
    let s := unit 8 0x001FFFE0 0xB14E1BE4 5 6
    nextOf (exec (.rotateDxt1 3) s) = outIs s 0x001FFFE0 0x6C39C693 0 0 := by decide

/-- V-ROT5-4. -/
theorem test_rotateDxt5_90 :
    let s := unit 16 0xC68800FF 0xFAC688FA 0x001FF800 0xE4E4E4E4
    nextOf (exec (.rotateDxt5 1) s) = outIs s 0xD10400FF 0x7DF59634 0x001FF800 0xFFAA5500 := by
  decide

/-- V-ROT5-6. -/
theorem test_rotateDxt5_270 :
    let s := unit 16 0xC68800FF 0xFAC688FA 0x001FF800 0xE4E4E4E4
    nextOf (exec (.rotateDxt5 3) s) = outIs s 0x2EFB00FF 0x820A69CB 0x001FF800 0x0055AAFF := by
  decide

/-- V-FH1-2. -/
theorem test_fliphDxt1 :
    let s := unit 8 0x001FFFE0 0xB14E1BE4 5 6
    nextOf (exec .fliphDxt1 s) = outIs s 0x001FFFE0 0x4EB1E41B 0 0 := by decide

/-- V-FH5-2. -/
theorem test_fliphDxt5 :
    let s := unit 16 0xC68800FF 0xFAC688FA 0x001FF800 0xE4E4E4E4
    nextOf (exec .fliphDxt5 s) = outIs s 0x705300FF 0x97705397 0x001FF800 0x1B1B1B1B := by decide

/-- V-FV1-1. -/
theorem test_flipvDxt1 :
    let s := unit 8 0x001FFFE0 0xB14E1BE4 5 6
    nextOf (exec .flipvDxt1 s) = outIs s 0x001FFFE0 0xB14E1BE4 0 0 := by decide

/-- V-FV3-1. -/
theorem test_flipvDxt3 :
    let s := unit 16 0x76543210 0xFEDCBA98 0xFFFF07E0 0x1B1B1B1B
    nextOf (exec .flipvDxt3 s) = outIs s 0x76543210 0xFEDCBA98 0xFFFF07E0 0x1B1B1B1B := by decide

/-- V-FV5-1. -/
theorem test_flipvDxt5 :
    let s := unit 16 0xC68800FF 0xFAC688FA 0x001FF800 0xE4E4E4E4
    nextOf (exec .flipvDxt5 s) = outIs s 0xC68800FF 0xFAC688FA 0x001FF800 0xE4E4E4E4 := by decide

/-- V-TE-1 to V-TE-3. -/
theorem test_transform_short :
    let short := fun i n => nextOf (exec i (unit n 1 2 3 4))
    let err := fun n => some { unit n 1 2 3 4 with status := 4 }
    short (.rotateDxt1 1) 7 = err 7 ∧ short .flipvDxt3 8 = err 8 ∧ short .fliphDxt5 15 = err 15 := by
  decide

/-- V-DEC1-7, V-DEC3-4 and V-DEC5-5. -/
theorem test_decode_short :
    let short := fun i n => nextOf (exec i (unit n 1 2 3 4))
    let zero := fun n => some { unit n 1 2 3 4 with tex := Vector.replicate 16 0, status := 8 }
    short .decodeDxt1 7 = zero 7 ∧ short .decodeDxt3 15 = zero 15 ∧ short .decodeDxt5 0 = zero 0 := by
  decide

/-- S1 (rule R70). -/
theorem test_unpack565 :
    unpack565 0xF800 = ⟨255, 0, 0⟩ ∧ unpack565 0x07E0 = ⟨0, 255, 0⟩ ∧
    unpack565 0x001F = ⟨0, 0, 255⟩ ∧ unpack565 0x8410 = ⟨132, 130, 132⟩ := by decide

/-- V-AP-3 to V-AP-8. -/
theorem test_alphaPalette :
    let row := fun a0 a1 => (List.range 8).map (alphaPalette a0 a1)
    row 200 100 = [200, 100, 171, 157, 143, 129, 114, 100] ∧
    row 100 200 = [100, 200, 120, 140, 160, 180, 0, 255] ∧
    row 7 7 = [7, 7, 7, 7, 7, 7, 0, 255] ∧ row 1 0 = [1, 0, 1, 1, 0, 0, 0, 0] ∧
    row 0 1 = [0, 1, 0, 0, 1, 1, 0, 255] ∧
    row 255 254 = [255, 254, 255, 255, 254, 254, 254, 254] := by decide

/-! ### The register window -/

/-- The unit after one host write. -/
def wrote (r : Reg) (v : Word) (s : State) : Option State := nextOf (perform (Access.wr 0 r.offset v) s)

/-- V-REG-1. -/
theorem test_reset : State.reset.inlen = 0 ∧ State.reset.tex = Vector.replicate 16 0 ∧
    State.reset.outW = Vector.replicate 4 0 := by decide

/-- V-REG-2 to V-REG-4. -/
theorem test_inlen :
    (wrote .inlen 0x1F (unit 8 1 2 3 4)).map (·.inlen) = some 16 ∧
    (wrote .inlen 0xFFFFFFE5 (unit 8 1 2 3 4)).map (·.inlen) = some 5 ∧
    (wrote .inlen 0x11 (unit 8 1 2 3 4)).map (·.inlen) = some 16 := by decide

/-- V-REG-5 and V-REG-6. -/
theorem test_ignored_writes :
    wrote .status 0xFFFFFFFF State.reset = some State.reset ∧
    nextOf (perform (Access.wr 0 0x0C 0x12345678) State.reset) = some State.reset ∧
    nextOf (perform (Access.wr 0 0x98 1) State.reset) = some State.reset := by decide

/-- Rule R39: a read returns the register and changes none. -/
theorem test_read_out : nextOf (perform (Access.rd 0 0x28) (unit 8 1 2 3 4))
    = some { unit 8 1 2 3 4 with readData := some 0x11111111 } := by decide

/-- V-ERR-2 and the CMD read of P5. -/
theorem test_illegal_word_is_kept : nextOf (perform (Access.wr 0 0 0x10F) (unit 16 1 2 3 4))
    = some { unit 16 1 2 3 4 with cmd := 0x10F, status := 1 } := by decide

/-- V-REG-8. -/
theorem test_nop_clears_error :
    (wrote .cmd 0x100 State.reset).map (·.status) = some 2 ∧
    ((wrote .cmd 0x100 State.reset).bind (wrote .cmd 0)).map (fun s => (s.cmd, s.status))
      = some (0, 0) := by decide

set_option maxRecDepth 4000 in
/-- V-REG-7. -/
theorem test_apal_kept : (wrote .cmd 0x01 { unit 8 0x001FF800 0xE4E4E4E4 0 0 with
    apalW := #v[0x92B600FF, 0x0024496D] }).map (fun s => s.apalW[0]) = some 0x92B600FF := by decide

/-- Rule R24: a byte access and a misaligned one are refused. -/
theorem test_access_shape :
    refusalOf (perform ⟨0, .read, 0, 1⟩ State.reset) = some .accessShape ∧
    refusalOf (perform ⟨0, .write 1, 2, 4⟩ State.reset) = some .accessShape ∧
    faultOf (perform ⟨0, .read, 256, 4⟩ State.reset) = some .outsideWindow := by decide

/-- The first two writes of P1 as a step each, and the command as the first step after reset (P5). -/
theorem test_step :
    (nextOf (step { State.reset with pending := [.access (Access.wr 0 0x10 0x001FFFE0)] })).map
      (fun s => (s.inW[0], s.pending)) = some (0x001FFFE0, []) ∧
    (nextOf (step (State.reset.withFetchWord 32 0x43))).map (fun s => (s.cmd, s.status))
      = some (0x43, 4) := by decide

/-- Rules R41 and R119. -/
theorem test_two_agents : refusalOf (step { State.reset with
    pending := [.access (Access.wr 0 0 0), .access (Access.rd 1 4)] })
    = some .agentsInterleave := by decide

/-- The first lines of P5 as accesses (rule R64). -/
theorem test_host_line :
    (HostLine.run (.rotateDxt1 1)).toAccess 0 = ⟨0, .write 0x43, 0x00, 4⟩ ∧
    (HostLine.rd (.tex 3)).toAccess 0 = ⟨0, .read, 0x4C, 4⟩ := by decide

/-! ### Image sequences -/

/-- The image of P4: the blocks of V-DEC1-2 and V-DEC1-1. -/
def imageP4 : List Byte :=
  [0x00, 0xF8, 0x1F, 0x00, 0xE4, 0xE4, 0xE4, 0xE4, 0xE0, 0xFF, 0x1F, 0x00, 0xE4, 0x1B, 0x4E, 0xB1]

/-- The result of a sequence from reset. -/
def result (o : Host.Outcome (State × List Byte) Fault Refusal) : Option (List Byte) :=
  (nextOf o).map (·.2)

set_option maxRecDepth 100000 in
/-- P4, the rotation of the image. -/
theorem test_rotateImage : result (rotateImage .dxt1 imageP4 8 4 1 State.reset)
    = some [0x00, 0xF8, 0x1F, 0x00, 0x00, 0x55, 0xAA, 0xFF,
      0xE0, 0xFF, 0x1F, 0x00, 0x39, 0x6C, 0x93, 0xC6] := by decide

set_option maxRecDepth 100000 in
/-- V-HOST-2. -/
theorem test_decodeImage_edge : result (decodeImage .dxt1 (fun _ => 0) imageP4 5 1 State.reset)
    = some [0xFF, 0x00, 0x00, 0x00, 0x00, 0xFF, 0xAA, 0x00, 0x55, 0x55, 0x00, 0xAA,
      0xFF, 0xFF, 0x00] := by decide

set_option maxRecDepth 100000 in
/-- V-HOST-1: the first row. -/
theorem test_decodeImage_short :
    (result (decodeImage .dxt1 (fun _ => 0x77) (imageP4.take 12) 8 4 State.reset)).map (·.take 24)
    = some ([0xFF, 0x00, 0x00, 0x00, 0x00, 0xFF, 0xAA, 0x00, 0x55, 0x55, 0x00, 0xAA]
      ++ List.replicate 12 0) := by decide

/-- The rotation of P4, under way from reset on a system of `n` units. -/
def rotateTurns (n : Nat) (turns : Sequence → List Turn) : Host.Outcome Progress Fault Refusal :=
  andThen (rotateSequence .dxt1 imageP4 8 4 1) fun q =>
    runTurns q (turns q) (.begin q ⟨List.replicate n State.reset⟩)

set_option maxRecDepth 100000 in
/-- P4, the rotation of the image, its last block first and on another unit (rule R44). -/
theorem test_rotate_on_two_units :
    (nextOf (rotateTurns 2 fun q => planTurns q [(1, 1), (0, 0)])).map (·.out)
    = some [0x00, 0xF8, 0x1F, 0x00, 0x00, 0x55, 0xAA, 0xFF,
      0xE0, 0xFF, 0x1F, 0x00, 0x39, 0x6C, 0x93, 0xC6] := by decide

/-- P4 on one unit that is reset after IN and INLEN are written: the host takes the block anew. -/
def resetAndTakeAnew (q : Sequence) : List Turn :=
  .take 0 0 :: List.replicate 3 (.act 0) ++ .reset 0 :: planTurns q [(0, 0), (0, 1)]

/-- The same reset, after which the host goes on. -/
def resetAndGoOn : List Turn := .take 0 0 :: List.replicate 3 (.act 0) ++ [.reset 0, .act 0, .act 0]

set_option maxRecDepth 100000 in
/-- P4, the rotation of the image, with a reset in its first block (rule R114). -/
theorem test_rotate_with_reset : (nextOf (rotateTurns 1 resetAndTakeAnew)).map (·.out)
    = some [0x00, 0xF8, 0x1F, 0x00, 0x00, 0x55, 0xAA, 0xFF,
      0xE0, 0xFF, 0x1F, 0x00, 0x39, 0x6C, 0x93, 0xC6] := by decide

set_option maxRecDepth 100000 in
/-- Rules R101, R114 and R116: INLEN is 0 after the reset, so the ROTATE ends with ERR_TRUNC. -/
theorem test_rotate_going_on_after_reset :
    faultOf (rotateTurns 1 fun _ => resetAndGoOn) = some .unitError := by decide

/-- The host faults of P6. -/
theorem test_host_faults :
    faultOf (rotateImage .dxt1 imageP4 6 4 1 State.reset) = some .invalidDimensions ∧
    faultOf (rotateImage .dxt1 imageP4 8 8 1 State.reset) = some .truncatedInput ∧
    faultOf (flipImageV imageP4 8 4 12 State.reset) = some .badBlockSize := by decide

/-- Rule R47: a padded texel has alpha 0, a texel of an RGB source alpha 255. -/
theorem test_sampleTexel :
    sampleTexel [1, 2, 3] 1 1 .rgb 0 0 0 = ⟨1, 2, 3, 255⟩ ∧
    sampleTexel [1, 2, 3] 1 1 .rgb 0 0 1 = ⟨0, 0, 0, 0⟩ ∧
    sampleTexel [1, 2, 3, 4] 1 1 .rgba 0 0 0 = ⟨1, 2, 3, 4⟩ := by decide

/-- Rule R40 with two windows. -/
theorem test_locate : locate [0x1000, 0x2000] 0x2004 = some (1, 4) ∧
    locate [0x1000, 0x2000] 0x1100 = none := by decide

/-! ### Witnesses: the hypotheses of every obligation can be met -/

/-- A queue of one write to CMD. -/
def posted (v : Word) : State := { unit 8 1 2 3 4 with pending := [.access ⟨0, .write v, 0x00, 4⟩] }

theorem witness_DecodeOfEncodeGivesTheCommand :
    (Instr.rotateDxt5 3).WellFormed ∧ Instr.nop.WellFormed := by decide

theorem witness_ErrorWritesOnlyStatusAndKeepsTheWord :
    decode 0x0000010F = .error .badOp ∧
    (decode 0x25 = .ok .flipvDxt5 ∧ Instr.flipvDxt5 ≠ .nop ∧ decodeSize .flipvDxt5 = none ∧
      (unit 15 1 2 3 4).inlen.toNat < 16 ∧ (0x25#32).toNat / 16 % 4 ≠ 0) ∧
    (decode 0x05 = .ok .flipvDxt1 ∧ decodeSize .flipvDxt1 = none ∧
      (unit 7 1 2 3 4).inlen.toNat < 8 ∧ (0x05#32).toNat / 16 % 4 = 0) := by decide

theorem witness_EveryCommandWordGetsItsErrorCode :
    errorOf 0x13 16 = 3 ∧ errorOf 0x43 7 = 4 ∧ errorOf 0x43 8 = 0 := by decide

theorem witness_StepRunsTheDecodedCommand :
    (posted 0x43).pending = .access ⟨0, .write 0x43, 0x00, 4⟩ :: [] ∧
    agentsInterleave (posted 0x43).pending = false ∧ decode 0x43 = .ok (.rotateDxt1 1) ∧
    (posted 0x06).pending = .access ⟨0, .write 0x06, 0x00, 4⟩ :: [] ∧
    agentsInterleave (posted 0x06).pending = false ∧ decode 0x06 = .error .badOp := by decide

/-- The first and last offset of each clause. -/
theorem witness_ReservedAndReadOnlyOffsetsIgnoreWrites :
    (∀ off ∈ [0x0C, 0x30, 0x3C, 0x98, 0xFC], off % 4 = 0 ∧ off < 256 ∧
      (off = 0x0C ∨ (0x30 ≤ off ∧ off ≤ 0x3C) ∨ 0x98 ≤ off)) ∧
    (∀ off ∈ [0x04, 0x20, 0x2C, 0x40, 0x7C, 0x80, 0x8C, 0x90, 0x94], off % 4 = 0 ∧ off < 256 ∧
      (off = 0x04 ∨ (0x20 ≤ off ∧ off < 0x30) ∨ (0x40 ≤ off ∧ off < 0x98))) := by decide

theorem witness_OnlyAlignedWordAccessesArePerformed :
    let a : Access := ⟨0, .read, 0xFC, 4⟩
    let b : Access := ⟨0, .read, 0x100, 4⟩
    let c : Access := ⟨0, .read, 0xFD, 4⟩
    (a.width = 4 ∧ a.offset % 4 = 0 ∧ a.offset < 256) ∧
    (b.width = 4 ∧ b.offset % 4 = 0 ∧ 256 ≤ b.offset) ∧ c.offset % 4 ≠ 0 := by decide

/-- The ends of the two ranges of a count. -/
theorem witness_InlenWriteStoresALegalCount :
    (wrote .inlen 16 State.reset).map (·.inlen) = some 16 ∧
    (wrote .inlen 17 State.reset).map (·.inlen) = some 16 ∧
    (wrote .inlen 32 State.reset).map (·.inlen) = some 0 := by decide

theorem witness_InWriteReplacesFourBytes :
    nextOf (runCommand 0 (unit 8 1 2 3 4)) = some { unit 8 1 2 3 4 with status := 0 } ∧
    (15 : Nat) / 4 ≠ (0 : Fin 4).val := by decide

theorem witness_TwoPendingAgentsAreRefused :
    let s := { State.reset with pending := [.access (Access.wr 0 0 0), .access (Access.rd 1 4)] }
    Event.access (Access.wr 0 0 0) ∈ s.pending ∧ Event.access (Access.rd 1 4) ∈ s.pending ∧
    (Access.wr 0 0 0).agent ≠ (Access.rd 1 4).agent := by decide

theorem witness_IdleStepKeepsTheState : (unit 8 1 2 3 4).pending = [] := by decide

/-- A step that no reset and none of the three writes starts: a read. -/
theorem witness_RegistersChangeOnlyByTheirWrites :
    let s := { State.reset with pending := [.access ⟨0, .read, 0x04, 4⟩] }
    (nextOf (step s)).isSome ∧ (∀ rest, s.pending ≠ .reset :: rest) ∧
    (∀ ag v rest, s.pending ≠ .access ⟨ag, .write v, 0x00, 4⟩ :: rest) ∧
    (∀ ag v rest, s.pending ≠ .access ⟨ag, .write v, 0x08, 4⟩ :: rest) ∧
    ∀ ag v rest, ∀ j : Fin 4,
      s.pending ≠ .access ⟨ag, .write v, 0x10 + 4 * j.val, 4⟩ :: rest := by
  refine ⟨by decide, ?_, ?_, ?_, ?_⟩ <;> intros <;> exact fun h => by simp at h

theorem witness_RepeatingACommandChangesNothing :
    (nextOf (runCommand 0x43 (unit 8 1 2 3 4))).isSome := by decide

theorem witness_PendingAccessesAreWorkedOff :
    let s := { State.reset with
      pending := [.access (Access.wr 0 0xFC 1), .reset, .access (Access.rd 0 0)] }
    (∀ e ∈ s.pending, e.wellShaped = true) ∧ agentsInterleave s.pending = false := by decide

theorem witness_ResetSetsEveryRegisterToZero :
    let s := { unit 8 1 2 3 4 with pending := [.reset, .access (Access.rd 0 0)] }
    s.pending = .reset :: [.access (Access.rd 0 0)] ∧ agentsInterleave s.pending = false := by decide

theorem witness_StepKeepsRegisterBounds :
    (posted 0x43).InBounds ∧ (nextOf (step (posted 0x43))).isSome := by decide

theorem witness_StepKeepsStatusFittingCmd :
    let s := { posted 0x43 with cmd := 0x31 }
    s.StatusFitsCmd ∧ (nextOf (step s)).isSome := by decide

theorem witness_NopClearsStatusOnly :
    (0x10#32).toNat % 16 = 0 ∧ 0x10#32 ≠ 0x00000000#32 ∧ (0x80000000#32).toNat % 16 = 0 := by decide

theorem witness_QuantizerPacksHighNibbles :
    16 ≤ (unit 16 1 2 3 4).inlen.toNat ∧ (unit 15 1 2 3 4).inlen.toNat < 16 := by decide

/-- Both palette modes: equal endpoints give the 3-colour mode. -/
theorem witness_DecodeDxt1LooksUpThePalette :
    8 ≤ (unit 8 0x001FFFE0 2 3 4).inlen.toNat ∧ (unit 7 1 2 3 4).inlen.toNat < 8 ∧
    inU16 (unit 8 0x001FFFE0 2 3 4) 2 < inU16 (unit 8 0x001FFFE0 2 3 4) 0 ∧
    ¬ inU16 (unit 8 0xF800F800 2 3 4) 2 < inU16 (unit 8 0xF800F800 2 3 4) 0 := by decide

theorem witness_DecodeDxt3LooksUpThePalette :
    16 ≤ (unit 16 1 2 3 4).inlen.toNat ∧ (unit 15 1 2 3 4).inlen.toNat < 16 := by decide

theorem witness_DecodeDxt5LooksUpBothPalettes :
    16 ≤ (unit 16 1 2 3 4).inlen.toNat ∧ (unit 15 1 2 3 4).inlen.toNat < 16 := by decide

theorem witness_RotateDxt1MovesTheIndices :
    (3 < 4) ∧ 8 ≤ (unit 8 1 2 3 4).inlen.toNat ∧ (unit 7 1 2 3 4).inlen.toNat < 8 := by decide

theorem witness_RotateDxt5MovesCodesAndIndices :
    (3 < 4) ∧ 16 ≤ (unit 16 1 2 3 4).inlen.toNat ∧ (unit 15 1 2 3 4).inlen.toNat < 16 := by decide

theorem witness_FlipHDxt1MirrorsTheColumns :
    8 ≤ (unit 8 1 2 3 4).inlen.toNat ∧ (unit 7 1 2 3 4).inlen.toNat < 8 := by decide

theorem witness_FlipHDxt5MirrorsTheColumns :
    16 ≤ (unit 16 1 2 3 4).inlen.toNat ∧ (unit 15 1 2 3 4).inlen.toNat < 16 := by decide

theorem witness_FlipVCopiesTheBlock :
    8 ≤ (unit 8 1 2 3 4).inlen.toNat ∧ (unit 7 1 2 3 4).inlen.toNat < 8 ∧
    16 ≤ (unit 16 1 2 3 4).inlen.toNat ∧ (unit 15 1 2 3 4).inlen.toNat < 16 := by decide

theorem witness_ShortDecodeGivesTheZeroTile :
    decodeSize .decodeDxt5 = some 16 ∧ (unit 15 1 2 3 4).inlen.toNat < 16 ∧
    decodeSize .decodeDxt1 = some 8 ∧ (unit 7 1 2 3 4).inlen.toNat < 8 ∧
    (nextOf (exec .decodeDxt1 (unit 7 1 2 3 4))).isSome := by decide

/-- Both alpha tables, at neighbouring endpoints. -/
theorem witness_AlphaPaletteRoundsToTheNearest :
    let s := unit 16 0x000000FF 2 3 4
    let u := unit 16 0x0000FFFF 2 3 4
    16 ≤ s.inlen.toNat ∧ inB s 1 < inB s 0 ∧ inB u 0 ≤ inB u 1 := by decide

theorem witness_CommandsWriteOnlyTheirRegisters :
    decodeSize .nop = none ∧ decodeSize .decodeDxt3 = some 16 ∧
    (unit 15 1 2 3 4).inlen.toNat < 16 ∧ Instr.decodeDxt3 ≠ .decodeDxt5 ∧
    (nextOf (exec .qalpha3Dxt3 (unit 15 1 2 3 4))).map (·.status) = some 4 := by decide

/-- Two units that agree on INLEN and IN alone. -/
theorem witness_ResultsDependOnlyOnInlenAndIn :
    let s := unit 8 1 2 3 4
    let u := { State.reset with inlen := 8, inW := #v[1, 2, 3, 4] }
    s.inlen = u.inlen ∧ s.inW = u.inW ∧ s.outW ≠ u.outW ∧ s.tex ≠ u.tex := by decide

theorem witness_DecodeOfAMovedBlockMovesTheTexels :
    gridBytes .dxt1 ≤ (unit 8 1 2 3 4).inlen.toNat ∧
    gridBytes .dxt5 ≤ (unit 16 1 2 3 4).inlen.toNat ∧
    rotateCommand .dxt5 3 = .rotateDxt5 3 ∧ fliphCommand .dxt1 = .fliphDxt1 ∧
    flipvCommand .dxt5 = .flipvDxt5 := by decide

theorem witness_RotationsComposeAndFlipHUndoesItself :
    gridBytes .dxt1 ≤ (unit 8 1 2 3 4).inlen.toNat ∧
    gridBytes .dxt5 ≤ (unit 16 1 2 3 4).inlen.toNat := by decide

theorem witness_EndpointSwapKeepsFourColourTexels : 16 ≤ (unit 16 1 2 3 4).inlen.toNat := by decide

theorem witness_QuantizedAlphaDecodesToSeventeenths : 16 ≤ (unit 16 1 2 3 4).inlen.toNat := by
  decide

/-- Sides, block sizes and lengths on both sides of every check. -/
theorem witness_SequencesFaultExactlyAsListed :
    6 % 4 ≠ 0 ∧ 8 % 4 = 0 ∧ 4 % 4 = 0 ∧ imageP4.length = 8 / 4 * (4 / 4) * gridBytes .dxt1 ∧
    (imageP4.take 15).length < 8 / 4 * (4 / 4) * gridBytes .dxt1 ∧ 12 ≠ 8 ∧ 12 ≠ 16 := by decide

/-- The last pixel of P6's short image: block 1, of which the buffer holds four bytes. -/
theorem witness_DecodedImageShowsEveryBlocksTexels :
    let d := imageP4.take 12
    let u := unit 4 0x001FFFE0 0 0 0
    7 < 8 ∧ 3 < 4 ∧ 2 < 3 ∧ u.inlen.toNat = min (d.length - (3 / 4 * ((8 + 3) / 4) + 7 / 4) * 8) 8 ∧
    (∀ m < 8, (3 / 4 * ((8 + 3) / 4) + 7 / 4) * 8 + m < d.length →
      inB u m = buf d ((3 / 4 * ((8 + 3) / 4) + 7 / 4) * 8 + m)) ∧
    (nextOf (exec (decodeCommand .dxt1) u)).isSome := by decide

theorem witness_QuantizedImageHoldsEveryBlocksNibbles :
    (List.replicate 60 (0 : Byte)).length = 5 * 4 * (if Channels.rgb = .rgb then 3 else 4) ∧
    (List.replicate 80 (0 : Byte)).length = 5 * 4 * (if Channels.rgba = .rgb then 3 else 4) ∧
    (List.replicate 32 (0 : Byte)).length = (5 + 3) / 4 * ((4 + 3) / 4) * 16 ∧
    1 < (5 + 3) / 4 ∧ 0 < (4 + 3) / 4 := by decide

/-- A grid of two blocks, and every value of k. -/
theorem witness_RotatedImageMovesEveryBlock :
    8 % 4 = 0 ∧ 4 % 4 = 0 ∧ 8 / 4 * (4 / 4) * gridBytes .dxt1 ≤ imageP4.length ∧ 1 < 8 / 4 ∧
    0 < 4 / 4 ∧ (4 : Int) % 4 = (0 : Nat) ∧ (5 : Int) % 4 = (1 : Nat) ∧ (-2 : Int) % 4 = (2 : Nat) ∧
    (-1 : Int) % 4 = (3 : Nat) := by decide

theorem witness_FlippedImagesMoveEveryBlock :
    8 % 4 = 0 ∧ 4 % 4 = 0 ∧ 8 / 4 * (4 / 4) * gridBytes .dxt1 ≤ imageP4.length ∧
    4 / 4 * (4 / 4) * gridBytes .dxt5 ≤ imageP4.length := by decide

theorem witness_FlipImageHTwiceGivesTheImageBack :
    8 % 4 = 0 ∧ 4 % 4 = 0 ∧ imageP4.length = 8 / 4 * (4 / 4) * gridBytes .dxt1 ∧
    imageP4.length = 4 / 4 * (4 / 4) * gridBytes .dxt5 := by decide

theorem witness_ImageRotationsAddUp :
    8 % 4 = 0 ∧ 4 % 4 = 0 ∧ 8 / 4 * (4 / 4) * gridBytes .dxt1 ≤ imageP4.length ∧
    (-4 : Int) % 4 = 0 := by decide

theorem witness_RotatedImageDecodesToRotatedPixels :
    8 % 4 = 0 ∧ 4 % 4 = 0 ∧ 8 / 4 * (4 / 4) * gridBytes .dxt1 ≤ imageP4.length ∧ 7 < 8 ∧ 3 < 4 ∧
    (5 : Int) % 4 = 1 ∧ (2 : Int) % 4 = 2 ∧ (-1 : Int) % 4 = 3 := by decide

theorem witness_FlippedImagesDecodeToMovedPixels :
    8 % 4 = 0 ∧ 4 % 4 = 0 ∧ 8 / 4 * (4 / 4) * gridBytes .dxt1 ≤ imageP4.length ∧ 7 < 8 ∧ 3 < 4 := by
  decide

theorem witness_UnitsStepIndependently :
    let sys : System := ⟨[posted 0x43, posted 0x05]⟩
    0 ≠ 1 ∧ (nextOf (System.stepUnit 0 sys)).isSome ∧ (nextOf (System.stepUnit 1 sys)).isSome := by
  decide

/-- The rotation of P4, as a sequence of two blocks. -/
def sequenceP4 : Sequence :=
  (nextOf (rotateSequence .dxt1 imageP4 8 4 1)).getD ⟨[], []⟩

theorem sequenceP4_isImageSequence : IsImageSequence sequenceP4 :=
  .inr (.inr (.inl ⟨.dxt1, imageP4, 8, 4, 1, rfl⟩))

theorem witness_AnyBlockOrderOnAnyUnitsGivesTheSameBuffer :
    let sys : System := ⟨[State.reset, State.reset]⟩
    let plan := [(1, 1), (0, 0)]
    IsImageSequence sequenceP4 ∧ (∀ b ∈ plan, b.1 < sys.units.length) ∧
    ∀ k < sequenceP4.blocks.length, ∃ u, (u, k) ∈ plan := by
  refine ⟨sequenceP4_isImageSequence, by decide, fun k hk => ?_⟩
  have h : k < 2 := hk
  rcases (by omega : k = 0 ∨ k = 1) with rfl | rfl
  · exact ⟨0, by decide⟩
  · exact ⟨1, by decide⟩

set_option maxRecDepth 100000 in
/-- A reset in a block, after which the block is taken anew, and every block done in the end. -/
theorem witness_ResetSequencesContinueCorrectlyAfterRewriting :
    IsImageSequence sequenceP4 ∧
    (∀ t ∈ resetAndTakeAnew sequenceP4, t.unit < (System.mk [State.reset]).units.length) ∧
    rewritesAfterReset (resetAndTakeAnew sequenceP4) = true ∧
    (nextOf (rotateTurns 1 resetAndTakeAnew)).map (·.done) = some [1, 0] :=
  ⟨sequenceP4_isImageSequence, by decide, by decide, by decide⟩

theorem witness_ResetDuringASequenceKeepsCopiedOutputs :
    (Progress.begin sequenceP4 ⟨[State.reset]⟩).workers[0]? = some ⟨State.reset, none⟩ := by decide

/-- The CMD write of a block of a transform, and of a decode with the place its first texel goes to and
a byte that none of its texels goes to. -/
theorem witness_GoingOnAfterAResetLosesTheBlock :
    let d := decodeSequence .dxt1 (fun _ => 0) imageP4 8 4
    IsImageSequence sequenceP4 ∧ IsImageSequence d ∧
    (Progress.begin sequenceP4 ⟨[State.reset]⟩).workers[0]? = some ⟨State.reset, none⟩ ∧
    (sequenceP4.blocks[1]?.bind (·[3]?)) = some (.write .cmd 0x43) ∧
    decode 0x43 = .ok (.rotateDxt1 1) ∧ decodeSize (.rotateDxt1 1) = none ∧
    (d.blocks[1]?.bind (·[3]?)) = some (.write .cmd 0x01) ∧ decode 0x01 = .ok .decodeDxt1 ∧
    (decodeSize .decodeDxt1).isSome ∧
    (d.blocks[1]?.bind (·[5]?)) = some (.copy (.tex 0) 12 3) ∧
    ∀ a ∈ d.blocks.getD 1 [], ∀ r off m, a = .copy r off m → 11 < off ∨ off + m ≤ 11 := by
  refine ⟨sequenceP4_isImageSequence, .inl ⟨_, _, _, _, _, rfl⟩, by decide, by decide, by decide,
    by decide, by decide, by decide, by decide, by decide, ?_⟩
  have h : ((decodeSequence .dxt1 (fun _ => 0) imageP4 8 4).blocks.getD 1 []).all (fun a =>
      match a with
      | .write _ _ => true
      | .check => true
      | .copy _ off m => decide (11 < off ∨ off + m ≤ 11)) = true := by decide
  rintro a ha r off m rfl
  simpa using List.all_eq_true.1 h _ ha

/-- The last offset of the second of two windows that touch. -/
theorem witness_AccessReachesTheUnitOfItsWindow :
    let p : Config.Platform := ⟨[0x1000, 0x1100]⟩
    p.WellFormed ∧ p.bases[1]? = some 0x1100 ∧ (System.reset p).units[1]? = some State.reset ∧
    255 < 256 := by decide

end Sys2Proof.Tests
end

/-! ## The register window, and the registers that a command may write

First the rules for one access, for one command's result and for one step, then the obligations on
the unit's state (spec 10_state.md). -/

namespace Sys2Proof.Proofs

open Sys2Proof.Machine Sys2Proof.Claims Sys2Proof.Laws

/-! ### Offsets of the window -/

/-- An aligned offset that is a register's is the offset of that register (rule R14). -/
theorem offset_ofOffset {off : Nat} (ha : off % 4 = 0) (hr : Reg.ofOffset off ≠ .reserved) :
    (Reg.ofOffset off).offset = off := by
  unfold Reg.ofOffset at hr ⊢
  split_ifs at hr ⊢
  all_goals simp only [Reg.offset, Fin.ofNat]
  case neg => exact absurd rfl hr
  all_goals omega

theorem eq_offset_of_ofOffset {off : Nat} {r : Reg} (ha : off % 4 = 0) (hr : r ≠ .reserved)
    (h : Reg.ofOffset off = r) : off = r.offset := by
  subst h
  exact (offset_ofOffset ha hr).symm

/-- The offsets that rule R23 calls reserved are no register's. -/
theorem ofOffset_eq_reserved {off : Nat} (ha : off % 4 = 0)
    (h : off = 0x0C ∨ (0x30 ≤ off ∧ off ≤ 0x3C) ∨ 0x98 ≤ off) : Reg.ofOffset off = .reserved := by
  unfold Reg.ofOffset
  split_ifs
  case neg => rfl
  all_goals omega

/-! ### Writes of registers other than CMD -/

/-- Only CMD, INLEN and IN can be written by the host (rule R23). -/
theorem writeReg_ignored {r : Reg} (v : Word) (s : State) (hc : r ≠ .cmd) (hl : r ≠ .inlen)
    (hi : ∀ j, r ≠ .inW j) : s.writeReg v r = s := by
  cases r with
  | cmd => exact absurd rfl hc
  | inlen => exact absurd rfl hl
  | inW j => exact absurd rfl (hi j)
  | _ => rfl

/-- A write of a register other than CMD leaves CMD and the result registers (rules R17, R18 and
R23). -/
theorem writeReg_keeps_results {r : Reg} (v : Word) (s : State) (hc : r ≠ .cmd) :
    (s.writeReg v r).cmd = s.cmd ∧ (s.writeReg v r).status = s.status ∧
    (s.writeReg v r).outW = s.outW ∧ (s.writeReg v r).tex = s.tex ∧
    (s.writeReg v r).cpal = s.cpal ∧ (s.writeReg v r).apalW = s.apalW := by
  cases r with
  | cmd => exact absurd rfl hc
  | _ => exact ⟨rfl, rfl, rfl, rfl, rfl, rfl⟩

theorem writeReg_inlen_of_ne {r : Reg} (v : Word) (s : State) (h : r ≠ .inlen) :
    (s.writeReg v r).inlen = s.inlen := by
  cases r with
  | inlen => exact absurd rfl h
  | _ => rfl

theorem writeReg_inW_of_ne {r : Reg} (v : Word) (s : State) (h : ∀ j, r ≠ .inW j) :
    (s.writeReg v r).inW = s.inW := by
  cases r with
  | inW j => exact absurd rfl (h j)
  | _ => rfl

/-- No write can give INLEN more than 16 (rule R17). -/
theorem writeReg_inlen_le (r : Reg) (v : Word) {s : State} (h : s.inlen.toNat ≤ 16) :
    (s.writeReg v r).inlen.toNat ≤ 16 := by
  by_cases hr : r = .inlen
  · subst hr
    exact (clampInlen_toNat v).trans_le (Nat.min_le_right ..)
  · rwa [writeReg_inlen_of_ne v s hr]

/-- IN[i] after a write of IN_Wj (rule R18). -/
theorem inB_writeReg_inW (s : State) (j : Fin 4) (v : Word) (i : Nat) :
    inB (s.writeReg v (.inW j)) i =
      if i / 4 = j.val then bits v.toNat (8 * (i % 4)) 8 else inB s i := by
  rw [inB_eq, inB_eq, State.inByte, State.inByte, State.writeReg, byteOfWords_set]
  split_ifs
  · rw [byteAt_toNat]
  · rfl

/-! ### One access -/

theorem perform_of_badShape {a : Access} (s : State) (h : a.width ≠ 4 ∨ a.offset % 4 ≠ 0) :
    perform a s = .refused .accessShape := if_pos h

theorem perform_of_outside {a : Access} (s : State) (hw : a.width = 4) (ha : a.offset % 4 = 0)
    (h : 256 ≤ a.offset) : perform a s = .fault .outsideWindow := by
  have hshape : ¬ (a.width ≠ Config.accessBytes ∨ a.offset % 4 ≠ 0) := by
    simp [hw, ha, Config.accessBytes]
  exact (if_neg hshape).trans (if_pos h)

theorem perform_read {off : Nat} (ag : Nat) (s : State) (ha : off % 4 = 0) (h : off < 256) :
    perform ⟨ag, .read, off, 4⟩ s
      = .next { s with readData := some (s.readReg (Reg.ofOffset off)) } := by
  simp [perform, Config.accessBytes, Config.windowBytes, ha, Nat.not_le.mpr h, readWindow]

theorem perform_write {off : Nat} (ag : Nat) (v : Word) (s : State) (ha : off % 4 = 0)
    (h : off < 256) : perform ⟨ag, .write v, off, 4⟩ s = writeWindow off v s := by
  simp [perform, Config.accessBytes, Config.windowBytes, ha, Nat.not_le.mpr h]

/-- A write anywhere but at CMD, INLEN and IN changes nothing, so it starts no command (rule
R23). -/
theorem perform_write_ignored {off : Nat} (ag : Nat) (v : Word) (s : State) (ha : off % 4 = 0)
    (h : off < 256) (hc : off ≠ 0x00) (hl : off ≠ 0x08) (hi : ¬ (0x10 ≤ off ∧ off < 0x20)) :
    perform ⟨ag, .write v, off, 4⟩ s = .next s := by
  have hcmd : Reg.ofOffset off ≠ .cmd := fun e => hc (eq_offset_of_ofOffset ha (by simp) e)
  have hlen : Reg.ofOffset off ≠ .inlen := fun e => hl (eq_offset_of_ofOffset ha (by simp) e)
  have hin : ∀ j, Reg.ofOffset off ≠ .inW j := fun j e => by
    have : off = 0x10 + 4 * j.val := eq_offset_of_ofOffset ha (by simp) e
    omega
  rw [perform_write ag v s ha h, writeWindow]
  split
  · contradiction
  · rw [writeReg_ignored v s hcmd hlen hin]

/-! ### Words of CMD -/

theorem decode_eq_decodeDxt1_iff {v : Word} : decode v = .ok .decodeDxt1 ↔ v = 0x00000001#32 := by
  constructor
  · exact fun h => (eq_encode_of_decode h).2
  · rintro rfl
    decide

theorem encodingError_of_decode {v : Word} {e : ErrCode} (h : decode v = .error e) :
    encodingError v = some e := by
  rcases decode_cases v with ⟨c, hc, hd⟩ | ⟨i, -, -, hd⟩ <;> cases h.symm.trans hd
  exact hc

/-! ### Every command completes -/

/-- Every command completes: no result is a fault or a refusal (rule R29). -/
theorem exec_completes (i : Instr) (s : State) : ∃ t, exec i s = .next t := by
  cases i <;> exact ⟨_, rfl⟩

theorem runCommand_completes (v : Word) (s : State) : ∃ t, runCommand v s = .next t := by
  rcases runCommand_cases v s with ⟨i, _, h⟩ | ⟨e, _, h⟩
  · rw [h]; exact exec_completes ..
  · exact ⟨_, h⟩

/-! ### STATUS -/

@[simp] theorem statusDone_toNat : statusDone.toNat = 0 := rfl
@[simp] theorem statusThreeChannel_toNat : statusThreeChannel.toNat = 16 := rfl
@[simp] theorem statusShort_toNat : statusShort.toNat = 8 := rfl
@[simp] theorem statusError_toNat (e : ErrCode) : (statusError e).toNat = e.code := by
  cases e <;> rfl

theorem errCode_lt (e : ErrCode) : e.code < 8 := by cases e <;> decide

/-- STATUS after the command `i` on `n` bytes of input (rule R28). -/
def statusAfter (i : Instr) (n : Nat) : Word :=
  if n < blockSizeOf i then
    if (decodeSize i).isSome then statusShort else statusError .trunc
  else if i = .decodeDxt1 then statusThreeChannel
  else statusDone

/-- A command that writes OUT is neither NOP nor a DECODE. -/
theorem ne_nop_and_decodeSize_of_outOf {b out : Nat → Byte} {i : Instr} (h : outOf b i = some out) :
    i ≠ .nop ∧ decodeSize i = none := by
  cases i <;> simp_all [outOf, decodeSize]

theorem decodeSize_eq_some_iff {i : Instr} {size : Nat} : decodeSize i = some size ↔
    (i = .decodeDxt1 ∨ i = .decodeDxt3 ∨ i = .decodeDxt5) ∧ blockSizeOf i = size := by
  cases i <;> simp [decodeSize, blockSizeOf]

theorem decodeSize_of_isDecode {i : Instr}
    (h : i = .decodeDxt1 ∨ i = .decodeDxt3 ∨ i = .decodeDxt5) :
    decodeSize i = some (blockSizeOf i) := decodeSize_eq_some_iff.2 ⟨h, rfl⟩

theorem exec_status {i : Instr} {s t : State} (h : exec i s = .next t) :
    t.status = statusAfter i s.inlen.toNat := by
  unfold statusAfter
  rcases exec_cases i s with ⟨rfl, e⟩ | ⟨out, ho, hs, e⟩ | ⟨⟨out, ho⟩, hs, e⟩ | ⟨hi, hs, e⟩ |
    ⟨rfl, hs, e⟩ | ⟨rfl, hs, e⟩ | ⟨rfl, hs, e⟩ <;>
    obtain rfl := Host.Outcome.next.inj (h.symm.trans e)
  · rfl
  · have hd : i ≠ .decodeDxt1 := by rintro rfl; cases ho
    rw [if_neg (Nat.not_lt.2 hs), if_neg hd, putOut_status]
  · rw [if_pos hs, (ne_nop_and_decodeSize_of_outOf ho).2, raiseError_status]
    rfl
  · rw [if_pos hs, decodeSize_of_isDecode hi]
    rfl
  all_goals exact (if_neg (Nat.not_lt.2 hs)).symm

/-- The STATUS that a command leaves stands in its row of rule R28. -/
theorem statusAfter_mem {v : Word} {i : Instr} (h : decode v = .ok i) (n : Nat) :
    statusAfter i n ∈ statusValuesOf v := by
  unfold statusAfter statusValuesOf
  rw [h]
  cases i <;> simp only [blockSizeOf, decodeSize] <;> split_ifs <;> simp_all

/-- The flags of a command's STATUS: ERR, TRUNC, CH3 and the hardwired bits (rules R16 and R25). -/
theorem statusAfter_flags (i : Instr) (n : Nat) :
    (statusAfter i n).toNat % 8 =
      (if i ≠ .nop ∧ decodeSize i = none ∧ n < blockSizeOf i then 4 else 0) ∧
    ((statusAfter i n).toNat / 8 % 2 = 1 ↔ (decodeSize i).isSome ∧ n < blockSizeOf i) ∧
    ((statusAfter i n).toNat / 16 % 2 = 1 ↔ i = .decodeDxt1 ∧ 8 ≤ n) ∧
    (statusAfter i n).toNat < 32 := by
  by_cases hs : n < blockSizeOf i
  · have hch : ¬ (i = .decodeDxt1 ∧ 8 ≤ n) := by
      rintro ⟨rfl, h⟩
      exact absurd hs (Nat.not_lt.2 h)
    have hnop : i ≠ .nop := by
      rintro rfl
      exact Nat.not_lt_zero _ hs
    cases hd : decodeSize i <;> simp [statusAfter, hs, hd, hch, hnop, ErrCode.code]
  · by_cases hi : i = .decodeDxt1
    · subst hi
      have hn : 8 ≤ n := Nat.not_lt.1 hs
      simp [statusAfter, hs, hn]
    · simp [statusAfter, hs, hi]

/-- Every STATUS of rule R28 is within the bounds of rules R16 and R101. -/
theorem statusValuesOf_subset (v : Word) : statusValuesOf v ⊆ statusValues := by
  unfold statusValuesOf
  cases decode v with
  | error e => cases e <;> decide
  | ok i => cases i <;> dsimp only <;> decide

/-! ### CPAL, and what a command does not read -/

/-- A command writes CPAL not at all or as palette entries (rule R21). -/
theorem exec_cpal {i : Instr} {s t : State} (h : exec i s = .next t) :
    t.cpal = s.cpal ∨
      ∃ palette : Nat → Rgb, t.cpal = Vector.ofFn fun j => (palette j.val).toWord := by
  rcases exec_cases i s with ⟨rfl, e⟩ | ⟨out, ho, hs, e⟩ | ⟨⟨out, ho⟩, hs, e⟩ | ⟨hi, hs, e⟩ |
    ⟨rfl, hs, e⟩ | ⟨rfl, hs, e⟩ | ⟨rfl, hs, e⟩ <;>
    obtain rfl := Host.Outcome.next.inj (h.symm.trans e)
  iterate 4 exact .inl rfl
  all_goals exact .inr ⟨_, rfl⟩

/-- Bits 31 to 24 of a palette entry's register are 0 (rule R21). -/
theorem rgbToWord_high_byte (c : Rgb) : bits c.toWord.toNat 24 8 = 0 := by
  have hb := lane_toWord (c.withAlpha 0) (m := 3) (by decide)
  simpa [lane, bits, Rgb.toWord, Rgb.withAlpha, Texel.channel] using hb

/-- The result of a command does not depend on STATUS before it (rule R27). -/
theorem exec_status_unread (i : Instr) (s : State) (x : Word) :
    exec i { s with status := x } = exec i s := by
  rcases exec_congr i (s := s) (u := { s with status := x }) rfl rfl with
    ⟨_, h, h'⟩ | ⟨_, _, h, h'⟩ | ⟨_, h, h'⟩ | ⟨_, h, h'⟩ | ⟨_, _, _, _, _, h, h'⟩ |
    ⟨_, _, _, _, _, _, h, h'⟩ <;> exact h'.trans h.symm

theorem runCommand_status_unread (v : Word) (s : State) (x : Word) :
    runCommand v { s with status := x } = runCommand v s := by
  cases hd : decode v with
  | ok i =>
    rw [runCommand_ok hd, runCommand_ok hd]
    exact exec_status_unread i { s with cmd := v } x
  | error e => rw [runCommand_error hd, runCommand_error hd]

/-! ### Every step -/

/-- A write of CMD sets CMD and STATUS together (rules R15 and R28). -/
theorem runCommand_statusFitsCmd {v : Word} {s t : State} (h : runCommand v s = .next t) :
    t.StatusFitsCmd := by
  have hcmd : t.cmd = v := (runCommand_keeps h).1
  unfold State.StatusFitsCmd
  rw [hcmd]
  rcases runCommand_cases v s with ⟨i, hd, e⟩ | ⟨c, hd, e⟩
  · rw [exec_status (e.symm.trans h)]
    exact statusAfter_mem hd _
  · obtain rfl := Host.Outcome.next.inj (h.symm.trans e)
    simp [statusValuesOf, hd]

/-- A write of CMD keeps the register bounds: it leaves INLEN, and STATUS and CPAL are its own results
or stay. -/
theorem runCommand_inBounds {v : Word} {s t : State} (hb : s.InBounds)
    (h : runCommand v s = .next t) : t.InBounds := by
  obtain ⟨-, hlen, hpal⟩ := hb
  obtain ⟨-, hl, -⟩ := runCommand_keeps h
  refine ⟨statusValuesOf_subset _ (runCommand_statusFitsCmd h), by rwa [hl], fun j => ?_⟩
  rcases runCommand_cases v s with ⟨i, -, e⟩ | ⟨c, -, e⟩
  · rcases exec_cpal (e.symm.trans h) with hk | ⟨palette, hp⟩
    · rw [hk]; exact hpal j
    · simpa [hp] using rgbToWord_high_byte _
  · obtain rfl := Host.Outcome.next.inj (h.symm.trans e)
    exact hpal j

/-- One access keeps the register bounds. -/
theorem perform_inBounds {a : Access} {s t : State} (hb : s.InBounds)
    (h : perform a s = .next t) : t.InBounds := by
  rcases perform_next_cases h with ⟨r, rfl⟩ | ⟨ag, v, -, hv⟩ | ⟨ag, v, off, -, -, -, hc, rfl⟩
  · exact hb
  · exact runCommand_inBounds hb hv
  · obtain ⟨hst, hlen, hpal⟩ := hb
    obtain ⟨-, hs, -, -, hp, -⟩ := writeReg_keeps_results v s hc
    exact ⟨hs.symm ▸ hst, writeReg_inlen_le _ v hlen, fun j => by rw [hp]; exact hpal j⟩

/-- One access keeps STATUS a result of the word in CMD. -/
theorem perform_statusFitsCmd {a : Access} {s t : State} (hf : s.StatusFitsCmd)
    (h : perform a s = .next t) : t.StatusFitsCmd := by
  rcases perform_next_cases h with ⟨r, rfl⟩ | ⟨ag, v, -, hv⟩ | ⟨ag, v, off, -, -, -, hc, rfl⟩
  · exact hf
  · exact runCommand_statusFitsCmd hv
  · obtain ⟨hcmd, hs, -⟩ := writeReg_keeps_results v s hc
    unfold State.StatusFitsCmd
    rw [hcmd, hs]
    exact hf

/-- What a step that answers a next state did: nothing, with no event pending, or the next event, a
reset or an access. -/
theorem step_next_cases {s t : State} (h : step s = .next t) :
    (s.pending = [] ∧ t = s) ∨
    (∃ rest, s.pending = .reset :: rest ∧
      t = { State.reset with pending := rest, readData := s.readData }) ∨
    (∃ a rest, s.pending = .access a :: rest ∧ perform a { s with pending := rest } = .next t) := by
  rcases step_cases s with ⟨hp, e⟩ | ⟨-, e⟩ | ⟨rest, hp, e⟩ | ⟨a, rest, hp, -, e⟩
  · exact .inl ⟨hp, Host.Outcome.next.inj (h.symm.trans e)⟩
  · cases h.symm.trans e
  · exact .inr (.inl ⟨rest, hp, Host.Outcome.next.inj (h.symm.trans e)⟩)
  · exact .inr (.inr ⟨a, rest, hp, e.symm.trans h⟩)

/-! ### The obligations -/

/-- Settles O20, by evaluating the reset state. -/
theorem resetMeetsTheInvariants : Obligations.ResetMeetsTheInvariants := by
  unfold Obligations.ResetMeetsTheInvariants
  constructor <;> decide

/-- Settles O21: a command's STATUS is one of its row of rule R28, INLEN is clamped when written,
and CPAL is written only as palette entries. -/
theorem stepKeepsRegisterBounds : Obligations.StepKeepsRegisterBounds := by
  unfold Obligations.StepKeepsRegisterBounds
  intro s t hb h
  rcases step_next_cases h with ⟨-, rfl⟩ | ⟨rest, -, rfl⟩ | ⟨a, rest, -, ha⟩
  · exact hb
  · exact resetMeetsTheInvariants.1
  · exact perform_inBounds (s := { s with pending := rest }) hb ha

/-- Settles O22: only a write of CMD changes CMD or STATUS, and it sets both. -/
theorem stepKeepsStatusFittingCmd : Obligations.StepKeepsStatusFittingCmd := by
  unfold Obligations.StepKeepsStatusFittingCmd
  intro s t hf h
  rcases step_next_cases h with ⟨-, rfl⟩ | ⟨rest, -, rfl⟩ | ⟨a, rest, -, ha⟩
  · exact hf
  · exact resetMeetsTheInvariants.2
  · exact perform_statusFitsCmd (s := { s with pending := rest }) hf ha

/-- Settles O7, from the rule for a performed access and the two rules for a write of CMD. -/
theorem stepRunsTheDecodedCommand : Obligations.StepRunsTheDecodedCommand := by
  unfold Obligations.StepRunsTheDecodedCommand
  refine ⟨fun s a rest hp hi => step_access hp hi, fun ag v s => perform_wr_cmd ag v s,
    fun v s => ⟨fun i hd => runCommand_ok hd s, fun e hd => ?_⟩, fun s ag v rest i hp hi hd => ?_⟩
  · rw [runCommand_error hd, statusError_eq]
  · calc step s = perform (Access.wr ag Reg.cmd.offset v) { s with pending := rest } :=
          step_access hp hi
      _ = runCommand v { s with pending := rest } := perform_wr_cmd ..
      _ = exec i { s with pending := rest, cmd := v } := runCommand_ok hd _

/-- Settles O8: each register is read at its own offset. -/
theorem readsFollowTheRegisterMap : Obligations.ReadsFollowTheRegisterMap := by
  unfold Obligations.ReadsFollowTheRegisterMap
  intro ag s
  exact ⟨perform_rd ag .cmd s, perform_rd ag .status s, perform_rd ag .inlen s,
    fun j => perform_rd ag (.inW j) s, fun j => perform_rd ag (.outW j) s,
    fun i => perform_rd ag (.tex i) s, fun j => perform_rd ag (.cpal j) s,
    fun j => perform_rd ag (.apalW j) s⟩

/-- Settles O9: a reserved offset is no register's, and a write counts at CMD, INLEN and IN only. -/
theorem reservedAndReadOnlyOffsetsIgnoreWrites :
    Obligations.ReservedAndReadOnlyOffsetsIgnoreWrites := by
  unfold Obligations.ReservedAndReadOnlyOffsetsIgnoreWrites
  intro ag off v s ha hlt
  refine ⟨fun hr => ⟨?_, ?_⟩, fun hr => ?_⟩
  · rw [perform_read ag s ha hlt, ofOffset_eq_reserved ha hr]
    rfl
  · exact perform_write_ignored ag v s ha hlt (by omega) (by omega) (by omega)
  · exact perform_write_ignored ag v s ha hlt (by omega) (by omega) (by omega)

/-- Settles O10; that a write of CMD completes is `runCommand_completes`. -/
theorem onlyAlignedWordAccessesArePerformed : Obligations.OnlyAlignedWordAccessesArePerformed := by
  unfold Obligations.OnlyAlignedWordAccessesArePerformed
  intro a s
  refine ⟨perform_of_badShape s, fun hw ha hlt => ?_, perform_of_outside s⟩
  obtain ⟨ag, kind, off, width⟩ := a
  obtain rfl : width = 4 := hw
  cases kind with
  | read => exact ⟨_, perform_read ag s ha hlt⟩
  | write v =>
    rw [perform_write ag v s ha hlt, writeWindow]
    split
    · exact runCommand_completes v s
    · exact ⟨_, rfl⟩

/-- Settles O11: the stored count is the lower of bits 4 to 0 and 16. -/
theorem inlenWriteStoresALegalCount : Obligations.InlenWriteStoresALegalCount := by
  unfold Obligations.InlenWriteStoresALegalCount
  intro ag v s
  refine ⟨clampInlen v, perform_wr ag .inlen (by simp) v s, ?_⟩
  rw [clampInlen_toNat]
  split_ifs <;> omega

/-- Settles O12, from the bytes of IN after one of its words is set. -/
theorem inWriteReplacesFourBytes : Obligations.InWriteReplacesFourBytes := by
  unfold Obligations.InWriteReplacesFourBytes
  refine ⟨fun ag j v s => ⟨s.writeReg v (.inW j), perform_wr ag (.inW j) (by simp) v s, rfl,
    fun m hm => ?_, fun i _ hi => ?_, ?_⟩, fun v s t h => ?_⟩
  · rw [inB_writeReg_inW, if_pos (by omega), show (4 * j.val + m) % 4 = m by omega]
    rfl
  · rw [inB_writeReg_inW, if_neg hi]
  · have hread : (s.writeReg v (.inW j)).readReg (.inW j) = v := by
      simp [State.readReg, State.writeReg]
    rw [← congrArg some hread]
    exact perform_rd ag (.inW j) (s.writeReg v (.inW j))
  · obtain ⟨-, -, hin, -⟩ := runCommand_keeps h
    exact hin

/-- Settles O15, by what a step can have done and, for a write, the offset that it was at. -/
theorem registersChangeOnlyByTheirWrites : Obligations.RegistersChangeOnlyByTheirWrites := by
  unfold Obligations.RegistersChangeOnlyByTheirWrites
  intro s t h hreset
  rcases step_next_cases h with ⟨-, rfl⟩ | ⟨rest, hp, -⟩ | ⟨a, rest, hp, ha⟩
  · simp
  · exact absurd hp (hreset rest)
  rcases perform_next_cases ha with ⟨r, rfl⟩ | ⟨ag, v, rfl, hv⟩ |
    ⟨ag, v, off, rfl, hal, hlt, hc, rfl⟩
  · simp
  · obtain ⟨-, hlen, hin, -⟩ := runCommand_keeps hv
    exact ⟨fun hno => absurd hp (hno ag v rest), fun _ => hlen, fun _ => hin⟩
  · refine ⟨fun _ => writeReg_keeps_results v _ hc, fun hno => ?_, fun hno => ?_⟩
    · refine writeReg_inlen_of_ne v _ fun e => hno ag v rest ?_
      rw [hp, eq_offset_of_ofOffset hal (by simp) e, Reg.offset]
    · refine writeReg_inW_of_ne v _ fun j e => hno ag v rest j ?_
      rw [hp, eq_offset_of_ofOffset hal (by simp) e, Reg.offset]

/-- Settles O35, by the shapes of a command's result. -/
theorem commandsWriteOnlyTheirRegisters : Obligations.CommandsWriteOnlyTheirRegisters := by
  unfold Obligations.CommandsWriteOnlyTheirRegisters
  intro i s
  rcases exec_cases i s with ⟨rfl, e⟩ | ⟨out, ho, hs, e⟩ | ⟨⟨out, ho⟩, hs, e⟩ | ⟨hi, hs, e⟩ |
    ⟨rfl, hs, e⟩ | ⟨rfl, hs, e⟩ | ⟨rfl, hs, e⟩ <;> refine ⟨_, e, rfl, ?_⟩
  · simp
  · obtain ⟨hnop, hd⟩ := ne_nop_and_decodeSize_of_outOf ho
    simp [hnop, hd, statusDone, statusWord]
  · simp
  · simp [decodeSize_of_isDecode hi]
  · simp [decodeSize, hs]
  · simp [decodeSize, hs]
  · simp [decodeSize, hs]

/-- Settles O36: a legal word's STATUS is `statusAfter`, an illegal word's is its error code. -/
theorem flagsRecordTheLastCommand : Obligations.FlagsRecordTheLastCommand := by
  unfold Obligations.FlagsRecordTheLastCommand
  intro v s
  obtain ⟨t, ht⟩ := runCommand_completes v s
  refine ⟨t, ht, ?_⟩
  have hx : ∀ x : Word, runCommand v { s with status := x } = .next t :=
    fun x => (runCommand_status_unread v s x).trans ht
  rw [← decode_eq_decodeDxt1_iff]
  cases hd : decode v with
  | ok i =>
    have hst : t.status = statusAfter i s.inlen.toNat :=
      exec_status (s := { s with cmd := v }) ((runCommand_ok hd s).symm.trans ht)
    obtain ⟨herr, htrunc, hch, hlt⟩ := statusAfter_flags i s.inlen.toNat
    rw [hst, errorOf_legal hd]
    refine ⟨herr, htrunc.trans ?_, hch.trans ?_, hlt, hx⟩
    · cases hz : decodeSize i with
      | none => simp [hz]
      | some size => simp [hz, (decodeSize_eq_some_iff.1 hz).2]
    · simp
  | error e =>
    obtain rfl := Host.Outcome.next.inj (ht.symm.trans (runCommand_error hd s))
    have he := errCode_lt e
    rw [errorOf_illegal (encodingError_of_decode hd)]
    simp only [statusError_toNat]
    refine ⟨Nat.mod_eq_of_lt he, ?_, ?_, by omega, hx⟩
    · simp [Nat.div_eq_of_lt he]
    · simp [Nat.div_eq_of_lt (he.trans (by decide : 8 < 16))]

/-- Settles O37, by the shapes that a command's results on the two states have in common. -/
theorem resultsDependOnlyOnInlenAndIn : Obligations.ResultsDependOnlyOnInlenAndIn := by
  unfold Obligations.ResultsDependOnlyOnInlenAndIn
  refine ⟨fun i s u hl hw => ?_, fun s n b => rfl⟩
  rcases exec_congr i hl hw with
    ⟨-, h, h'⟩ | ⟨out, -, h, h'⟩ | ⟨-, h, h'⟩ | ⟨-, h, h'⟩ | ⟨-, -, pal, tx, st, h, h'⟩ |
    ⟨-, -, pal, tx, st, ap, h, h'⟩ <;> refine ⟨_, _, h, h', ?_⟩ <;> simp

end Sys2Proof.Proofs

/-! ## Commands repeated, queued accesses, and the units of a system

Obligations on one unit's accesses and on several units (spec 20_memory.md rules R39 to R44). -/

namespace Sys2Proof.Proofs

open Sys2Proof.Machine Sys2Proof.Claims Sys2Proof.Laws

/-! ### A command run twice -/

/-- A command reads only INLEN and IN, which it does not change, so running it again writes the same
values (rule R39). -/
theorem exec_idem {i : Instr} {s t : State} (h : exec i s = .next t) : exec i t = .next t := by
  obtain ⟨-, hl, hw, -, -⟩ := exec_keeps h
  rcases exec_congr i hl.symm hw.symm with ⟨_, e, e'⟩ | ⟨_, _, e, e'⟩ | ⟨_, e, e'⟩ | ⟨_, e, e'⟩ |
    ⟨_, _, _, _, _, e, e'⟩ | ⟨_, _, _, _, _, _, e, e'⟩ <;>
    obtain rfl := Host.Outcome.next.inj (h.symm.trans e) <;> exact e'

/-! ### The queue of one agent -/

/-- The unit can work off its queue: every event is well shaped, all accesses are of one agent. -/
def Workable (s : State) : Prop :=
  (∀ e ∈ s.pending, e.wellShaped = true) ∧ agentsInterleave s.pending = false

theorem agentsInterleave_tail {e : Event} {rest : List Event}
    (h : agentsInterleave (e :: rest) = false) : agentsInterleave rest = false := by
  rw [← Bool.not_eq_true, agentsInterleave_iff] at h ⊢
  rintro ⟨a, b, ha, hb, hne⟩
  exact h ⟨a, b, by simp [ha], by simp [hb], hne⟩

theorem perform_keeps_pending {a : Access} {s t : State} (h : perform a s = .next t) :
    t.pending = s.pending := by
  rcases perform_next_cases h with ⟨r, rfl⟩ | ⟨ag, v, -, hv⟩ | ⟨ag, v, off, -, -, -, -, rfl⟩
  · rfl
  · obtain ⟨-, -, -, hp, -⟩ := runCommand_keeps hv
    exact hp
  · cases Reg.ofOffset off <;> rfl

theorem perform_of_wellShaped {a : Access} (h : (Event.access a).wellShaped = true) (s : State) :
    ∃ t, perform a s = .next t := by
  simp only [Event.wellShaped, Bool.and_eq_true, beq_iff_eq, decide_eq_true_eq] at h
  obtain ⟨⟨hw, ha⟩, hlt⟩ := h
  exact (onlyAlignedWordAccessesArePerformed a s).2.1 hw ha hlt

/-- A reset next in the queue resets the unit (rule R114). -/
theorem step_reset {s : State} {rest : List Event} (hp : s.pending = .reset :: rest)
    (hi : agentsInterleave s.pending = false) :
    step s = .next ({ s with pending := rest } : State).platformReset := by
  rw [hp] at hi
  simp only [step, performNext, hp, hi]
  rfl

/-- A step of a workable unit takes the first event off its queue, if there is one. -/
theorem step_of_workable {s : State} (h : Workable s) :
    ∃ t, step s = .next t ∧ t.pending = s.pending.tail ∧ Workable t := by
  obtain ⟨hshape, hone⟩ := h
  rcases hp : s.pending with _ | ⟨e, rest⟩
  · have hstep : step s = .next s := by simp only [step, performNext, hp]
    exact ⟨s, hstep, hp, hshape, hone⟩
  have hrest : ∀ t : State, t.pending = rest → Workable t := by
    rw [hp] at hshape hone
    rintro t rfl
    exact ⟨fun e he => hshape e (by simp [he]), agentsInterleave_tail hone⟩
  cases e with
  | reset => exact ⟨_, step_reset hp hone, rfl, hrest _ rfl⟩
  | access a =>
    obtain ⟨t, ht⟩ :=
      perform_of_wellShaped (hshape (.access a) (by simp [hp])) { s with pending := rest }
    have htp : t.pending = rest := perform_keeps_pending ht
    exact ⟨t, (step_access hp hone).trans ht, htp, hrest t htp⟩

theorem run_succ_of_step {s t : State} (h : step s = .next t) (n : Nat) :
    Sys2Proof.core.run (n + 1) s = Sys2Proof.core.run n t := by
  have hstep : Sys2Proof.core.step s = .next t := h
  simp only [Host.Core.run, hstep]

theorem safeRun_of_workable (n : Nat) : ∀ {s : State}, Workable s → SafeRun n s := by
  induction n with
  | zero => exact fun {s} _ => ⟨s, rfl⟩
  | succ n ih =>
    intro s hs
    obtain ⟨t, ht, -, hwt⟩ := step_of_workable hs
    obtain ⟨u, hu⟩ := ih hwt
    exact ⟨u, (run_succ_of_step ht n).trans hu⟩

theorem run_empties_queue (n : Nat) : ∀ {s : State}, Workable s → s.pending.length = n →
    ∃ t, Sys2Proof.core.run n s = .next t ∧ t.pending = [] := by
  induction n with
  | zero => exact fun {s} _ hn => ⟨s, rfl, List.eq_nil_of_length_eq_zero hn⟩
  | succ n ih =>
    intro s hs hn
    obtain ⟨t, ht, hp, hwt⟩ := step_of_workable hs
    obtain ⟨u, hu, hpu⟩ := ih hwt (by rw [hp, List.length_tail, hn, Nat.add_sub_cancel])
    exact ⟨u, (run_succ_of_step ht n).trans hu, hpu⟩

/-! ### Units of a system -/

/-- A unit's step in a system is `step` of that unit, stored in its place (rule R108). -/
theorem stepUnit_eq_next_iff {u : Nat} {sys x : System} : System.stepUnit u sys = .next x ↔
    ∃ s t, sys.units[u]? = some s ∧ step s = .next t ∧ x = ⟨sys.units.set u t⟩ := by
  unfold System.stepUnit
  cases sys.units[u]? with
  | none => simp
  | some s => cases hs : step s <;> simp [hs, eq_comm]

/-- On windows that do not overlap, an address in window `u` is located there (rule R40). -/
theorem locate_eq_some {base off : Nat} (hoff : off < Config.windowBytes) :
    ∀ {bases : List Nat} {u : Nat},
      bases.Pairwise (fun a b => a + Config.windowBytes ≤ b ∨ b + Config.windowBytes ≤ a) →
      bases[u]? = some base → locate bases (base + off) = some (u, off)
  | [], u, _, hu => by simp at hu
  | b :: rest, 0, _, hu => by
    obtain rfl : b = base := by simpa using hu
    simp [locate, hoff]
  | b :: rest, u + 1, hpw, hu => by
    obtain ⟨hb, hpw⟩ := List.pairwise_cons.1 hpw
    have hu : rest[u]? = some base := hu
    have hapart := hb base (List.mem_of_getElem? hu)
    have hout : ¬ (b ≤ base + off ∧ base + off < b + Config.windowBytes) := by omega
    rw [locate, if_neg hout, locate_eq_some hoff hpw hu]
    rfl

/-! ### The obligations -/

/-- Settles O16: a legal word's command is idempotent, and an illegal word writes only CMD and its
error. -/
theorem repeatingACommandChangesNothing : Obligations.RepeatingACommandChangesNothing := by
  unfold Obligations.RepeatingACommandChangesNothing
  intro v s t h
  rcases runCommand_cases v s with ⟨i, hd, e⟩ | ⟨c, hd, e⟩
  · have hcmd : { t with cmd := v } = t := by
      obtain ⟨rfl, -⟩ := runCommand_keeps h
      rfl
    rw [runCommand_ok hd, hcmd]
    exact exec_idem (e.symm.trans h)
  · obtain rfl := Host.Outcome.next.inj (h.symm.trans e)
    exact runCommand_error hd _

/-- Settles O17: every step of a workable unit takes one event and leaves the unit workable. -/
theorem pendingAccessesAreWorkedOff : Obligations.PendingAccessesAreWorkedOff := by
  unfold Obligations.PendingAccessesAreWorkedOff
  intro s hshape hone
  obtain ⟨t, ht, hp⟩ := run_empties_queue _ ⟨hshape, hone⟩ rfl
  exact ⟨t, ht, hp, fun n => safeRun_of_workable n ⟨hshape, hone⟩⟩

/-- Settles O51: a unit's step sets one entry of the list of units, and two such sets commute. -/
theorem unitsStepIndependently : Obligations.UnitsStepIndependently := by
  unfold Obligations.UnitsStepIndependently
  intro a b sys x y hab hx hy
  obtain ⟨s, s', hs, hs', rfl⟩ := stepUnit_eq_next_iff.1 hx
  obtain ⟨t, t', ht, ht', rfl⟩ := stepUnit_eq_next_iff.1 hy
  have ha : a < sys.units.length := (List.getElem?_eq_some_iff.1 hs).1
  refine ⟨⟨s, s', hs, hs', by simp [ha]⟩, fun c hc => List.getElem?_set_ne hc.symm,
    List.length_set, ⟨(sys.units.set a s').set b t'⟩, ?_, ?_⟩
  · exact stepUnit_eq_next_iff.2 ⟨t, t', (List.getElem?_set_ne hab).trans ht, ht', rfl⟩
  · exact stepUnit_eq_next_iff.2 ⟨s, s', (List.getElem?_set_ne hab.symm).trans hs, hs',
      by rw [List.set_comm _ _ hab]⟩

/-- Settles O52: the address is located in unit u's window, and the access is queued there. -/
theorem accessReachesTheUnitOfItsWindow : Obligations.AccessReachesTheUnitOfItsWindow := by
  unfold Obligations.AccessReachesTheUnitOfItsWindow
  intro p ag kind u off width sys base s hp hbase hs hoff
  refine ⟨_, by rw [System.post, locate_eq_some hoff hp.2 hbase], ?_, fun v hv => ?_⟩
  · simp [hs]
  · simp [hv.symm]

end Sys2Proof.Proofs

/-! ## The host's image sequences

What the output buffer of a sequence holds, byte by byte and pixel by pixel, and the faults (spec
20_memory.md rules R45 to R54). -/

namespace Sys2Proof.Proofs

open Sys2Proof.Machine Sys2Proof.Claims Sys2Proof.Laws

theorem buf_eq (d : List Byte) (i : Nat) : buf d i = (bufByte d i).toNat := rfl

theorem pixel_eq (img : List Byte) (w ch X Y c : Nat) :
    pixel img w ch X Y c = (bufByte img (pixelAt w ch X Y + c)).toNat := rfl

/-! ### Faults -/

theorem exists_gridBytes {bs : Nat} (h : bs = 8 ∨ bs = 16) : ∃ f, bs = gridBytes f := by
  rcases h with rfl | rfl
  · exact ⟨.dxt1, rfl⟩
  · exact ⟨.dxt5, rfl⟩

theorem rotateImage_badDimensions {w h : Nat} (hb : w % 4 ≠ 0 ∨ h % 4 ≠ 0) (f : GridFmt)
    (d : List Byte) (times : Int) (s : State) :
    rotateImage f d w h times s = .fault .invalidDimensions := by
  simp [rotateImage, rotateSequence, badDimensions_true hb, andThen]

theorem rotateImage_truncated {f : GridFmt} {d : List Byte} {w h : Nat} (hw : w % 4 = 0)
    (hh : h % 4 = 0) (hl : d.length < w / 4 * (h / 4) * gridBytes f) (times : Int) (s : State) :
    rotateImage f d w h times s = .fault .truncatedInput := by
  simp [rotateImage, rotateSequence, badDimensions_false hw hh, gridBlockSize_eq, hl, andThen]

/-- The faults of both flips, in the order of their checks (rules R51 to R53). -/
theorem flipImage_faults {flip :
    List Byte → Nat → Nat → Nat → State → Host.Outcome (State × List Byte) Fault Refusal}
    (hf : flip = flipImageH ∨ flip = flipImageV) (d : List Byte) (w h bs : Nat) (s : State) :
    (w % 4 ≠ 0 ∨ h % 4 ≠ 0 → flip d w h bs s = .fault .invalidDimensions) ∧
    (w % 4 = 0 → h % 4 = 0 → bs ≠ 8 → bs ≠ 16 → flip d w h bs s = .fault .badBlockSize) ∧
    (w % 4 = 0 → h % 4 = 0 → (bs = 8 ∨ bs = 16) → d.length < w / 4 * (h / 4) * bs →
      flip d w h bs s = .fault .truncatedInput) := by
  refine ⟨fun hb => ?_, fun hw hh h8 h16 => ?_, fun hw hh hbs hl => ?_⟩
  · rcases hf with rfl | rfl <;>
      simp [flipImageH, flipImageV, flipHSequence, flipVSequence, badDimensions_true hb, andThen]
  · rcases hf with rfl | rfl <;>
      simp [flipImageH, flipImageV, flipHSequence, flipVSequence, badDimensions_false hw hh,
        gridFmtOfSize, h8, h16, andThen]
  · obtain ⟨f, rfl⟩ := exists_gridBytes hbs
    rcases hf with rfl | rfl <;>
      simp [flipImageH, flipImageV, flipHSequence, flipVSequence, badDimensions_false hw hh,
        gridFmtOfSize_eq, hl, andThen]

/-! ### Bytes of the alpha half of an encode -/

/-- The alpha of a sampled texel: 255 for RGB, 0 outside the image (rule R47). -/
theorem sampleTexel_alpha (px : List Byte) (w h : Nat) (ch : Channels) (bx yb i : Nat) :
    (sampleTexel px w h ch bx yb i).a.toNat =
      if 4 * bx + i % 4 < w ∧ 4 * yb + i / 4 < h then
        if ch = .rgb then 255 else pixel px w 4 (4 * bx + i % 4) (4 * yb + i / 4) 3
      else 0 := by
  by_cases hin : 4 * bx + i % 4 < w ∧ 4 * yb + i / 4 < h
  · simp only [sampleTexel, if_pos hin]
    cases ch <;> rfl
  · simp only [sampleTexel, if_neg hin]
    rfl

/-- Bytes 0 to 7 of a block are its quantized alphas (rule R49). -/
theorem quantizedImage_low {px : List Byte} {w h : Nat} {ch : Channels} {out : List Byte}
    (hlen : out.length = blocksAlong w * blocksAlong h * 16) {k j : Nat}
    (hk : k < blocksAlong w * blocksAlong h) (hj : j < 8) :
    bufByte (quantizedImage px w h ch out) (k * 16 + j) = quantizedByte (fun i =>
      (sampleTexel px w h ch (k % blocksAlong w) (k / blocksAlong w) i).a) j :=
  upTo_sets (fun b => bufByte b (k * 16 + j)) (fun b => k * 16 + j < b.length)
    (fun _ _ hb => by simpa using hb) (fun _ hb => bufByte_bufStore _ hj hb) hk
    (fun _ _ hne _ => bufByte_bufStore_out _ (by omega)) out (by omega)

/-- Bytes 8 to 15 of a block stay (log entry 17). -/
theorem quantizedImage_high (px : List Byte) (w h : Nat) (ch : Channels) (out : List Byte)
    {k j : Nat} (hj8 : 8 ≤ j) (hj : j < 16) :
    bufByte (quantizedImage px w h ch out) (k * 16 + j) = bufByte out (k * 16 + j) :=
  upTo_keeps (fun b => bufByte b (k * 16 + j))
    (fun _ _ _ => bufByte_bufStore_out _ (by omega)) out

/-! ### Blocks of a transformed image -/

theorem gridBytes_pos (f : GridFmt) : 0 < gridBytes f := by cases f <;> decide

/-- Permuting a grid block is moving its texels (rule R92). -/
theorem moved_of_gridPermute (f : GridFmt) {src src' : Nat → Nat} (hs : ∀ p < 16, src' p = src p)
    (hlt : ∀ p < 16, src p < 16) {b c : Nat → Byte}
    (hc : ∀ m < gridBytes f, c m = gridPermute f src b m) :
    Moved f src' (fun m => (b m).toNat) (fun m => (c m).toNat) := by
  cases f
  · exact movedDxt1_of_permute hs hlt hc
  · exact movedDxt5_of_permute hs hlt hc

/-- The identity map copies a grid block (rule R88). -/
theorem gridPermute_mapId (f : GridFmt) (b : Nat → Byte) {m : Nat} (hm : m < gridBytes f) :
    gridPermute f mapId b m = b m := by
  cases f
  · exact (permuteDxt1_mapId b m).trans (if_pos hm)
  · exact permuteDxt5_mapId b hm

/-- Where the block in column `bx` and row `yb` goes (rule R50). -/
theorem rotatedBlock_grid {nx bx : Nat} (hx : bx < nx) (k ny yb : Nat) :
    rotatedBlock k nx ny (yb * nx + bx) =
      (remap k nx ny bx yb).2 * rotatedColumns k nx ny + (remap k nx ny bx yb).1 := by
  obtain ⟨hcol, hrow⟩ := grid_split (yb := yb) hx
  rw [rotatedBlock, hcol, hrow]

theorem flippedBlock_grid {nx bx : Nat} (hx : bx < nx) (ny yb : Nat) :
    flippedBlock nx ny (yb * nx + bx) = (ny - 1 - yb) * nx + bx := by
  obtain ⟨hcol, hrow⟩ := grid_split (yb := yb) hx
  rw [flippedBlock, hcol, hrow]

/-- `dst` moves the `n` blocks of a grid to different places of a grid of `n` blocks. -/
def PermutesBlocks (n : Nat) (dst : Nat → Nat) : Prop :=
  (∀ a < n, ∀ b < n, dst a = dst b → a = b) ∧ ∀ a < n, dst a < n

theorem permutesBlocks_id (n : Nat) : PermutesBlocks n fun k => k :=
  ⟨fun _ _ _ _ e => e, fun _ ha => ha⟩

theorem permutesBlocks_rotated {k : Nat} (hk : k < 4) (nx ny : Nat) :
    PermutesBlocks (nx * ny) (rotatedBlock k nx ny) := ⟨rotatedBlock_inj hk, rotatedBlock_lt hk⟩

theorem permutesBlocks_flipped (nx ny : Nat) : PermutesBlocks (nx * ny) (flippedBlock nx ny) :=
  ⟨flippedBlock_inj, flippedBlock_lt⟩

theorem PermutesBlocks.comp {n : Nat} {dst dst' dst'' : Nat → Nat} (h : PermutesBlocks n dst)
    (h' : PermutesBlocks n dst') (hdst : ∀ k < n, dst' (dst k) = dst'' k) :
    PermutesBlocks n dst'' := by
  obtain ⟨hinj, hlt⟩ := h
  obtain ⟨hinj', hlt'⟩ := h'
  refine ⟨fun a ha b hb e => ?_, fun a ha => hdst a ha ▸ hlt' _ (hlt a ha)⟩
  rw [← hdst a ha, ← hdst b hb] at e
  exact hinj a ha b hb (hinj' _ (hlt a ha) _ (hlt b hb) e)

/-- Every place of the output grid gets a block. -/
theorem PermutesBlocks.exists_eq {n q : Nat} {dst : Nat → Nat} (h : PermutesBlocks n dst)
    (hq : q < n) : ∃ k < n, dst k = q := by
  obtain ⟨hinj, hlt⟩ := h
  have hsurj := Finset.surjOn_of_injOn_of_card_le (s := Finset.range n) (t := Finset.range n) dst
    (fun a ha => by simpa using hlt a (by simpa using ha))
    (fun a ha b hb e => hinj a (by simpa using ha) b (by simpa using hb) e) le_rfl
  simpa using hsurj (by simpa using hq : q ∈ ↑(Finset.range n))

/-- A buffer of the grid's size that holds, at every block's place, the changed block, is the
transformed image. -/
theorem eq_transformed {l data : List Byte} {bs n : Nat} {dst : Nat → Nat}
    {out : (Nat → Byte) → Nat → Byte} (hbs : 0 < bs) (hl : l.length = n * bs)
    (hp : PermutesBlocks n dst) (h : ∀ k < n, ∀ m < bs,
      bufByte l (dst k * bs + m) = out (fun m => bufByte data (k * bs + m)) m) :
    l = transformed data bs n dst out := by
  refine buf_ext hbs hl (transformed_length ..) fun q hq m hm => ?_
  obtain ⟨k, hk, rfl⟩ := hp.exists_eq hq
  rw [h k hk m hm, transformed_byte data out hp.1 hp.2 hk hm]

/-- Two transforms one after another are the transform with the composed block map and block
change. -/
theorem transformed_transformed (data : List Byte) {bs n : Nat} (hbs : 0 < bs)
    {dst dst' dst'' : Nat → Nat} {out out' out'' : (Nat → Byte) → Nat → Byte}
    (hp : PermutesBlocks n dst) (hp' : PermutesBlocks n dst')
    (hdst : ∀ k < n, dst' (dst k) = dst'' k)
    (hout : ∀ b c, (∀ m < bs, c m = out b m) → ∀ m < bs, out' c m = out'' b m) :
    transformed (transformed data bs n dst out) bs n dst' out' =
      transformed data bs n dst'' out'' := by
  refine eq_transformed hbs (transformed_length ..) (hp.comp hp' hdst) fun k hk m hm => ?_
  rw [← hdst k hk, transformed_byte _ out' hp'.1 hp'.2 (hp.2 k hk) hm]
  exact hout _ _ (fun m hm => transformed_byte data out hp.1 hp.2 hk hm) m hm

/-- A transform that leaves every block where and as it is gives the grid's bytes. -/
theorem transformed_unchanged {data : List Byte} {bs n : Nat} (hbs : 0 < bs) {dst : Nat → Nat}
    {out : (Nat → Byte) → Nat → Byte} (hl : n * bs ≤ data.length) (hp : PermutesBlocks n dst)
    (hdst : ∀ k < n, dst k = k) (hout : ∀ b, ∀ m < bs, out b m = b m) :
    transformed data bs n dst out = data.take (n * bs) := by
  refine (eq_transformed hbs (by simpa using hl) hp fun k hk m hm => ?_).symm
  rw [hdst k hk, hout _ m hm]
  simp [bufByte, block_lt hk hm]

/-- Mirroring every block twice is moving by the identity map (rule R89). -/
theorem flippedH_flippedH (f : GridFmt) (data : List Byte) (n : Nat) :
    transformed (transformed data (gridBytes f) n (fun k => k) (gridPermute f mapFlipH))
        (gridBytes f) n (fun k => k) (gridPermute f mapFlipH) =
      transformed data (gridBytes f) n (fun k => k) (gridPermute f mapId) := by
  refine transformed_transformed data (gridBytes_pos f) (permutesBlocks_id n) (permutesBlocks_id n)
    (fun _ _ => rfl) fun b c hc m hm => ?_
  rw [gridPermute_gridPermute f mapFlipH (fun p => mapFlipH_lt) hc hm]
  exact gridPermute_congr f (fun p => mapFlipH_mapFlipH) b m

/-! ### Steps of a rotation -/

theorem stepsOf_eq {times : Int} {k : Nat} (h : times % 4 = k) : stepsOf times = k := by
  simp [stepsOf, h]

theorem stepsOf_add (a b : Int) : stepsOf (a + b) = (stepsOf a + stepsOf b) % 4 := by
  simp only [stepsOf]
  omega

theorem stepsOf_even {a : Int} : stepsOf a % 2 = 0 ↔ a % 2 = 0 := by
  simp only [stepsOf]
  omega

/-- Rotating an image by `k` and then, with its sides as they then are, by `k'` (rules R50 and
R89). -/
theorem rotated_rotated (f : GridFmt) (data : List Byte) {k k' : Nat} (hk : k < 4) (hk' : k' < 4)
    (nx ny : Nat) :
    transformed (transformed data (gridBytes f) (nx * ny) (rotatedBlock k nx ny)
        (gridPermute f (mapRotate k))) (gridBytes f) (nx * ny)
        (rotatedBlock k' (if k % 2 = 0 then nx else ny) (if k % 2 = 0 then ny else nx))
        (gridPermute f (mapRotate k')) =
      transformed data (gridBytes f) (nx * ny) (rotatedBlock ((k + k') % 4) nx ny)
        (gridPermute f (mapRotate ((k + k') % 4))) := by
  have hsides : (if k % 2 = 0 then nx else ny) * (if k % 2 = 0 then ny else nx) = nx * ny := by
    split_ifs
    · rfl
    · exact Nat.mul_comm ny nx
  refine transformed_transformed data (gridBytes_pos f) (permutesBlocks_rotated hk nx ny)
    (hsides ▸ permutesBlocks_rotated hk' ..)
    (fun n hn => rotatedBlock_rotatedBlock hk hk' hn) fun b c hc m hm => ?_
  rw [gridPermute_gridPermute f (mapRotate k) (fun p => mapRotate_lt k') hc hm]
  exact gridPermute_congr f (fun p hp => mapRotate_mapRotate hk hk' hp) b m

/-- A rotation of an image whose sides are those after a rotation by `a` (rule R50). -/
theorem rotateImage_newSides (f : GridFmt) {l : List Byte} {w h : Nat} (a b : Int) (t : State)
    (hw : w % 4 = 0) (hh : h % 4 = 0) (hl : w / 4 * (h / 4) * gridBytes f ≤ l.length) :
    ∃ u, rotateImage f l (if a % 2 = 0 then w else h) (if a % 2 = 0 then h else w) b t =
      .next (u, transformed l (gridBytes f) (w / 4 * (h / 4))
        (rotatedBlock (stepsOf b) (if stepsOf a % 2 = 0 then w / 4 else h / 4)
          (if stepsOf a % 2 = 0 then h / 4 else w / 4))
        (gridPermute f (mapRotate (stepsOf b)))) := by
  simp only [stepsOf_even]
  split_ifs
  · exact rotateImage_eq f b t hw hh hl
  · rw [Nat.mul_comm (w / 4)] at hl ⊢
    exact rotateImage_eq f b t hh hw hl

/-! ### Pixels of a transformed image -/

theorem blocksAlong_of_aligned {n : Nat} (h : n % 4 = 0) : blocksAlong n = n / 4 := by
  simp only [blocksAlong]
  omega

theorem decodeFmt_blockSize (f : GridFmt) : (decodeFmt f).blockSize = gridBytes f := by
  cases f <;> rfl

theorem decodeFmt_channels (f : GridFmt) :
    (decodedChannels (decodeFmt f)).count = if f = .dxt1 then 3 else 4 := by cases f <;> rfl

/-- Permuting a DXT1 block keeps its endpoints and permutes its indices (rule R92). -/
theorem colorBlock_permuteDxt1 (src : Nat → Nat) (b : Nat → Byte) :
    colorBlock (permuteDxt1 src b) 0 =
      { colorBlock b 0 with idx := perm2 (colorBlock b 0).idx src } := by
  have hlow : ∀ m < 4, permuteDxt1 src b m = b m := fun m hm => if_pos hm
  simp only [colorBlock, Nat.zero_add, le_permuteDxt1]
  rw [le_congr (f := permuteDxt1 src b) (g := b) (o := 0) fun m hm => hlow _ (by omega),
    le_congr (f := permuteDxt1 src b) (g := b) (o := 2) fun m hm => hlow _ (by omega)]

/-- The same for the colour half of a DXT5 block. -/
theorem colorBlock_permuteDxt5 (src : Nat → Nat) (b : Nat → Byte) :
    colorBlock (permuteDxt5 src b) 8 =
      { colorBlock b 8 with idx := perm2 (colorBlock b 8).idx src } := by
  have hmid : ∀ m, 8 ≤ m → m < 12 → permuteDxt5 src b m = b m := fun m h8 h12 => by
    rw [permuteDxt5, if_neg (by omega), if_neg (by omega), if_pos h12]
  simp only [colorBlock, Nat.reduceAdd, le_permuteDxt5_color]
  rw [le_congr (f := permuteDxt5 src b) (g := b) (o := 8)
      fun m hm => hmid _ (by omega) (by omega),
    le_congr (f := permuteDxt5 src b) (g := b) (o := 10) fun m hm => hmid _ (by omega) (by omega)]

/-- Permuting a DXT5 block keeps its alpha endpoints (rule R92). -/
theorem alphaEntry_permuteDxt5 (src : Nat → Nat) (b : Nat → Byte) :
    alphaEntry (permuteDxt5 src b) = alphaEntry b := by
  funext code
  simp [alphaEntry, permuteDxt5]

/-- Decoding a permuted block gives the block's texels moved (rule R92). -/
theorem decodedTexel_gridPermute (f : GridFmt) (src : Nat → Nat) (b : Nat → Byte) {p : Nat}
    (hp : p < 16) : decodedTexel (decodeFmt f) (gridPermute f src b) p
      = decodedTexel (decodeFmt f) b (src p) := by
  cases f with
  | dxt1 =>
    simp only [decodedTexel, decodeFmt, gridPermute, texelDxt1, paletteDxt1, colorBlock_permuteDxt1,
      colorIndex_perm2 _ _ hp, ColorBlock.palette]
  | dxt5 =>
    have hcode : alphaCode (alphaCodes (permuteDxt5 src b)) p =
        alphaCode (alphaCodes b) (src p) := by
      rw [alphaCodes, le_permuteDxt5_alpha, alphaCode_perm3 _ _ hp, alphaCodes]
    simp only [decodedTexel, decodeFmt, gridPermute, texelDxt5, paletteFour, colorBlock_permuteDxt5,
      colorIndex_perm2 _ _ hp, hcode, alphaEntry_permuteDxt5, ColorBlock.palette]

/-- The texels of the block that input block `k` becomes. -/
theorem imageTexel_transformed {fmt : Fmt} {data : List Byte} {n k p : Nat} {dst src : Nat → Nat}
    {out : (Nat → Byte) → Nat → Byte} (hl : n * fmt.blockSize ≤ data.length)
    (hperm : PermutesBlocks n dst)
    (hout : ∀ b, decodedTexel fmt (out b) p = decodedTexel fmt b (src p)) (hk : k < n)
    (hp : p < 16) : imageTexel fmt (transformed data fmt.blockSize n dst out) (dst k) p
      = imageTexel fmt data k (src p) := by
  obtain ⟨hinj, hlt⟩ := hperm
  have hin : k * fmt.blockSize + fmt.blockSize ≤ data.length := (block_le hk).trans hl
  have hin' : dst k * fmt.blockSize + fmt.blockSize
      ≤ (transformed data fmt.blockSize n dst out).length := by
    rw [transformed_length]
    exact block_le (hlt k hk)
  rw [imageTexel, imageTexel, if_pos hin, if_pos hin', ← hout]
  exact decodedTexel_congr fmt (fun m hm => transformed_byte data out hinj hlt hk hm) hp

/-- A pixel of a transformed image, decoded, is the pixel of the image that the block map and the
position map take it from (rule R54). -/
theorem pixel_transformed (f : GridFmt) {data : List Byte} {w h w' h' X Y X' Y' c : Nat}
    {dst src : Nat → Nat} {out : (Nat → Byte) → Nat → Byte}
    (hw : w % 4 = 0) (hh : h % 4 = 0) (hw' : w' % 4 = 0)
    (hl : w / 4 * (h / 4) * gridBytes f ≤ data.length)
    (hperm : PermutesBlocks (w / 4 * (h / 4)) dst)
    (hout : ∀ b, ∀ p < 16,
      decodedTexel (decodeFmt f) (out b) p = decodedTexel (decodeFmt f) b (src p))
    (hX : X < w) (hY : Y < h) (hc : c < if f = .dxt1 then 3 else 4) (hX' : X' < w') (hY' : Y' < h')
    (hblock : Y' / 4 * (w' / 4) + X' / 4 = dst (Y / 4 * (w / 4) + X / 4))
    (hpos : src (4 * (Y' % 4) + X' % 4) = 4 * (Y % 4) + X % 4) :
    pixel (decodedImage (decodeFmt f) (transformed data (gridBytes f) (w / 4 * (h / 4)) dst out)
        w' h') w' (if f = .dxt1 then 3 else 4) X' Y' c
      = pixel (decodedImage (decodeFmt f) data w h) w (if f = .dxt1 then 3 else 4) X Y c := by
  have hk : Y / 4 * (w / 4) + X / 4 < w / 4 * (h / 4) := grid_lt (by omega) (by omega)
  rw [← decodeFmt_channels] at hc ⊢
  rw [← decodeFmt_blockSize] at hl ⊢
  rw [pixel_eq, pixel_eq, decodedImage_pixel _ _ hX' hY' hc, decodedImage_pixel _ _ hX hY hc,
    blocksAlong_of_aligned hw, blocksAlong_of_aligned hw', hblock,
    imageTexel_transformed hl hperm (fun b => hout b _ (by omega)) hk (by omega), hpos]

/-- The coordinate opposite to `i`, by blocks. -/
theorem opposite_div {n i : Nat} (h : n % 4 = 0) (hi : i < n) :
    (n - 1 - i) / 4 = n / 4 - 1 - i / 4 := by omega

/-- The coordinate opposite to `i`, inside its block. -/
theorem opposite_mod {n i : Nat} (h : n % 4 = 0) (hi : i < n) : (n - 1 - i) % 4 = 3 - i % 4 := by
  omega

/-- A pixel of a rotated image, decoded, by the block map `remap` and the position map of ROTATE. -/
theorem pixel_rotated (f : GridFmt) {data : List Byte} {w h w' h' X Y X' Y' c k : Nat} (hk : k < 4)
    (hw : w % 4 = 0) (hh : h % 4 = 0) (hw' : w' % 4 = 0)
    (hl : w / 4 * (h / 4) * gridBytes f ≤ data.length)
    (hX : X < w) (hY : Y < h) (hc : c < if f = .dxt1 then 3 else 4) (hX' : X' < w') (hY' : Y' < h')
    (hcols : w' / 4 = rotatedColumns k (w / 4) (h / 4))
    (hblock : remap k (w / 4) (h / 4) (X / 4) (Y / 4) = (X' / 4, Y' / 4))
    (hpos : mapRotate k (4 * (Y' % 4) + X' % 4) = 4 * (Y % 4) + X % 4) :
    pixel (decodedImage (decodeFmt f) (transformed data (gridBytes f) (w / 4 * (h / 4))
        (rotatedBlock k (w / 4) (h / 4)) (gridPermute f (mapRotate k))) w' h') w'
        (if f = .dxt1 then 3 else 4) X' Y' c
      = pixel (decodedImage (decodeFmt f) data w h) w (if f = .dxt1 then 3 else 4) X Y c :=
  pixel_transformed f hw hh hw' hl (permutesBlocks_rotated hk ..)
    (fun b _ hp => decodedTexel_gridPermute f _ b hp) hX hY hc hX' hY'
    (by rw [rotatedBlock_grid (by omega), hblock, hcols]) hpos

/-! ### The obligations -/

/-- Settles O42: the faults come from the checks before a sequence, and the sequences run on. -/
theorem sequencesFaultExactlyAsListed : Obligations.SequencesFaultExactlyAsListed := by
  unfold Obligations.SequencesFaultExactlyAsListed
  refine ⟨fun f d w h times s => ⟨fun hb => rotateImage_badDimensions hb f d times s,
    fun hw hh hl => rotateImage_truncated hw hh hl times s, fun hw hh hl => ?_⟩,
    fun d w h bs s flip hf => ?_, fun f fill d w h s => ?_, fun px w h ch out0 s => ?_⟩
  · obtain ⟨t, ht⟩ := rotateImage_eq f times s hw hh hl
    exact ⟨t, _, ht, transformed_length ..⟩
  · obtain ⟨hbad, hsize, hshort⟩ := flipImage_faults hf d w h bs s
    refine ⟨hbad, hsize, hshort, fun hw hh hbs hl => ?_⟩
    obtain ⟨f, rfl⟩ := exists_gridBytes hbs
    rcases hf with rfl | rfl
    · obtain ⟨t, ht⟩ := flipImageH_eq f s hw hh hl
      exact ⟨t, _, ht, transformed_length ..⟩
    · obtain ⟨t, ht⟩ := flipImageV_eq f s hw hh hl
      exact ⟨t, _, ht, transformed_length ..⟩
  · obtain ⟨t, ht⟩ := decodeImage_eq f fill d w h s
    exact ⟨t, _, ht⟩
  · obtain ⟨t, ht⟩ := quantizeImage_eq px w h ch out0 s
    exact ⟨t, _, ht, quantizedImage_length ..⟩

/-- Settles O43: a unit with the block's bytes decodes to the texel that the image shows. -/
theorem decodedImageShowsEveryBlocksTexels : Obligations.DecodedImageShowsEveryBlocksTexels := by
  unfold Obligations.DecodedImageShowsEveryBlocksTexels
  intro f fill d w h s
  have hbs : (if f = .dxt1 then 8 else 16) = f.blockSize := by cases f <;> rfl
  have hch : (if f = .dxt1 then 3 else 4) = (decodedChannels f).count := by cases f <;> rfl
  simp only [hbs, hch]
  obtain ⟨t, ht⟩ := decodeImage_eq f fill d w h s
  refine ⟨t, _, ht, decodedImage_length .., fun X hX Y hY c hc u v hlen hin hv => ?_⟩
  obtain ⟨v', hv', -, htex⟩ := exec_imageTexel hlen fun m hm hlt =>
    BitVec.eq_of_toNat_eq ((inB_eq u m).symm.trans (hin m hm hlt))
  obtain rfl := Host.Outcome.next.inj (hv.symm.trans hv')
  refine ⟨⟨4 * (Y % 4) + X % 4, by omega⟩, rfl, ?_⟩
  rw [htex, lane_eq]
  exact congrArg BitVec.toNat (decodedImage_pixel f d hX hY hc)

/-- Settles O44, from the low and the high half of a block and the alpha of a sampled texel. -/
theorem quantizedImageHoldsEveryBlocksNibbles :
    Obligations.QuantizedImageHoldsEveryBlocksNibbles := by
  unfold Obligations.QuantizedImageHoldsEveryBlocksNibbles
  intro px w h ch out0 s
  dsimp only
  intro _ hlen
  obtain ⟨t, ht⟩ := quantizeImage_eq px w h ch out0 s
  refine ⟨t, _, ht, quantizedImage_length .., fun bx hx yb hy j hj => ?_⟩
  obtain ⟨hcol, hrow⟩ := grid_split (yb := yb) (nx := blocksAlong w) hx
  by_cases h8 : j < 8
  · rw [if_pos h8, buf_eq, show (w + 3) / 4 = blocksAlong w from rfl,
      quantizedImage_low hlen (grid_lt hx hy) h8, quantizedByte_eq _ h8, hcol, hrow,
      sampleTexel_alpha, sampleTexel_alpha]
  · rw [if_neg h8, buf_eq, quantizedImage_high px w h ch out0 (by omega) hj, buf_eq]

/-- Settles O45: the block's bytes in the transformed image, and the place that `remap` gives. -/
theorem rotatedImageMovesEveryBlock : Obligations.RotatedImageMovesEveryBlock := by
  unfold Obligations.RotatedImageMovesEveryBlock
  intro f d w h times s
  dsimp only
  intro hw hh hl
  obtain ⟨t, ht⟩ := rotateImage_eq f times s hw hh hl
  refine ⟨t, _, ht, transformed_length .., fun bx hx yb hy k hk => ?_⟩
  obtain rfl := stepsOf_eq hk
  have hk4 := stepsOf_lt times
  have hdst := rotatedBlock_grid hx (stepsOf times) (h / 4) yb
  generalize stepsOf times = k at *
  have hplace : (if k = 0 then yb * (w / 4) + bx
      else if k = 1 then bx * (h / 4) + (h / 4 - 1 - yb)
      else if k = 2 then (h / 4 - 1 - yb) * (w / 4) + (w / 4 - 1 - bx)
      else (w / 4 - 1 - bx) * (h / 4) + yb) =
      rotatedBlock k (w / 4) (h / 4) (yb * (w / 4) + bx) := by
    rw [hdst]
    interval_cases k <;> rfl
  rw [hplace]
  exact moved_of_gridPermute f (fun p => rotSrc_eq hk4) (fun p => mapRotate_lt k) fun m hm =>
    transformed_byte d _ (rotatedBlock_inj hk4) (rotatedBlock_lt hk4) (grid_lt hx hy) hm

/-- Settles O46, from the block's bytes in the transformed images. -/
theorem flippedImagesMoveEveryBlock : Obligations.FlippedImagesMoveEveryBlock := by
  unfold Obligations.FlippedImagesMoveEveryBlock
  intro f d w h s
  dsimp only
  intro hw hh hl
  obtain ⟨t, ht⟩ := flipImageH_eq f s hw hh hl
  obtain ⟨t', ht'⟩ := flipImageV_eq f s hw hh hl
  refine ⟨⟨t, _, ht, transformed_length .., fun b hb => ?_⟩,
    ⟨t', _, ht', transformed_length .., fun bx hx yb hy m hm => ?_⟩⟩
  · exact moved_of_gridPermute f (fun p => flipSrc_eq) (fun p => mapFlipH_lt) fun m hm =>
      transformed_byte (dst := fun n => n) d _ (fun _ _ _ _ e => e) (fun _ ha => ha) hb hm
  · rw [buf_eq, buf_eq, ← flippedBlock_grid hx,
      transformed_byte d _ flippedBlock_inj flippedBlock_lt (grid_lt hx hy) hm, gridCopy_eq f _ hm]

/-- Settles O47: two mirrorings of a block compose to the identity map. -/
theorem flipImageHTwiceGivesTheImageBack : Obligations.FlipImageHTwiceGivesTheImageBack := by
  unfold Obligations.FlipImageHTwiceGivesTheImageBack
  intro f d w h s hw hh hl
  obtain ⟨t, ht⟩ := flipImageH_eq f s hw hh hl.ge
  obtain ⟨u, hu⟩ := flipImageH_eq f t hw hh (transformed_length ..).ge
  refine ⟨t, u, _, ht, hu.trans ?_⟩
  rw [flippedH_flippedH, transformed_unchanged (gridBytes_pos f) hl.ge (permutesBlocks_id _)
    (fun _ _ => rfl) (fun b m hm => gridPermute_mapId f b hm), List.take_of_length_le hl.le]

/-- Settles O48: `rotated_rotated` on the image's grid, and the rotation by 0 moves nothing. -/
theorem imageRotationsAddUp : Obligations.ImageRotationsAddUp := by
  unfold Obligations.ImageRotationsAddUp
  intro f d w h a b s hw hh hl
  obtain ⟨t, ht⟩ := rotateImage_eq f a s hw hh hl
  refine ⟨?_, fun ha => ?_⟩
  · obtain ⟨u, hu⟩ := rotateImage_newSides f (l := transformed d _ _
      (rotatedBlock (stepsOf a) (w / 4) (h / 4)) (gridPermute f (mapRotate (stepsOf a))))
      a b t hw hh (transformed_length ..).ge
    obtain ⟨v, hv⟩ := rotateImage_eq f (a + b) s hw hh hl
    rw [rotated_rotated f d (stepsOf_lt a) (stepsOf_lt b), ← stepsOf_add] at hu
    exact ⟨t, _, u, _, v, ht, hu, hv⟩
  · rw [stepsOf_eq (k := 0) ha, transformed_unchanged (gridBytes_pos f) hl
      (permutesBlocks_rotated (by decide) ..)] at ht
    · exact ⟨t, ht⟩
    · intro k hk
      obtain ⟨-, -, hsplit⟩ := grid_unsplit hk
      exact hsplit.symm
    · exact fun b m hm => gridPermute_mapId f b hm

/-- Settles O49: each step count's block map and position map, on the pixel's coordinates. -/
theorem rotatedImageDecodesToRotatedPixels : Obligations.RotatedImageDecodesToRotatedPixels := by
  unfold Obligations.RotatedImageDecodesToRotatedPixels
  intro f fill d w h times s
  dsimp only
  intro hw hh hl
  obtain ⟨t, ht⟩ := rotateImage_eq f times s hw hh hl
  obtain ⟨u, hu⟩ := decodeImage_eq (decodeFmt f) fill d w h s
  refine ⟨t, _, u, _, ht, hu, fun X hX Y hY c hc => ?_⟩
  refine ⟨fun hk => ?_, fun hk => ?_, fun hk => ?_⟩
  · obtain ⟨v, hv⟩ := decodeImage_eq (decodeFmt f) fill _ h w s
    refine ⟨v, _, hv, ?_⟩
    rw [stepsOf_eq (k := 1) hk]
    refine pixel_rotated f (by decide) hw hh hh hl hX hY hc (by omega) hX rfl ?_ ?_
    · rw [opposite_div hh hY]
      rfl
    · simp only [mapRotate, mapRot1, opposite_mod hh hY]
      omega
  · obtain ⟨v, hv⟩ := decodeImage_eq (decodeFmt f) fill _ w h s
    refine ⟨v, _, hv, ?_⟩
    rw [stepsOf_eq (k := 2) hk]
    refine pixel_rotated f (by decide) hw hh hw hl hX hY hc (by omega) (by omega) rfl ?_ ?_
    · rw [opposite_div hw hX, opposite_div hh hY]
      rfl
    · simp only [mapRotate, mapRot2, opposite_mod hw hX, opposite_mod hh hY]
      omega
  · obtain ⟨v, hv⟩ := decodeImage_eq (decodeFmt f) fill _ h w s
    refine ⟨v, _, hv, ?_⟩
    rw [stepsOf_eq (k := 3) hk]
    refine pixel_rotated f (by decide) hw hh hh hl hX hY hc hY (by omega) rfl ?_ ?_
    · rw [opposite_div hw hX]
      rfl
    · simp only [mapRotate, mapRot3, opposite_mod hw hX]
      omega

/-- Settles O50: the mirrored block and the reversed block row, on the pixel's coordinates. -/
theorem flippedImagesDecodeToMovedPixels : Obligations.FlippedImagesDecodeToMovedPixels := by
  unfold Obligations.FlippedImagesDecodeToMovedPixels
  intro f fill d w h s
  dsimp only
  intro hw hh hl
  obtain ⟨t, ht⟩ := flipImageH_eq f s hw hh hl
  obtain ⟨t', ht'⟩ := flipImageV_eq f s hw hh hl
  obtain ⟨u, hu⟩ := decodeImage_eq (decodeFmt f) fill d w h s
  obtain ⟨v, hv⟩ := decodeImage_eq (decodeFmt f) fill _ w h s
  obtain ⟨v', hv'⟩ := decodeImage_eq (decodeFmt f) fill _ w h s
  refine ⟨t, _, t', _, u, _, v, _, v', _, ht, ht', hu, hv, hv', fun X hX Y hY c hc => ⟨?_, ?_⟩⟩
  · refine pixel_transformed f (src := mapFlipH) hw hh hw hl (permutesBlocks_id _)
      (fun b p hp => decodedTexel_gridPermute f _ b hp) hX hY hc (by omega) hY ?_ ?_
    · congr 1
      omega
    · simp only [mapFlipH]
      omega
  · refine pixel_transformed f (src := id) hw hh hw hl (permutesBlocks_flipped ..)
      (fun b p hp => ?_) hX hY hc hX (by omega) ?_ ?_
    · exact decodedTexel_congr _ (fun m hm => gridCopy_eq f b (decodeFmt_blockSize f ▸ hm)) hp
    · rw [flippedBlock_grid (by omega)]
      congr 2
      omega
    · simp only [id]
      omega

end Sys2Proof.Proofs

/-! ## Image sequences on several units, in any order, with resets

Every block of an image sequence stores the same bytes from whatever state its unit is in
(`imageSequence_stores`), so what the output buffer holds depends only on which places have been
copied to (spec 20_memory.md rule R44, 70_reset_and_hazards.md rule R114). -/

namespace Sys2Proof.Proofs

open Sys2Proof.Machine Sys2Proof.Claims Sys2Proof.Laws

/-! ### The places that actions copy to -/

/-- Place `j` of the output buffer is copied to by one of the actions. -/
def Covered (acts : List HostAct) (j : Nat) : Prop :=
  ∃ r off n, HostAct.copy r off n ∈ acts ∧ off ≤ j ∧ j < off + n

theorem covered_append {xs ys : List HostAct} {j : Nat} :
    Covered (xs ++ ys) j ↔ Covered xs j ∨ Covered ys j := by
  simp only [Covered, List.mem_append, or_and_right, exists_or]

theorem covered_flatten {blocks : List (List HostAct)} {j : Nat} :
    Covered blocks.flatten j ↔ ∃ acts ∈ blocks, Covered acts j := by
  simp only [Covered, List.mem_flatten]
  constructor
  · rintro ⟨r, off, n, ⟨acts, ha, hm⟩, hj⟩
    exact ⟨acts, ha, r, off, n, hm, hj⟩
  · rintro ⟨acts, ha, r, off, n, hm, hj⟩
    exact ⟨r, off, n, ⟨acts, ha, hm⟩, hj⟩

/-- A byte after one action: `V` where the action copies to, as before elsewhere. -/
theorem storedBy_byte (V : Nat → Byte) (a : HostAct) {out : List Byte} {j : Nat}
    (hj : j < out.length) : (Covered [a] j → bufByte (storedBy V a out) j = V j) ∧
      (¬ Covered [a] j → bufByte (storedBy V a out) j = bufByte out j) := by
  cases a with
  | write r v => simp [Covered, storedBy]
  | check => simp [Covered, storedBy]
  | copy r off n =>
    have hcov : Covered [.copy r off n] j ↔ off ≤ j ∧ j < off + n := by simp [Covered]
    rw [storedBy_copy_byte V r off n hj, hcov]
    exact ⟨fun h => if_pos h, fun h => if_neg h⟩

/-- The output buffer after actions that store the bytes `V`. -/
def storedAll (V : Nat → Byte) (acts : List HostAct) (out : List Byte) : List Byte :=
  acts.foldl (fun o a => storedBy V a o) out

@[simp] theorem storedAll_cons (V : Nat → Byte) (a : HostAct) (rest : List HostAct)
    (out : List Byte) : storedAll V (a :: rest) out = storedAll V rest (storedBy V a out) := rfl

theorem storedAll_append (V : Nat → Byte) (xs ys : List HostAct) (out : List Byte) :
    storedAll V (xs ++ ys) out = storedAll V ys (storedAll V xs out) := List.foldl_append ..

@[simp] theorem storedAll_length (V : Nat → Byte) (acts : List HostAct) (out : List Byte) :
    (storedAll V acts out).length = out.length := by
  induction acts generalizing out with
  | nil => rfl
  | cons a rest ih => rw [storedAll_cons, ih, storedBy_length]

/-- A byte after several actions: `V` where they copy to, as before elsewhere. -/
theorem storedAll_byte (V : Nat → Byte) (acts : List HostAct) {out : List Byte} {j : Nat}
    (hj : j < out.length) : (Covered acts j → bufByte (storedAll V acts out) j = V j) ∧
      (¬ Covered acts j → bufByte (storedAll V acts out) j = bufByte out j) := by
  induction acts generalizing out with
  | nil => exact ⟨fun ⟨_, _, _, hm, _⟩ => absurd hm List.not_mem_nil, fun _ => rfl⟩
  | cons a rest ih =>
    obtain ⟨hset, hkeep⟩ := storedBy_byte V a hj
    obtain ⟨ihset, ihkeep⟩ := ih (out := storedBy V a out) (by rwa [storedBy_length])
    rw [← List.singleton_append, covered_append, List.singleton_append, storedAll_cons]
    by_cases hr : Covered rest j
    · exact ⟨fun _ => ihset hr, fun hn => absurd (.inr hr) hn⟩
    · rw [ihkeep hr]
      exact ⟨fun hc => hset (hc.resolve_right hr), fun hn => hkeep fun hc => hn (.inl hc)⟩

theorem bytes_ext {l r : List Byte} (hlen : l.length = r.length)
    (h : ∀ j < r.length, bufByte l j = bufByte r j) : l = r := by
  refine List.ext_getElem hlen fun j hl hr => ?_
  simpa [bufByte, hl, hr] using h j hr

/-- A buffer is the one after the actions `acts` if it holds `V` where they copy to and what `out`
holds elsewhere. -/
theorem eq_storedAll {V : Nat → Byte} {acts : List HostAct} {l out : List Byte}
    (hlen : l.length = out.length)
    (hset : ∀ j < out.length, Covered acts j → bufByte l j = V j)
    (hkeep : ∀ j < out.length, ¬ Covered acts j → bufByte l j = bufByte out j) :
    l = storedAll V acts out := by
  refine bytes_ext (by rw [hlen, storedAll_length]) fun j hj => ?_
  rw [storedAll_length] at hj
  obtain ⟨hset', hkeep'⟩ := storedAll_byte V acts hj
  by_cases hc : Covered acts j
  · rw [hset j hj hc, hset' hc]
  · rw [hkeep j hj hc, hkeep' hc]

/-- Which actions store the bytes `V`, and how often, does not matter: only where they copy to. -/
theorem storedAll_congr (V : Nat → Byte) {xs ys : List HostAct}
    (h : ∀ j, Covered xs j ↔ Covered ys j) (out : List Byte) :
    storedAll V xs out = storedAll V ys out :=
  eq_storedAll (storedAll_length ..) (fun j hj hc => (storedAll_byte V xs hj).1 ((h j).2 hc))
    (fun j hj hc => (storedAll_byte V xs hj).2 (mt (h j).1 hc))

/-! ### The undisturbed run -/

theorem actsStore_append {V : Nat → Byte} {xs ys : List HostAct} {s : State}
    (hx : ActsStore V xs s) (hy : ∀ t, ActsStore V ys t) : ActsStore V (xs ++ ys) s := by
  induction xs generalizing s with
  | nil => exact hy s
  | cons a xs ih =>
    obtain ⟨t, ht, hrest⟩ := hx
    exact ⟨t, ht, ih hrest⟩

theorem actsStore_flatten {V : Nat → Byte} {blocks : List (List HostAct)}
    (h : ∀ acts ∈ blocks, ∀ s, ActsStore V acts s) (s : State) : ActsStore V blocks.flatten s := by
  induction blocks generalizing s with
  | nil => trivial
  | cons b rest ih =>
    rw [List.flatten_cons]
    exact actsStore_append (h b (by simp) s) (ih fun acts ha => h acts (by simp [ha]))

theorem runActs_of_actsStore {V : Nat → Byte} {acts : List HostAct} {s : State}
    (h : ActsStore V acts s) (out : List Byte) :
    ∃ t, runActs acts (s, out) = .next (t, storedAll V acts out) := by
  induction acts generalizing s out with
  | nil => exact ⟨s, rfl⟩
  | cons a rest ih =>
    obtain ⟨t, ht, hrest⟩ := h
    obtain ⟨u, hu⟩ := ih hrest (storedBy V a out)
    exact ⟨u, by rw [runActs_cons, ht, andThen_next, hu, storedAll_cons]⟩

theorem runBlocks_eq_runActs (blocks : List (List HostAct)) (p : State × List Byte) :
    runBlocks blocks p = runActs blocks.flatten p := by
  induction blocks generalizing p with
  | nil => rfl
  | cons b rest ih =>
    rw [List.flatten_cons, runActs_append, runBlocks]
    exact congrArg (andThen (runActs b p)) (funext ih)

/-- The undisturbed run of a sequence whose blocks store the bytes `V`. -/
theorem Sequence_run_of_stores {V : Nat → Byte} {q : Sequence}
    (hV : ∀ acts ∈ q.blocks, ∀ s, ActsStore V acts s) (s : State) :
    ∃ t, q.run s = .next (t, storedAll V q.blocks.flatten q.out) := by
  rw [Sequence.run, runBlocks_eq_runActs]
  exact runActs_of_actsStore (actsStore_flatten hV s) q.out

/-! ### Blocks of an image sequence -/

/-- A rotation or flip that does not fault is a transform of the blocks of its buffer. -/
theorem transformSequence_of_next {q : Sequence}
    (hq : (∃ f d w h times, rotateSequence f d w h times = .next q) ∨
      ∃ d w h bs, flipHSequence d w h bs = .next q ∨ flipVSequence d w h bs = .next q) :
    ∃ d bs n i dst, q = transformSequence d bs n i dst := by
  rcases hq with ⟨f, d, w, h, times, hq⟩ | ⟨d, w, h, bs, hq | hq⟩
  · simp only [rotateSequence] at hq
    split_ifs at hq
    cases hq
    exact ⟨_, _, _, _, _, rfl⟩
  all_goals
    simp only [flipHSequence, flipVSequence] at hq
    split at hq
    · cases hq
    split at hq
    · cases hq
    split_ifs at hq
    cases hq
    exact ⟨_, _, _, _, _, rfl⟩

/-- Every block of an image sequence is one command and what the host copies after it (rules R48 to
R52). -/
theorem imageSequence_block_command {q : Sequence} (h : IsImageSequence q) :
    ∀ acts ∈ q.blocks, ∃ b size len i ys, acts = commandActs b size len i ++ ys := by
  intro acts ha
  rcases h with ⟨f, fill, d, w, h, rfl⟩ | ⟨px, w, h, ch, out, rfl⟩ | h
  case' inr.inr => obtain ⟨d, bs, n, i, dst, rfl⟩ := transformSequence_of_next h
  all_goals
    obtain ⟨k, -, rfl⟩ := mem_over ha
    exact ⟨_, _, _, _, _, rfl⟩

theorem imageSequence_block_ne_nil {q : Sequence} (h : IsImageSequence q) :
    ∀ acts ∈ q.blocks, acts ≠ [] := by
  intro acts ha
  obtain ⟨b, size, len, i, ys, rfl⟩ := imageSequence_block_command h acts ha
  simp [commandActs]

/-! ### A plan, block by block -/

/-- An agent's action that runs through: the worker then, the buffer, and the block it ends. -/
theorem act_of_run {s t : State} {k : Nat} {a : HostAct} {rest : List HostAct}
    {out out' : List Byte} (h : a.run (s, out) = .next (t, out')) :
    (⟨s, some ⟨k, a :: rest⟩⟩ : Worker).act out = .next
      (⟨t, if rest = [] then none else some ⟨k, rest⟩⟩, out', if rest = [] then [k] else []) := by
  cases rest <;> simp [Worker.act, h]

/-- The agent on unit `u` does all the actions it still has in hand. -/
theorem runTurns_acts (q : Sequence) {V : Nat → Byte} {u k : Nat} {acts : List HostAct}
    (hne : acts ≠ []) {s : State} (hV : ActsStore V acts s) {p : Progress}
    (hw : p.workers[u]? = some ⟨s, some ⟨k, acts⟩⟩) :
    ∃ t, runTurns q (List.replicate acts.length (.act u)) p =
      .next ⟨p.workers.set u ⟨t, none⟩, storedAll V acts p.out, k :: p.done⟩ := by
  induction acts generalizing s p with
  | nil => exact absurd rfl hne
  | cons a rest ih =>
    obtain ⟨t, ht, hrest⟩ := hV
    have hact := (run_act (q := q) hw).trans (congrArg (andThen · _) (act_of_run (ht p.out)))
    rw [List.length_cons, List.replicate_succ, runTurns, hact, andThen_next, andThen_next]
    by_cases hr : rest = []
    · subst hr
      exact ⟨t, rfl⟩
    · have hu : u < p.workers.length := (List.getElem?_eq_some_iff.1 hw).1
      obtain ⟨t', ht'⟩ := ih hr hrest (p := ⟨p.workers.set u ⟨t, some ⟨k, rest⟩⟩,
        storedBy V a p.out, p.done⟩) (by simp [hu])
      refine ⟨t', ?_⟩
      simp only [if_neg hr, List.nil_append, ht', List.set_set, storedAll_cons]

/-- The agent on unit `u` takes block `k` and does all its actions. -/
theorem runTurns_wholeBlock {q : Sequence} {V : Nat → Byte} {u k : Nat}
    (hne : ∀ acts ∈ q.blocks, acts ≠ []) (hV : ∀ acts ∈ q.blocks, ∀ s, ActsStore V acts s)
    {p : Progress} (hu : u < p.workers.length) :
    ∃ p', runTurns q (wholeBlock q u k) p = .next p' ∧ p'.workers.length = p.workers.length ∧
      p'.out = storedAll V (q.blocks.getD k []) p.out ∧
      ∀ i, i ∈ p'.done ↔ (i = k ∧ k < q.blocks.length) ∨ i ∈ p.done := by
  rw [wholeBlock, runTurns, run_take (List.getElem?_eq_getElem hu), andThen_next]
  by_cases hk : k < q.blocks.length
  · have hmem : q.blocks[k] ∈ q.blocks := List.getElem_mem hk
    have hget : q.blocks.getD k [] = q.blocks[k] := by simp [hk]
    obtain ⟨t, ht⟩ := runTurns_acts q (hne _ hmem) (hV _ hmem p.workers[u].unit)
      (p := { p with workers := p.workers.set u (p.workers[u].take q k) }) (u := u) (k := k)
      (by simp [hu, hk, Worker.take])
    rw [hget]
    exact ⟨_, ht, by simp, rfl, fun i => by simp [hk]⟩
  · have hget : q.blocks.getD k [] = [] := by simp [Nat.not_lt.1 hk]
    rw [hget]
    exact ⟨_, rfl, by simp, rfl, fun i => by simp [hk]⟩

/-- A plan runs through, stores what its blocks store, and ends all of them. -/
theorem runTurns_plan {q : Sequence} {V : Nat → Byte}
    (hne : ∀ acts ∈ q.blocks, acts ≠ []) (hV : ∀ acts ∈ q.blocks, ∀ s, ActsStore V acts s)
    (plan : List (Nat × Nat)) {p : Progress} (hu : ∀ b ∈ plan, b.1 < p.workers.length) :
    ∃ p', runTurns q (planTurns q plan) p = .next p' ∧
      p'.out = storedAll V (plan.map fun b => q.blocks.getD b.2 []).flatten p.out ∧
      ∀ k < q.blocks.length, (k ∈ p.done ∨ ∃ u, (u, k) ∈ plan) → k ∈ p'.done := by
  induction plan generalizing p with
  | nil => exact ⟨p, rfl, rfl, fun k _ hk => by simpa using hk⟩
  | cons b rest ih =>
    obtain ⟨p₁, hrun, hlen, hout, hdone⟩ :=
      runTurns_wholeBlock (k := b.2) hne hV (hu b List.mem_cons_self)
    obtain ⟨p₂, hrun', hout', hdone'⟩ := ih (p := p₁) fun c hc => by
      rw [hlen]
      exact hu c (List.mem_cons_of_mem _ hc)
    refine ⟨p₂, ?_, ?_, fun k hk h => hdone' k hk ?_⟩
    · rw [planTurns, List.flatMap_cons, runTurns_append, hrun, andThen_next]
      exact hrun'
    · rw [hout', hout, List.map_cons, List.flatten_cons, storedAll_append]
    · rw [hdone]
      rcases h with h | ⟨u, h⟩
      · exact .inl (.inr h)
      · rcases List.mem_cons.1 h with rfl | h
        · exact .inl (.inl ⟨rfl, hk⟩)
        · exact .inr ⟨u, h⟩

/-- A plan with every block in it copies to the places of the whole sequence. -/
theorem covered_plan {q : Sequence} {plan : List (Nat × Nat)}
    (hall : ∀ k < q.blocks.length, ∃ u, (u, k) ∈ plan) (j : Nat) :
    Covered (plan.map fun b => q.blocks.getD b.2 []).flatten j ↔ Covered q.blocks.flatten j := by
  rw [covered_flatten, covered_flatten]
  constructor
  · rintro ⟨acts, ha, hc⟩
    obtain ⟨⟨u, k⟩, -, rfl⟩ := List.mem_map.1 ha
    by_cases hk : k < q.blocks.length
    · exact ⟨q.blocks[k], List.getElem_mem hk, by simpa [hk] using hc⟩
    · simp [Covered, Nat.not_lt.1 hk] at hc
  · rintro ⟨acts, ha, hc⟩
    obtain ⟨k, hk, rfl⟩ := List.getElem_of_mem ha
    obtain ⟨u, hu⟩ := hall k hk
    exact ⟨_, List.mem_map.2 ⟨_, hu, rfl⟩, by simpa [hk] using hc⟩

/-! ### Turns with resets among them -/

/-- The buffer holds `V` wherever the actions copy to. -/
def Holds (V : Nat → Byte) (acts : List HostAct) (out : List Byte) : Prop :=
  ∀ j < out.length, Covered acts j → bufByte out j = V j

/-- The buffer went from `out` to `out'` by copies of `V` to places of the sequence. -/
def Advances (q : Sequence) (V : Nat → Byte) (out out' : List Byte) : Prop :=
  out'.length = out.length ∧ ∀ j < out.length, bufByte out' j = bufByte out j ∨
    (bufByte out' j = V j ∧ Covered q.blocks.flatten j)

theorem Advances.refl (q : Sequence) (V : Nat → Byte) (out : List Byte) : Advances q V out out :=
  ⟨rfl, fun _ _ => .inl rfl⟩

/-- An action of a block of the sequence advances the buffer. -/
theorem advances_storedBy {q : Sequence} (V : Nat → Byte) {a : HostAct} {acts : List HostAct}
    (hacts : acts ∈ q.blocks) (ha : a ∈ acts) (out : List Byte) :
    Advances q V out (storedBy V a out) := by
  refine ⟨storedBy_length .., fun j hj => ?_⟩
  obtain ⟨hset, hkeep⟩ := storedBy_byte V a hj
  by_cases hc : Covered [a] j
  · obtain ⟨r, off, n, hm, hin⟩ := hc
    obtain rfl := List.mem_singleton.1 hm
    exact .inr ⟨hset ⟨r, off, n, hm, hin⟩, covered_flatten.2 ⟨acts, hacts, r, off, n, ha, hin⟩⟩
  · exact .inl (hkeep hc)

theorem Holds.advance {q : Sequence} {V : Nat → Byte} {acts : List HostAct} {out out' : List Byte}
    (h : Holds V acts out) (hadv : Advances q V out out') : Holds V acts out' := by
  obtain ⟨hlen, hbyte⟩ := hadv
  intro j hj hc
  rw [hlen] at hj
  rcases hbyte j hj with e | ⟨e, -⟩
  · exact e.trans (h j hj hc)
  · exact e

theorem holds_append {V : Nat → Byte} {xs ys : List HostAct} {out : List Byte}
    (hx : Holds V xs out) (hy : Holds V ys out) : Holds V (xs ++ ys) out := fun j hj hc =>
  (covered_append.1 hc).elim (hx j hj) (hy j hj)

/-- What a worker has in hand is the end of a block whose beginning is done, and it stores `V`. -/
def JobOnCourse (q : Sequence) (V : Nat → Byte) (out : List Byte) (w : Worker) : Prop :=
  ∀ k rest, w.job = some ⟨k, rest⟩ → ActsStore V rest w.unit ∧
    ∃ before, q.blocks[k]? = some (before ++ rest) ∧ Holds V before out

theorem JobOnCourse.advance {q : Sequence} {V : Nat → Byte} {out out' : List Byte} {w : Worker}
    (h : JobOnCourse q V out w) (hadv : Advances q V out out') : JobOnCourse q V out' w := by
  intro k rest hj
  obtain ⟨hstore, before, hblock, hholds⟩ := h k rest hj
  exact ⟨hstore, before, hblock, hholds.advance hadv⟩

/-- A worker that takes a block is on course, whatever state its unit is in. -/
theorem jobOnCourse_take {q : Sequence} {V : Nat → Byte}
    (hV : ∀ acts ∈ q.blocks, ∀ s, ActsStore V acts s) (k : Nat) (w : Worker) (out : List Byte) :
    JobOnCourse q V out (w.take q k) := by
  intro k' rest hj
  obtain ⟨acts, hacts, e⟩ := Option.map_eq_some_iff.1 hj
  cases e
  exact ⟨hV rest (List.mem_of_getElem? hacts) _, [], hacts,
    fun j _ ⟨_, _, _, hm, _⟩ => absurd hm List.not_mem_nil⟩

/-- The next action of a worker on course: it runs through, the worker stays on course, and a block
that it ends is in the buffer. -/
theorem act_onCourse {q : Sequence} {V : Nat → Byte} {out : List Byte} {w : Worker}
    (h : JobOnCourse q V out w) : ∃ w' out' ended, w.act out = .next (w', out', ended) ∧
      Advances q V out out' ∧ JobOnCourse q V out' w' ∧
      ∀ k ∈ ended, ∀ acts, q.blocks[k]? = some acts → Holds V acts out' := by
  obtain ⟨s, _ | ⟨k, _ | ⟨a, rest⟩⟩⟩ := w
  · exact ⟨_, _, _, rfl, .refl q V out, h, by simp⟩
  · exact ⟨_, _, _, rfl, .refl q V out, fun _ _ hj => (nomatch hj), by simp⟩
  obtain ⟨⟨t, ht, hrest⟩, before, hblock, hholds⟩ := h k (a :: rest) rfl
  have hadv : Advances q V out (storedBy V a out) :=
    advances_storedBy V (List.mem_of_getElem? hblock) (by simp) out
  have hdone : Holds V (before ++ [a]) (storedBy V a out) :=
    holds_append (hholds.advance hadv) fun j hj hc =>
      (storedBy_byte V a (by rwa [storedBy_length] at hj)).1 hc
  refine ⟨_, _, _, act_of_run (ht out), hadv, ?_, ?_⟩
  · intro k' rest' hj
    by_cases hr : rest = []
    · simp [hr] at hj
    · obtain ⟨rfl, rfl⟩ : k = k' ∧ rest = rest' := by simpa [hr] using hj
      exact ⟨hrest, before ++ [a], by simpa using hblock, hdone⟩
  · intro k' hk' acts hacts
    by_cases hr : rest = []
    · obtain rfl : k' = k := by simpa [hr] using hk'
      obtain rfl : before ++ [a] = acts := by simpa [hr, hblock] using hacts
      exact hdone
    · simp [hr] at hk'

/-- What every turn keeps, while the turns `ts` are still to come: the buffer holds `V` where done
blocks copy to and is as it was where no block copies to, and every worker that acts before it takes
a block is on course. -/
structure OnCourse (q : Sequence) (V : Nat → Byte) (ts : List Turn) (p : Progress) : Prop where
  length : p.out.length = q.out.length
  untouched : ∀ j < q.out.length, ¬ Covered q.blocks.flatten j → bufByte p.out j = bufByte q.out j
  finished : ∀ k ∈ p.done, ∀ acts, q.blocks[k]? = some acts → Holds V acts p.out
  inHand : ∀ (u : Nat) (w : Worker), p.workers[u]? = some w → actsBeforeTaking u ts = true →
    JobOnCourse q V p.out w

theorem onCourse_begin (q : Sequence) (V : Nat → Byte) (ts : List Turn) (sys : System) :
    OnCourse q V ts (.begin q sys) where
  length := rfl
  untouched _ _ _ := rfl
  finished k hk := absurd hk List.not_mem_nil
  inHand u w hw _ k rest hj := by
    obtain ⟨s, -, rfl⟩ := by simpa [Progress.begin] using hw
    cases hj

/-- A turn of another unit does not change whether the agent on `v` acts before it takes a block. -/
theorem actsBeforeTaking_cons {v : Nat} {t : Turn} {ts : List Turn} (hv : v ≠ t.unit)
    (h : actsBeforeTaking v ts = true) : actsBeforeTaking v (t :: ts) = true := by
  cases t with
  | take u k => simpa [actsBeforeTaking, h, Turn.unit] using Ne.symm hv
  | act u => simp [actsBeforeTaking, h]
  | reset u => exact h

/-- A turn that leaves its own worker on course, if that acts before it takes a block, and advances
the buffer keeps everything on course. -/
theorem OnCourse.turn {q : Sequence} {V : Nat → Byte} {t : Turn} {ts : List Turn} {p : Progress}
    (h : OnCourse q V (t :: ts) p) {w : Worker} {out : List Byte} {ended : List Nat}
    (hadv : Advances q V p.out out)
    (hended : ∀ k ∈ ended, ∀ acts, q.blocks[k]? = some acts → Holds V acts out)
    (hw : actsBeforeTaking t.unit ts = true → JobOnCourse q V out w) :
    OnCourse q V ts ⟨p.workers.set t.unit w, out, ended ++ p.done⟩ where
  length := hadv.1.trans h.length
  untouched j hj hc := by
    rcases hadv.2 j (h.length ▸ hj) with e | ⟨-, hc'⟩
    · exact e.trans (h.untouched j hj hc)
    · exact absurd hc' hc
  finished k hk acts hacts := by
    rcases List.mem_append.1 hk with hk | hk
    · exact hended k hk acts hacts
    · exact (h.finished k hk acts hacts).advance hadv
  inHand v w' hv hacts := by
    by_cases hu : v = t.unit
    · subst hu
      rw [List.getElem?_set_self'] at hv
      obtain ⟨_, -, rfl⟩ := Option.map_eq_some_iff.1 hv
      exact hw hacts
    · rw [List.getElem?_set_ne (Ne.symm hu)] at hv
      exact (h.inHand v w' hv (actsBeforeTaking_cons hu hacts)).advance hadv

theorem rewritesAfterReset_tail {t : Turn} {ts : List Turn}
    (h : rewritesAfterReset (t :: ts) = true) : rewritesAfterReset ts = true := by
  cases t with
  | take u k => exact h
  | act u => exact h
  | reset u => exact (Bool.and_eq_true_iff.1 h).2

/-- One turn runs through and keeps everything on course. -/
theorem run_onCourse {q : Sequence} {V : Nat → Byte}
    (hV : ∀ acts ∈ q.blocks, ∀ s, ActsStore V acts s) {t : Turn} {ts : List Turn} {p : Progress}
    (hu : t.unit < p.workers.length) (hreset : rewritesAfterReset (t :: ts) = true)
    (h : OnCourse q V (t :: ts) p) : ∃ p', t.run q p = .next p' ∧
      p'.workers.length = p.workers.length ∧ OnCourse q V ts p' := by
  have hw := List.getElem?_eq_getElem hu
  cases t with
  | take u k =>
    exact ⟨_, run_take hw k, List.length_set, h.turn (ended := []) (.refl q V p.out) (by simp)
      fun _ => jobOnCourse_take hV k _ _⟩
  | act u =>
    obtain ⟨w', out', ended, hact, hadv, hjob, hended⟩ :=
      act_onCourse (h.inHand u _ hw (by simp [actsBeforeTaking]))
    exact ⟨_, (run_act hw).trans (by rw [hact, andThen_next]), List.length_set,
      h.turn hadv hended fun _ => hjob⟩
  | reset u =>
    have htake : actsBeforeTaking u ts = false := by
      simpa using (Bool.and_eq_true_iff.1 hreset).1
    exact ⟨_, run_reset hw, List.length_set, h.turn (ended := []) (.refl q V p.out) (by simp)
      fun hacts => absurd hacts (by simp [Turn.unit, htake])⟩

theorem runTurns_onCourse {q : Sequence} {V : Nat → Byte}
    (hV : ∀ acts ∈ q.blocks, ∀ s, ActsStore V acts s) {ts : List Turn} {p : Progress}
    (hu : ∀ t ∈ ts, t.unit < p.workers.length) (hreset : rewritesAfterReset ts = true)
    (h : OnCourse q V ts p) : ∃ p', runTurns q ts p = .next p' ∧ OnCourse q V [] p' := by
  induction ts generalizing p with
  | nil => exact ⟨p, rfl, h⟩
  | cons t ts ih =>
    obtain ⟨p₁, hrun, hlen, h₁⟩ := run_onCourse hV (hu t List.mem_cons_self) hreset h
    obtain ⟨p₂, hrun', h₂⟩ := ih (p := p₁)
      (fun t' ht' => by rw [hlen]; exact hu t' (List.mem_cons_of_mem _ ht'))
      (rewritesAfterReset_tail hreset) h₁
    exact ⟨p₂, by rw [runTurns, hrun, andThen_next, hrun'], h₂⟩

/-- Once every block is done the buffer is that of the undisturbed run. -/
theorem OnCourse.out_eq {q : Sequence} {V : Nat → Byte} {ts : List Turn} {p : Progress}
    (h : OnCourse q V ts p) (hdone : ∀ k < q.blocks.length, k ∈ p.done) :
    p.out = storedAll V q.blocks.flatten q.out := by
  refine eq_storedAll h.length (fun j hj hc => ?_) h.untouched
  obtain ⟨acts, ha, hc⟩ := covered_flatten.1 hc
  obtain ⟨k, hk, rfl⟩ := List.getElem_of_mem ha
  exact h.finished k (hdone k hk) _ (List.getElem?_eq_getElem hk) j (h.length.symm ▸ hj) hc

/-! ### The obligations -/

/-- Settles O53: a plan with every block in it copies the same bytes to the same places. -/
theorem anyBlockOrderOnAnyUnitsGivesTheSameBuffer :
    Obligations.AnyBlockOrderOnAnyUnitsGivesTheSameBuffer := by
  unfold Obligations.AnyBlockOrderOnAnyUnitsGivesTheSameBuffer
  intro q hq sys plan s hunits hall
  obtain ⟨V, hV⟩ := imageSequence_stores hq
  obtain ⟨p, hrun, hout, hdone⟩ := runTurns_plan (imageSequence_block_ne_nil hq) hV plan
    (p := .begin q sys) (by simpa [Progress.begin] using hunits)
  obtain ⟨t, ht⟩ := Sequence_run_of_stores hV s
  refine ⟨p, t, hrun, fun k hk => hdone k hk (.inr (hall k hk)), ?_⟩
  rw [ht, hout, storedAll_congr V (covered_plan hall)]
  rfl

/-- Settles O54: every turn keeps the sequence on course, since a worker whose unit was reset takes
a block before it acts. -/
theorem resetSequencesContinueCorrectlyAfterRewriting :
    Obligations.ResetSequencesContinueCorrectlyAfterRewriting := by
  unfold Obligations.ResetSequencesContinueCorrectlyAfterRewriting
  intro q hq sys ts s hunits hreset
  obtain ⟨V, hV⟩ := imageSequence_stores hq
  obtain ⟨p, hrun, hp⟩ := runTurns_onCourse hV (p := .begin q sys)
    (by simpa [Progress.begin] using hunits) hreset (onCourse_begin q V ts sys)
  obtain ⟨t, ht⟩ := Sequence_run_of_stores hV s
  exact ⟨p, hrun, fun hdone => ⟨t, by rw [ht, hp.out_eq hdone]⟩⟩

end Sys2Proof.Proofs

/-! ## Command words and their errors

The words of rule R59's table, the error of every other word and of a short input, and the spellings
of rule R65 (spec 30_encoding.md, 60_exceptions.md rules R101 to R103). -/

namespace Sys2Proof.Proofs

open Sys2Proof.Machine Sys2Proof.Claims Sys2Proof.Laws

/-! ### Legal words -/

theorem decode_encode {i : Instr} (h : i.WellFormed) : decode (encode i) = .ok i := by
  cases i with
  | rotateDxt1 k =>
    have hk : k < 4 := of_decide_eq_true h
    interval_cases k <;> rfl
  | rotateDxt5 k =>
    have hk : k < 4 := of_decide_eq_true h
    interval_cases k <;> rfl
  | _ => rfl

theorem decode_eq_ok_iff {w : Word} {i : Instr} :
    decode w = .ok i ↔ i.WellFormed ∧ w = encode i := by
  refine ⟨eq_encode_of_decode, ?_⟩
  rintro ⟨hi, rfl⟩
  exact decode_encode hi

theorem decode_eq_ok_iff_eq_encode {w : Word} {i : Instr} (hi : i.WellFormed) :
    decode w = .ok i ↔ w = encode i :=
  decode_eq_ok_iff.trans (and_iff_right hi)

/-- A word of a ROTATE row, `c` the row's word with K = 0 (rule R59). -/
theorem eq_rotateWord_iff {w : Word} {c k : Nat} (hc : c < 64) :
    (k < 4 ∧ w = BitVec.ofNat 32 (c + 0x40 * (k % 4))) ↔ k < 4 ∧ w.toNat = c + 0x40 * k := by
  refine and_congr_right fun hk => ?_
  rw [Nat.mod_eq_of_lt hk, BitVec.toNat_eq, BitVec.toNat_ofNat, Nat.mod_eq_of_lt (by omega)]

theorem decode_eq_rotateDxt1_iff {w : Word} {k : Nat} :
    decode w = .ok (.rotateDxt1 k) ↔ k < 4 ∧ w.toNat = 0x00000003 + 0x40 * k := by
  rw [decode_eq_ok_iff, ← eq_rotateWord_iff (by decide)]
  exact and_congr_left' decide_eq_true_iff

theorem decode_eq_rotateDxt5_iff {w : Word} {k : Nat} :
    decode w = .ok (.rotateDxt5 k) ↔ k < 4 ∧ w.toNat = 0x00000023 + 0x40 * k := by
  rw [decode_eq_ok_iff, ← eq_rotateWord_iff (by decide)]
  exact and_congr_left' decide_eq_true_iff

/-! ### ROTATE's row by its mask -/

theorem bits_and (x y lo width : Nat) :
    bits (x &&& y) lo width = bits x lo width &&& bits y lo width := by
  rw [bits, bits, bits, Nat.and_div_two_pow, Nat.and_mod_two_pow]

/-- A mask keeps a field whose bits it has all set. -/
theorem bits_and_of_ones {x m lo width : Nat} (hm : bits m lo width = 2 ^ width - 1) :
    bits (x &&& m) lo width = bits x lo width := by
  rw [bits_and, hm, Nat.and_two_pow_sub_one_of_lt_two_pow (bits_lt ..)]

/-- A mask clears a field whose bits it has all clear. -/
theorem bits_and_of_zeros {x m lo width : Nat} (hm : bits m lo width = 0) :
    bits (x &&& m) lo width = 0 := by
  rw [bits_and, hm, Nat.and_zero]

/-- Under ROTATE's mask a word keeps its fields but for K (rules R55 and R59). -/
theorem toNat_and_rotateMask (w : Word) :
    (w &&& 0xFFFFFF3F#32).toNat = fieldOp w + 16 * fieldFmt w + 256 * fieldRsv w := by
  have hop : fieldOp (w &&& 0xFFFFFF3F#32) = fieldOp w := bits_and_of_ones rfl
  have hfmt : fieldFmt (w &&& 0xFFFFFF3F#32) = fieldFmt w := bits_and_of_ones rfl
  have hk : fieldK (w &&& 0xFFFFFF3F#32) = 0 := bits_and_of_zeros rfl
  have hrsv : fieldRsv (w &&& 0xFFFFFF3F#32) = fieldRsv w := bits_and_of_ones rfl
  rw [word_toNat_of_fields, hop, hfmt, hk, hrsv, Nat.mul_zero, Nat.add_zero]

/-- A word equals `c` under ROTATE's mask exactly if it is `c` with some K in bits 7 to 6. -/
theorem and_rotateMask_eq_iff (w : Word) {c : Nat} (hc : c < 64) :
    w &&& 0xFFFFFF3F#32 = BitVec.ofNat 32 c ↔ ∃ k, k < 4 ∧ w.toNat = c + 0x40 * k := by
  have hw := word_toNat_of_fields w
  have hop := fieldOp_lt w
  have hfmt := fieldFmt_lt w
  have hk := fieldK_lt w
  rw [BitVec.toNat_eq, toNat_and_rotateMask, BitVec.toNat_ofNat, Nat.mod_eq_of_lt (by omega)]
  constructor
  · exact fun h => ⟨fieldK w, hk, by omega⟩
  · rintro ⟨k, hk', h⟩
    omega

/-! ### Errors -/

theorem errCode_ne_zero (e : ErrCode) : e.code ≠ 0 := by cases e <;> decide

/-- A command that is neither NOP nor a DECODE ends with ERR_TRUNC on a short input (rule R101). -/
theorem exec_trunc {i : Instr} {s : State} (hnop : i ≠ .nop) (hd : decodeSize i = none)
    (hs : s.inlen.toNat < blockSizeOf i) : exec i s = .next (s.raiseError .trunc) := by
  obtain ⟨out, ho⟩ : ∃ out, outOf s.inByte i = some out := by
    cases i <;> simp_all [outOf, decodeSize]
  exact exec_out_short ho hs

/-- A write of CMD that ends with an error changes CMD and STATUS alone (rule R102). -/
theorem runCommand_of_errorOf_ne_zero {v : Word} {s : State}
    (h : errorOf v.toNat s.inlen.toNat ≠ 0) : runCommand v s =
      .next { s with cmd := v, status := BitVec.ofNat 32 (errorOf v.toNat s.inlen.toNat) } := by
  cases hd : decode v with
  | ok i =>
    rw [errorOf_legal hd] at h ⊢
    have hc := (ite_ne_right_iff.1 h).1
    rw [if_pos hc, runCommand_ok hd]
    obtain ⟨hnop, hsize, hs⟩ := hc
    exact exec_trunc (s := { s with cmd := v }) hnop hsize hs
  | error e =>
    rw [errorOf_illegal (encodingError_of_decode hd), runCommand_error hd, statusError_eq]

/-- With a whole block in IN only an illegal word ends with an error. -/
theorem errorOf_wholeBlock_eq_zero_iff (v : Word) :
    errorOf v.toNat 16 = 0 ↔ ∃ i, decode v = .ok i := by
  cases hd : decode v with
  | ok i =>
    have hb : ¬ 16 < blockSizeOf i := Nat.not_lt.2 (blockSizeOf_le i).1
    simp [errorOf_legal hd, hb]
  | error e => simp [errorOf_illegal (encodingError_of_decode hd), errCode_ne_zero]

/-! ### Commands with the same result -/

/-- Two commands that need the same block size and write the same OUT bytes have one outcome. -/
theorem exec_eq_exec {i j : Instr} {s : State} {f g : Nat → Byte}
    (hi : outOf s.inByte i = some f) (hj : outOf s.inByte j = some g)
    (hsize : blockSizeOf i = blockSizeOf j) (hfg : ∀ p < 16, f p = g p) :
    exec i s = exec j s := by
  by_cases hs : s.inlen.toNat < blockSizeOf i
  · rw [exec_out_short hi hs, exec_out_short hj (hsize ▸ hs)]
  · have hs : blockSizeOf i ≤ s.inlen.toNat := Nat.not_lt.1 hs
    rw [exec_out hi hs, exec_out hj (hsize ▸ hs), putOut_congr s hfg]

/-! ### The obligations -/

/-- Settles O2: a word decodes to a command exactly if it is the command's word, and for ROTATE the
mask leaves K open. -/
theorem legalWordsAreExactlyTheTable : Obligations.LegalWordsAreExactlyTheTable := by
  unfold Obligations.LegalWordsAreExactlyTheTable
  intro w
  have hrot1 : (∃ k, decode w = .ok (.rotateDxt1 k)) ↔ w &&& 0xFFFFFF3F#32 = 0x00000003#32 :=
    (exists_congr fun _ => decode_eq_rotateDxt1_iff).trans
      (and_rotateMask_eq_iff w (by decide)).symm
  have hrot5 : (∃ k, decode w = .ok (.rotateDxt5 k)) ↔ w &&& 0xFFFFFF3F#32 = 0x00000023#32 :=
    (exists_congr fun _ => decode_eq_rotateDxt5_iff).trans
      (and_rotateMask_eq_iff w (by decide)).symm
  exact ⟨decode_eq_ok_iff_eq_encode rfl, decode_eq_ok_iff_eq_encode rfl,
    decode_eq_ok_iff_eq_encode rfl, decode_eq_ok_iff_eq_encode rfl, decode_eq_ok_iff_eq_encode rfl,
    fun _ => decode_eq_rotateDxt1_iff, hrot1, fun _ => decode_eq_rotateDxt5_iff, hrot5,
    decode_eq_ok_iff_eq_encode rfl, decode_eq_ok_iff_eq_encode rfl, decode_eq_ok_iff_eq_encode rfl,
    decode_eq_ok_iff_eq_encode rfl, decode_eq_ok_iff_eq_encode rfl⟩

/-- Settles O4: STATUS.ERR is that of `flagsRecordTheLastCommand`, an error's frame is
`runCommand_of_errorOf_ne_zero`, and with 16 bytes in IN no input is short. -/
theorem everyCommandWordGetsItsErrorCode : Obligations.EveryCommandWordGetsItsErrorCode := by
  unfold Obligations.EveryCommandWordGetsItsErrorCode
  intro v s
  obtain ⟨t, ht, herr, -⟩ := flagsRecordTheLastCommand v s
  exact ⟨t, ht, herr,
    fun h => Host.Outcome.next.inj (ht.symm.trans (runCommand_of_errorOf_ne_zero h)),
    errorOf_wholeBlock_eq_zero_iff v⟩

/-- Settles O6: the expansions are the table of rule R65, and moving a block by the identity map
copies it. -/
theorem pseudoCommandsAreTheirExpansions : Obligations.PseudoCommandsAreTheirExpansions := by
  unfold Obligations.PseudoCommandsAreTheirExpansions
  refine ⟨rfl, rfl, rfl, rfl, rfl, rfl, rfl, rfl, rfl, rfl, rfl, fun s => ⟨?_, ?_⟩⟩
  · exact exec_eq_exec (i := .rotateDxt1 0) (j := .flipvDxt1) rfl rfl rfl
      fun p _ => permuteDxt1_mapId s.inByte p
  · exact exec_eq_exec (i := .rotateDxt5 0) (j := .flipvDxt5) rfl rfl rfl
      fun _ hp => permuteDxt5_mapId s.inByte hp

end Sys2Proof.Proofs

/-! ## The alpha quantizer

What QALPHA3.DXT3 leaves in OUT, and the alphas that a DECODE.DXT3 of it shows
(spec 40_alpha_quantize.md). -/

namespace Sys2Proof.Proofs

open Sys2Proof.Machine Sys2Proof.Claims Sys2Proof.Laws

/-! ### The packed nibbles -/

/-- The colour half of the block is not the quantizer's (rule R69). -/
theorem quantizedByte_high (b : Nat → Byte) {j : Nat} (h : 8 ≤ j) : quantizedByte b j = 0 :=
  if_neg (Nat.not_lt.2 h)

/-- The nibble read for texel i is the high nibble of its alpha: rules R35 and R68 place it alike. -/
theorem alphaNibble_quantizedByte (b : Nat → Byte) {i : Nat} (h : i < 16) :
    alphaNibble (quantizedByte b) i = (b i).toNat / 16 := by
  have hself := (b i).isLt
  rw [alphaNibble_eq, quantizedByte_eq b (by omega)]
  rcases Nat.mod_two_eq_zero_or_one i with heven | hodd
  · rw [heven, show 2 * (i / 2) = i by omega]
    omega
  · have hlow := (b (2 * (i / 2))).isLt
    rw [hodd, show 2 * (i / 2) + 1 = i by omega]
    omega

/-- An alpha nibble depends on the texel's byte alone (rule R35). -/
theorem alphaNibble_congr {f g : Nat → Byte} {i : Nat} (h : f (i / 2) = g (i / 2)) :
    alphaNibble f i = alphaNibble g i := by
  rw [alphaNibble_eq, alphaNibble_eq, h]

theorem alphaNibble_lt (b : Nat → Byte) (i : Nat) : alphaNibble b i < 16 := by
  rw [alphaNibble_eq]
  exact Nat.mod_lt _ (by decide)

/-- The top byte of a TEX register of a DXT3 block is 17 times the nibble (rules R20 and R78). -/
theorem lane_decodedTexel_dxt3_alpha (b : Nat → Byte) (i : Nat) :
    lane (decodedTexel .dxt3 b i).toWord 3 = 17 * alphaNibble b i :=
  (lane_toWord _ (by decide)).trans (expandNibble_eq (alphaNibble_lt b i))

/-! ### The decoded alphas -/

/-- Words 2 and 3 of a block hold nothing of its alpha half, bytes 0 to 7 (rule R31). -/
theorem byteOfWords_set_colorHalf (v : Vector Word 4) (x y : Word) {m : Nat} (h : m < 8) :
    byteOfWords ((v.set 2 x).set 3 y) m = byteOfWords v m := by
  rw [byteOfWords_set, if_neg (by omega), byteOfWords_set, if_neg (by omega)]

/-- Decoding a block whose alpha half is quantized, whatever its colour half (rule R78). -/
theorem exec_decodeDxt3_quantized {b : Nat → Byte} {s : State} (hfull : 16 ≤ s.inlen.toNat)
    (hin : ∀ m < 8, s.inByte m = quantizedByte b m) :
    ∃ u, exec .decodeDxt3 s = .next u ∧
      ∀ i : Fin 16, lane u.tex[i] 3 = 17 * ((b i).toNat / 16) := by
  obtain ⟨u, hu, -, htex⟩ := exec_decode_full .dxt3 hfull
  refine ⟨u, hu, fun i => ?_⟩
  rw [htex, lane_decodedTexel_dxt3_alpha, alphaNibble_congr (hin _ (by omega)),
    alphaNibble_quantizedByte b i.isLt]

/-! ### The obligations -/

/-- Settles O24: on a whole block OUT holds the `quantizedByte`s, on a short one the command ends with
ERR_TRUNC. -/
theorem quantizerPacksHighNibbles : Obligations.QuantizerPacksHighNibbles := by
  unfold Obligations.QuantizerPacksHighNibbles
  refine ⟨rfl, fun s => ⟨fun hfull => ?_, exec_out_short (i := .qalpha3Dxt3) rfl⟩⟩
  refine ⟨_, exec_out (i := .qalpha3Dxt3) rfl hfull, rfl, fun j hj => ?_, fun j h8 hj => ?_⟩
  · rw [outB_eq, putOut_outByte _ _ (by omega), quantizedByte_eq _ hj, inB_eq, inB_eq]
  · rw [outB_eq, putOut_outByte _ _ hj, quantizedByte_high _ h8]
    rfl

/-- Settles O41: the decoder reads back the nibble that the quantizer packed, as the colour block
stands in IN_W2 and IN_W3 alone. -/
theorem quantizedAlphaDecodesToSeventeenths : Obligations.QuantizedAlphaDecodesToSeventeenths := by
  unfold Obligations.QuantizedAlphaDecodesToSeventeenths
  intro s x y hfull
  obtain ⟨u, hu, halpha⟩ := exec_decodeDxt3_quantized (b := s.inByte)
    (s := { s.putOut (quantizedByte s.inByte) with
      inW := ((s.putOut (quantizedByte s.inByte)).outW.set 2 x).set 3 y }) hfull
    fun m hm => (byteOfWords_set_colorHalf _ x y hm).trans (putOut_outByte _ s (by omega))
  refine ⟨_, u, exec_out (i := .qalpha3Dxt3) rfl hfull, hu, fun i => ?_⟩
  rw [halpha, inB_eq]

end Sys2Proof.Proofs

/-! ## The block decoders

The two palettes and the texels that a DECODE leaves in CPAL, APAL and TEX (spec 41_decode.md). -/

namespace Sys2Proof.Proofs

open Sys2Proof.Machine Sys2Proof.Claims Sys2Proof.Laws

/-! ### Colours -/

theorem lane_rgbToWord (c : Rgb) {m : Nat} (h : m < 4) :
    lane c.toWord m = ((c.withAlpha 0).channel m).toNat := lane_toWord _ h

@[simp] theorem lane_rgbToWord_high (c : Rgb) : lane c.toWord 3 = 0 :=
  lane_rgbToWord c (by decide)

theorem toNat_expand5 {v : Nat} (h : v < 32) :
    (BitVec.ofNat 8 (expand5 v)).toNat = 8 * v + v / 4 := by
  rw [BitVec.toNat_ofNat, expand5_eq h]
  omega

theorem toNat_expand6 {v : Nat} (h : v < 64) :
    (BitVec.ofNat 8 (expand6 v)).toNat = 4 * v + v / 16 := by
  rw [BitVec.toNat_ofNat, expand6_eq h]
  omega

/-- The channels of an unpacked endpoint (rule R70). -/
theorem lane_unpack565 (c : Nat) {m : Nat} (h : m < 3) :
    lane (unpack565 c).toWord m = channel565 m c := by
  rw [lane_rgbToWord _ (by omega)]
  interval_cases m
  · exact toNat_expand5 (bits_lt ..)
  · exact toNat_expand6 (bits_lt ..)
  · exact (toNat_expand5 (bits_lt c 0 5)).trans (by simp [bits, channel565])

/-- Two colours are mixed channel by channel (rule R76). -/
theorem lane_mix {f : Nat → Nat → Nat} (hf : ∀ a < 256, ∀ b < 256, f a b < 256) (x y : Rgb)
    {m : Nat} (h : m < 3) : lane (mix f x y).toWord m = f (lane x.toWord m) (lane y.toWord m) := by
  have hch : ∀ a b : Byte, (BitVec.ofNat 8 (f a.toNat b.toNat)).toNat = f a.toNat b.toNat :=
    fun a b => Nat.mod_eq_of_lt (hf _ a.isLt _ b.isLt)
  rw [lane_rgbToWord _ (by omega), lane_rgbToWord _ (by omega), lane_rgbToWord _ (by omega)]
  interval_cases m <;> exact hch _ _

theorem lane_black {m : Nat} (h : m < 3) : lane (⟨0, 0, 0⟩ : Rgb).toWord m = 0 := by
  interval_cases m <;> decide

/-! ### CPAL and TEX -/

theorem dxt1Mode_eq_fourColour_iff {c0 c1 : Nat} : dxt1Mode c0 c1 = .fourColour ↔ c1 < c0 := by
  simp [dxt1Mode]

/-- A palette written to CPAL, in terms of the endpoint words (rules R21 and R76). -/
theorem paletteIs_of_cpal {t : State} {cb : ColorBlock} {mode : PaletteMode} {four : Prop}
    (hfour : mode = .fourColour ↔ four)
    (hcpal : t.cpal = Vector.ofFn fun j => (cb.palette mode j.val).toWord) :
    PaletteIs t cb.c0 cb.c1 four := by
  have hentry : ∀ (j : Fin 4) (m : Nat), lane t.cpal[j] m = lane (cb.palette mode j.val).toWord m :=
    fun j m => by simp [hcpal]
  refine ⟨fun m hm => ⟨?_, ?_, fun h4 => ?_, fun h3 => ?_⟩, fun j => ?_⟩
  · exact (hentry 0 m).trans (by cases mode <;> exact lane_unpack565 _ hm)
  · exact (hentry 1 m).trans (by cases mode <;> exact lane_unpack565 _ hm)
  · obtain rfl := hfour.2 h4
    rw [← lane_unpack565 cb.c0 hm, ← lane_unpack565 cb.c1 hm]
    exact ⟨(hentry 2 m).trans (lane_mix (by intros; omega) _ _ hm),
      (hentry 3 m).trans (lane_mix (by intros; omega) _ _ hm)⟩
  · cases mode with
    | fourColour => exact absurd (hfour.1 rfl) h3
    | threeColour =>
      rw [← lane_unpack565 cb.c0 hm, ← lane_unpack565 cb.c1 hm]
      exact ⟨(hentry 2 m).trans (lane_mix (by intros; omega) _ _ hm),
        (hentry 3 m).trans (lane_black hm)⟩
  · rw [hentry, lane_rgbToWord_high]

/-- A texel written with an entry of the palette that CPAL was written with (rules R20 and R75). -/
theorem texelIs_of_tex {t : State} {palette : Nat → Rgb} {i : Fin 16} {j : Nat} {a : Byte}
    (hj : j < 4) (hcpal : t.cpal = Vector.ofFn fun j => (palette j.val).toWord)
    (htex : t.tex[i] = ((palette j).withAlpha a).toWord) : TexelIs t i j a.toNat := by
  refine ⟨hj, ?_⟩
  simp [htex, hcpal, hj, withAlpha_toNat]

/-- The index of texel i, read from IN (rules R34 and R72). -/
theorem index_inB (s : State) (o : Nat) (i : Fin 16) :
    index (inB s) o i.val = colorIndex (le s.inByte o 4) i.val := by
  rw [← index_eq _ _ i.isLt]
  exact congrArg (index · o i.val) (funext (inB_eq s))

theorem alphaCodeAt_inB (s : State) (p : Nat) :
    alphaCodeAt (inB s) p = alphaCode (alphaCodes s.inByte) p := by
  rw [← alphaCodeAt_eq]
  exact congrArg (alphaCodeAt · p) (funext (inB_eq s))

/-! ### The alpha palette -/

/-- The mean of `x` and `y` with the weights `d − k` and `k`, rounded to the nearest integer: the
shape of both tables' interpolants (rules R81 and R82). -/
def roundedMean (d k x y : Nat) : Nat := (2 * ((d - k) * x + k * y) + d) / (2 * d)

theorem alphaSeventh_eq (a0 a1 code : Nat) :
    alphaSeventh a0 a1 code = roundedMean 7 code a0 a1 := rfl

theorem alphaFifth_eq (a0 a1 k : Nat) : alphaFifth a0 a1 (k + 1) = roundedMean 5 k a0 a1 := by
  rw [alphaFifth, roundedMean, Nat.add_sub_cancel, Nat.add_sub_add_right 5 1 k]

/-- A rounded mean lies where the real mean does. -/
theorem le_roundedMean {d k x y b : Nat} (hd : 0 < d) (hk : k ≤ d) (hx : b ≤ x) (hy : b ≤ y) :
    b ≤ roundedMean d k x y := by
  have hmean : d * b ≤ (d - k) * x + k * y := calc
    d * b = (d - k) * b + k * b := by rw [← Nat.add_mul, Nat.sub_add_cancel hk]
    _ ≤ _ := Nat.add_le_add (Nat.mul_le_mul_left _ hx) (Nat.mul_le_mul_left _ hy)
  rw [roundedMean, Nat.le_div_iff_mul_le (by omega)]
  linarith

theorem roundedMean_le {d k x y b : Nat} (hd : 0 < d) (hk : k ≤ d) (hx : x ≤ b) (hy : y ≤ b) :
    roundedMean d k x y ≤ b := by
  have hmean : (d - k) * x + k * y ≤ d * b := calc
    _ ≤ (d - k) * b + k * b := Nat.add_le_add (Nat.mul_le_mul_left _ hx) (Nat.mul_le_mul_left _ hy)
    _ = d * b := by rw [← Nat.add_mul, Nat.sub_add_cancel hk]
  rw [roundedMean, ← Nat.lt_succ_iff, Nat.div_lt_iff_lt_mul (by omega), Nat.succ_eq_add_one]
  linarith

/-- A rounded mean over an odd `d` differs from the real mean by less than a half: twice `d` times
the difference is even, so it is not `d`. -/
theorem roundedMean_nearest {d k : Nat} (hd : d % 2 = 1) (hk : k ≤ d) (x y : Nat) :
    -(d : Int) < 2 * (d * (roundedMean d k x y : Int) - (d * x + ((y : Int) - x) * k)) ∧
      2 * (d * (roundedMean d k x y : Int) - (d * x + ((y : Int) - x) * k)) < d := by
  have hmean : (d : Int) * x + ((y : Int) - x) * k = ((d - k) * x + k * y : Nat) := by
    push_cast [Nat.cast_sub hk]
    ring
  rw [hmean, roundedMean]
  generalize (d - k) * x + k * y = n
  have hdiv := Nat.div_add_mod (2 * n + d) (2 * d)
  have hmod := Nat.mod_lt (2 * n + d) (show 0 < 2 * d by omega)
  rw [Nat.mul_assoc] at hdiv
  generalize (2 * n + d) % (2 * d) = r at *
  rw [← Nat.cast_mul]
  generalize d * ((2 * n + d) / (2 * d)) = dq at *
  omega

theorem alphaPalette_of_lt {a0 a1 c : Nat} (h : a1 < a0) (h2 : 2 ≤ c) :
    alphaPalette a0 a1 c = roundedMean 7 c a0 a1 := by
  rw [alphaPalette, if_neg (by omega), if_neg (by omega), if_pos h, alphaSeventh_eq]

theorem alphaPalette_of_ge {a0 a1 c : Nat} (h : a0 ≤ a1) (h2 : 2 ≤ c) (h5 : c ≤ 5) :
    alphaPalette a0 a1 c = roundedMean 5 (c - 1) a0 a1 := by
  rw [alphaPalette, if_neg (by omega), if_neg (by omega), if_neg (by omega), if_neg (by omega),
    if_neg (by omega), ← alphaFifth_eq, Nat.sub_add_cancel (by omega)]

theorem alphaPalette_lt {a0 a1 c : Nat} (h0 : a0 < 256) (h1 : a1 < 256) (hc : c < 8) :
    alphaPalette a0 a1 c < 256 := by
  rw [alphaPalette]
  split
  · exact h0
  split
  · exact h1
  split
  · rw [alphaSeventh_eq]
    exact Nat.lt_succ_of_le (roundedMean_le (by decide) (by omega) (by omega) (by omega))
  split
  · decide
  split
  · decide
  · rw [show c = c - 1 + 1 by omega, alphaFifth_eq]
    exact Nat.lt_succ_of_le (roundedMean_le (by decide) (by omega) (by omega) (by omega))

theorem alphaOf_eq (a0 a1 c : Nat) : alphaOf a0 a1 c = alphaPalette a0 a1 c := rfl

/-- Entry `c` of a DXT5 block's alpha palette, from IN[0] and IN[1] (rules R79 and R80). -/
theorem alphaEntry_toNat (s : State) {c : Nat} (hc : c < 8) :
    (alphaEntry s.inByte c).toNat = alphaPalette (inB s 0) (inB s 1) c := by
  rw [inB_eq, inB_eq, alphaEntry, BitVec.toNat_ofNat]
  exact Nat.mod_eq_of_lt (alphaPalette_lt (BitVec.isLt _) (BitVec.isLt _) hc)

/-- The APAL bytes of a palette written to APAL (rule R22). -/
theorem apalB_of_apalW {t : State} {f : Nat → Byte} (h : t.apalW = wordsOfBytes 2 f) {c : Nat}
    (hc : c < 8) : apalB t c = (f c).toNat := by
  rw [apalB_eq, State.apalByte, h, byteOfWords_wordsOfBytes f hc]

/-! ### The decoders on a whole block -/

theorem exec_decodeDxt1_full {s : State} (h : 8 ≤ s.inlen.toNat) : exec .decodeDxt1 s =
    .next (s.putTexels (paletteDxt1 s.inByte) (texelDxt1 s.inByte) statusThreeChannel) :=
  congrArg Host.Outcome.next (decodeBlock_full h _)

theorem exec_decodeDxt3_full {s : State} (h : 16 ≤ s.inlen.toNat) : exec .decodeDxt3 s =
    .next (s.putTexels (paletteFour s.inByte) (texelDxt3 s.inByte) statusDone) :=
  congrArg Host.Outcome.next (decodeBlock_full h _)

theorem exec_decodeDxt5_full {s : State} (h : 16 ≤ s.inlen.toNat) : exec .decodeDxt5 s =
    .next { s.putTexels (paletteFour s.inByte) (texelDxt5 s.inByte) statusDone with
      apalW := wordsOfBytes 2 (alphaEntry s.inByte) } :=
  congrArg Host.Outcome.next (decodeBlock_full h _)

/-- What a DECODE.DXT1 writes depends on the eight bytes of the block alone (rule R84). -/
theorem putTexels_dxt1_congr {f g : Nat → Byte} (s : State) (h : ∀ m < 8, f m = g m) :
    s.putTexels (paletteDxt1 f) (texelDxt1 f) statusThreeChannel =
      s.putTexels (paletteDxt1 g) (texelDxt1 g) statusThreeChannel := by
  have htex : ∀ i : Fin 16, texelDxt1 f i.val = texelDxt1 g i.val :=
    fun i => decodedTexel_congr .dxt1 h i.isLt
  simp only [State.putTexels, paletteDxt1_congr h, htex]

/-! ### Fields of the colour half -/

/-- Bytes counted from byte `k` of a number are those of the number shifted down. -/
theorem byteAt_add (v k m : Nat) : byteAt v (k + m) = byteAt (v / 2 ^ (8 * k)) m := by
  rw [byteAt, byteAt, bits, bits, Nat.div_div_eq_div_mul, ← Nat.pow_add, ← Nat.mul_add]

/-- A little-endian number within one word of IN is a field of the word (rules R9 and R18). -/
theorem le_byteOfWords {n : Nat} (v : Vector Word n) {j : Nat} (hj : j < n) {k l : Nat}
    (hl : k + l ≤ 4) : le (byteOfWords v) (4 * j + k) l = bits v[j].toNat (8 * k) (8 * l) := by
  refine le_byteAt fun m hm => ?_
  have hdiv : (4 * j + k + m) / 4 = j := by omega
  have hmod : (4 * j + k + m) % 4 = k + m := by omega
  simp only [byteOfWords, hdiv, hmod, Vector.getElem?_eq_getElem hj, Option.getD_some]
  exact byteAt_add ..

/-- The colour half of a block, from words 2 and 3 of IN (rules R31 and R71). -/
theorem colorBlock_byteOfWords (v : Vector Word 4) : colorBlock (byteOfWords v) 8 =
    ⟨bits v[2].toNat 0 16, bits v[2].toNat 16 16, bits v[3].toNat 0 32⟩ := by
  rw [colorBlock, ← le_byteOfWords (k := 0) (l := 2) v (by decide) (by decide),
    ← le_byteOfWords (k := 2) (l := 2) v (by decide) (by decide),
    ← le_byteOfWords (k := 0) (l := 4) v (by decide) (by decide)]

/-! ### Swapped endpoints -/

/-- A rotation by half a word exchanges its halves. -/
theorem rotateLeft_16_toNat (w : Word) :
    (w.rotateLeft 16).toNat = bits w.toNat 0 16 * 2 ^ 16 + bits w.toNat 16 16 := by
  have hhigh : w.toNat >>> 16 < 2 ^ 16 := by omega
  have hlow : w.toNat <<< 16 % 2 ^ 32 = (w.toNat % 2 ^ 16) <<< 16 := by
    simp only [Nat.shiftLeft_eq]; omega
  rw [BitVec.toNat_rotateLeft, hlow, ← Nat.shiftLeft_add_eq_or_of_lt hhigh]
  simp only [bits, Nat.shiftLeft_eq, Nat.shiftRight_eq_div_pow]
  omega

theorem bits_rotateLeft_low (w : Word) :
    bits (w.rotateLeft 16).toNat 0 16 = bits w.toNat 16 16 := by
  have hhigh := bits_lt w.toNat 16 16
  rw [rotateLeft_16_toNat]
  generalize bits w.toNat 16 16 = high at *
  simp only [bits]
  omega

theorem bits_rotateLeft_high (w : Word) :
    bits (w.rotateLeft 16).toNat 16 16 = bits w.toNat 0 16 := by
  have hhigh := bits_lt w.toNat 16 16
  have hlow := bits_lt w.toNat 0 16
  rw [rotateLeft_16_toNat]
  generalize bits w.toNat 16 16 = high at *
  generalize bits w.toNat 0 16 = low at *
  simp only [bits]
  omega

theorem bits_xor (x y lo width : Nat) :
    bits (x ^^^ y) lo width = bits x lo width ^^^ bits y lo width := by
  rw [bits, bits, bits, Nat.xor_div_two_pow, Nat.xor_mod_two_pow]

/-- The colour half with its endpoint words exchanged and the low bit of every index inverted. -/
def swapColorHalf (v : Vector Word 4) : Vector Word 4 :=
  (v.set 2 (v[2].rotateLeft 16)).set 3 (v[3] ^^^ 0x55555555#32)

theorem colorBlock_swapColorHalf (v : Vector Word 4) :
    colorBlock (byteOfWords (swapColorHalf v)) 8 =
      ⟨(colorBlock (byteOfWords v) 8).c1, (colorBlock (byteOfWords v) 8).c0,
        (colorBlock (byteOfWords v) 8).idx ^^^ 0x55555555⟩ := by
  have h2 : (swapColorHalf v)[2] = v[2].rotateLeft 16 := by simp [swapColorHalf]
  have h3 : (swapColorHalf v)[3] = v[3] ^^^ 0x55555555#32 := by simp [swapColorHalf]
  simp only [colorBlock_byteOfWords, h2, h3, bits_rotateLeft_low, bits_rotateLeft_high,
    BitVec.toNat_xor, bits_xor]
  rfl

theorem colorIndex_xor (idx : Nat) {i : Nat} (h : i < 16) :
    colorIndex (idx ^^^ 0x55555555) i = colorIndex idx i ^^^ 1 := by
  have hones : ∀ i < 16, bits 0x55555555 (2 * i) 2 = 1 := by decide
  rw [colorIndex, bits_xor, hones i h, colorIndex]

/-- The 4-colour palette of exchanged endpoints has its entries exchanged in pairs (rule R76). -/
theorem colorPalette_swap (e0 e1 : Rgb) {j : Nat} (h : j < 4) :
    colorPalette .fourColour e1 e0 (j ^^^ 1) = colorPalette .fourColour e0 e1 j := by
  interval_cases j
  · rfl
  · rfl
  · simp only [Nat.reduceXor, colorPalette, mix, Nat.add_comm]
  · simp only [Nat.reduceXor, colorPalette, mix, Nat.add_comm]

/-- The indexed colour of a texel is the same after the swap (rules R74 to R76). -/
theorem indexedColor_swap (v : Vector Word 4) {i : Nat} (h : i < 16) :
    paletteFour (byteOfWords (swapColorHalf v))
        (colorIndex (colorBlock (byteOfWords (swapColorHalf v)) 8).idx i) =
      paletteFour (byteOfWords v) (colorIndex (colorBlock (byteOfWords v) 8).idx i) := by
  simp only [paletteFour, ColorBlock.palette, colorBlock_swapColorHalf, colorIndex_xor _ h]
  exact colorPalette_swap _ _ (colorIndex_lt ..)

/-- A texel's alpha comes from the alpha half of the block alone (rules R78 and R79). -/
theorem decodedTexel_swapColorHalf {fmt : Fmt} (hfmt : fmt ≠ .dxt1) (v : Vector Word 4) {i : Nat}
    (h : i < 16) :
    decodedTexel fmt (byteOfWords (swapColorHalf v)) i = decodedTexel fmt (byteOfWords v) i := by
  have halpha : ∀ m < 8, byteOfWords (swapColorHalf v) m = byteOfWords v m :=
    fun m hm => byteOfWords_set_colorHalf v _ _ hm
  cases fmt with
  | dxt1 => exact absurd rfl hfmt
  | dxt3 =>
    simp only [decodedTexel, texelDxt3, indexedColor_swap v h,
      alphaNibble_congr (halpha (i / 2) (by omega))]
  | dxt5 =>
    simp only [decodedTexel, texelDxt5, indexedColor_swap v h, alphaEntry, alphaCodes,
      halpha 0 (by decide), halpha 1 (by decide),
      le_congr (f := byteOfWords (swapColorHalf v)) (g := byteOfWords v) (o := 2) (n := 6)
        fun m hm => halpha _ (by omega)]

/-! ### The obligations -/

/-- Settles O25: CPAL holds the entries of `paletteDxt1`, TEX the entries at the indices. -/
theorem decodeDxt1LooksUpThePalette : Obligations.DecodeDxt1LooksUpThePalette := by
  unfold Obligations.DecodeDxt1LooksUpThePalette
  refine ⟨rfl, fun s => ⟨fun hfull => ?_, exec_decode_short .dxt1⟩⟩
  refine ⟨_, exec_decodeDxt1_full hfull, rfl, ?_, fun i => ?_⟩
  · rw [inU16_eq, inU16_eq]
    exact paletteIs_of_cpal (cb := colorBlock s.inByte 0) dxt1Mode_eq_fourColour_iff rfl
  · rw [index_inB]
    exact texelIs_of_tex (a := 0xFF) (colorIndex_lt ..) (putTexels_cpal ..)
      (Vector.getElem_ofFn i.isLt)

/-- Settles O26: the palette is 4-colour whatever the endpoints, and an expanded nibble is 17 times
the nibble. -/
theorem decodeDxt3LooksUpThePalette : Obligations.DecodeDxt3LooksUpThePalette := by
  unfold Obligations.DecodeDxt3LooksUpThePalette
  refine ⟨rfl, fun s => ⟨fun hfull => ?_, exec_decode_short .dxt3⟩⟩
  refine ⟨_, exec_decodeDxt3_full hfull, rfl, ?_, fun i => ?_⟩
  · rw [inU16_eq, inU16_eq]
    exact paletteIs_of_cpal (cb := colorBlock s.inByte 8) (iff_of_true rfl trivial) rfl
  · rw [index_inB, inB_eq, ← alphaNibble_eq, ← expandNibble_eq (alphaNibble_lt ..)]
    exact texelIs_of_tex (colorIndex_lt ..) (putTexels_cpal ..) (Vector.getElem_ofFn i.isLt)

/-- Settles O27: APAL holds the `alphaEntry`s, so a texel's alpha is the APAL entry of its code. -/
theorem decodeDxt5LooksUpBothPalettes : Obligations.DecodeDxt5LooksUpBothPalettes := by
  unfold Obligations.DecodeDxt5LooksUpBothPalettes
  refine ⟨rfl, fun s => ⟨fun hfull => ?_, exec_decode_short .dxt5⟩⟩
  refine ⟨_, exec_decodeDxt5_full hfull, rfl, ?_, fun c hc => ?_, fun i => ?_⟩
  · rw [inU16_eq, inU16_eq]
    exact paletteIs_of_cpal (cb := colorBlock s.inByte 8) (iff_of_true rfl trivial) rfl
  · rw [apalB_of_apalW rfl hc, alphaEntry_toNat s hc, alphaOf_eq]
  · rw [index_inB, alphaCodeAt_inB, apalB_of_apalW rfl (alphaCode_lt ..)]
    exact texelIs_of_tex (palette := paletteFour s.inByte) (colorIndex_lt ..) rfl
      (Vector.getElem_ofFn i.isLt)

/-- Settles O33: a short DECODE does not look at IN, and a DXT1 block is in IN[0..7]. -/
theorem shortDecodeGivesTheZeroTile : Obligations.ShortDecodeGivesTheZeroTile := by
  unfold Obligations.ShortDecodeGivesTheZeroTile
  refine ⟨fun i size s hi hshort => ?_, fun s t x y h => ?_⟩
  · obtain ⟨rfl | rfl | rfl, rfl⟩ := decodeSize_eq_some_iff.1 hi
    · exact exec_decode_short .dxt1 hshort
    · exact exec_decode_short .dxt3 hshort
    · exact exec_decode_short .dxt5 hshort
  · by_cases hfull : 8 ≤ s.inlen.toNat
    · have hin : ∀ m < 8, byteOfWords ((s.inW.set 2 x).set 3 y) m = s.inByte m :=
        fun m hm => byteOfWords_set_colorHalf s.inW x y hm
      obtain rfl := Host.Outcome.next.inj ((exec_decodeDxt1_full hfull).symm.trans h)
      refine (exec_decodeDxt1_full (s := { s with inW := (s.inW.set 2 x).set 3 y }) hfull).trans
        (congrArg Host.Outcome.next ?_)
      exact putTexels_dxt1_congr _ hin
    · have hshort : s.inlen.toNat < 8 := by omega
      obtain rfl := Host.Outcome.next.inj ((exec_decode_short .dxt1 hshort).symm.trans h)
      exact exec_decode_short .dxt1 hshort

/-- Settles O34: every interpolant is a `roundedMean` of the endpoints. -/
theorem alphaPaletteRoundsToTheNearest : Obligations.AlphaPaletteRoundsToTheNearest := by
  unfold Obligations.AlphaPaletteRoundsToTheNearest
  intro s hfull
  refine ⟨_, exec_decodeDxt5_full hfull, ?_⟩
  have hapal : ∀ c < 8, apalB
      { s.putTexels (paletteFour s.inByte) (texelDxt5 s.inByte) statusDone with
        apalW := wordsOfBytes 2 (alphaEntry s.inByte) } c = alphaPalette (inB s 0) (inB s 1) c :=
    fun c hc => (apalB_of_apalW rfl hc).trans (alphaEntry_toNat s hc)
  refine ⟨hapal 0 (by decide), hapal 1 (by decide), fun hgt c h2 h7 => ?_,
    fun hle => ⟨?_, ?_, fun c h2 h5 => ?_⟩⟩
  · rw [hapal c (by omega), alphaPalette_of_lt hgt h2]
    obtain ⟨hlow, hhigh⟩ := roundedMean_nearest (d := 7) rfl h7 (inB s 0) (inB s 1)
    exact ⟨hlow, hhigh, rfl, le_roundedMean (by decide) h7 (by omega) (by omega),
      roundedMean_le (by decide) h7 (by omega) (by omega)⟩
  · rw [hapal 6 (by decide)]
    simp [alphaPalette, Nat.not_lt.2 hle]
  · rw [hapal 7 (by decide)]
    simp [alphaPalette, Nat.not_lt.2 hle]
  · have hk : c - 1 ≤ 5 := by omega
    rw [hapal c (by omega), alphaPalette_of_ge hle h2 h5]
    obtain ⟨hlow, hhigh⟩ := roundedMean_nearest (d := 5) rfl hk (inB s 0) (inB s 1)
    rw [Nat.cast_pred (by omega)] at hlow hhigh
    refine ⟨hlow, hhigh, ?_, le_roundedMean (by decide) hk (by omega) (by omega),
      roundedMean_le (by decide) hk (by omega) (by omega)⟩
    rw [roundedMean, show 6 - c = 5 - (c - 1) by omega]

/-- Settles O40: the exchanged palette at the inverted index is the palette at the index. -/
theorem endpointSwapKeepsFourColourTexels : Obligations.EndpointSwapKeepsFourColourTexels := by
  unfold Obligations.EndpointSwapKeepsFourColourTexels
  intro s hfull i hi
  obtain ⟨fmt, hfmt, hsize, rfl⟩ : ∃ fmt, fmt ≠ Fmt.dxt1 ∧ fmt.blockSize = 16 ∧
      i = decodeCommand fmt := by
    rcases hi with rfl | rfl
    · exact ⟨.dxt3, by decide, rfl, rfl⟩
    · exact ⟨.dxt5, by decide, rfl, rfl⟩
  obtain ⟨t, ht, -, htex⟩ := exec_decode_full fmt (s := s) (by omega)
  obtain ⟨u, hu, -, hutex⟩ := exec_decode_full fmt (s := { s with inW := swapColorHalf s.inW })
    (hsize ▸ hfull)
  refine ⟨t, u, ht, hu, Vector.ext fun p hp => ?_⟩
  exact (hutex ⟨p, hp⟩).trans ((congrArg Texel.toWord
    (decodedTexel_swapColorHalf hfmt s.inW hp)).trans (htex ⟨p, hp⟩).symm)

end Sys2Proof.Proofs

/-! ## Transforms of a block

Where ROTATE, FLIPH and FLIPV leave the indices and codes of a block, what a DECODE of their OUT
shows, and two of them one after another (spec 42_transform.md). -/

namespace Sys2Proof.Proofs

open Sys2Proof.Machine Sys2Proof.Claims Sys2Proof.Laws

/-! ### Permuted blocks -/

theorem gridBytes_le (f : GridFmt) : gridBytes f ≤ 16 := by cases f <;> decide

/-- OUT past the bytes of the block is 0 (rule R92). -/
theorem gridPermute_pastBlock (f : GridFmt) (src : Nat → Nat) (b : Nat → Byte) {m : Nat}
    (hm : gridBytes f ≤ m) (h16 : m < 16) : gridPermute f src b m = 0 := by
  cases f with
  | dxt1 =>
    have h8 : 8 ≤ m := hm
    rw [gridPermute, permuteDxt1, if_neg (by omega), if_neg (by omega)]
  | dxt5 => exact absurd h16 (Nat.not_lt.2 hm)

/-- FLIPV is the move by the identity map (rules R88, R97 and R99). -/
theorem gridCopy_eq_gridPermute (f : GridFmt) (b : Nat → Byte) {m : Nat} (hm : m < 16) :
    gridCopy f b m = gridPermute f mapId b m := by
  cases f with
  | dxt1 => exact (permuteDxt1_mapId b m).symm
  | dxt5 => exact (permuteDxt5_mapId b hm).symm

/-- The colour palette of a block of a grid format (rules R73, R74 and R76). -/
def gridPalette (f : GridFmt) (b : Nat → Byte) : Nat → Rgb :=
  match f with
  | .dxt1 => paletteDxt1 b
  | .dxt5 => paletteFour b

theorem gridPalette_congr (f : GridFmt) {b c : Nat → Byte} (h : ∀ m < gridBytes f, b m = c m) :
    gridPalette f b = gridPalette f c := by
  cases f with
  | dxt1 => exact paletteDxt1_congr h
  | dxt5 => exact paletteFour_congr h

/-- Permuting a block keeps its colour palette (rule R92). -/
theorem gridPalette_gridPermute (f : GridFmt) (src : Nat → Nat) (b : Nat → Byte) :
    gridPalette f (gridPermute f src b) = gridPalette f b := by
  cases f with
  | dxt1 => simp only [gridPalette, gridPermute, paletteDxt1, colorBlock_permuteDxt1,
      ColorBlock.palette]
  | dxt5 => simp only [gridPalette, gridPermute, paletteFour, colorBlock_permuteDxt5,
      ColorBlock.palette]

/-! ### The commands on a whole block -/

theorem exec_rotateCommand (f : GridFmt) (k : Nat) {s : State} (h : gridBytes f ≤ s.inlen.toNat) :
    exec (rotateCommand f k) s = .next (s.putOut (gridPermute f (mapRotate k) s.inByte)) := by
  cases f with
  | dxt1 => exact exec_out (i := .rotateDxt1 k) rfl h
  | dxt5 => exact exec_out (i := .rotateDxt5 k) rfl h

theorem exec_fliphCommand (f : GridFmt) {s : State} (h : gridBytes f ≤ s.inlen.toNat) :
    exec (fliphCommand f) s = .next (s.putOut (gridPermute f mapFlipH s.inByte)) := by
  cases f with
  | dxt1 => exact exec_out (i := .fliphDxt1) rfl h
  | dxt5 => exact exec_out (i := .fliphDxt5) rfl h

theorem exec_flipvCommand (f : GridFmt) {s : State} (h : gridBytes f ≤ s.inlen.toNat) :
    exec (flipvCommand f) s = .next (s.putOut (gridPermute f mapId s.inByte)) := by
  rw [← putOut_congr s fun m hm => gridCopy_eq_gridPermute f s.inByte hm]
  cases f with
  | dxt1 => exact exec_out (i := .flipvDxt1) rfl h
  | dxt5 => exact exec_out (i := .flipvDxt5) rfl h

/-- A command that permutes the block moves its indices and codes, writes OUT and STATUS alone, and
sets OUT past the block to 0 (rules R28 and R92). -/
theorem exec_moved (f : GridFmt) {i : Instr} {s : State} {src src' : Nat → Nat}
    (h : exec i s = .next (s.putOut (gridPermute f src s.inByte)))
    (hsrc : ∀ p < 16, src' p = src p) (hlt : ∀ p < 16, src p < 16) :
    ∃ t, exec i s = .next t ∧ t = { s with outW := t.outW, status := 0 } ∧
      Moved f src' (inB s) (outB t) ∧ ∀ m, gridBytes f ≤ m → m < 16 → outB t m = 0 := by
  refine ⟨_, h, rfl, ?_, fun m hm h16 => ?_⟩
  · rw [funext (inB_eq s), funext (outB_eq _)]
    exact moved_of_gridPermute f hsrc hlt fun m hm =>
      putOut_outByte _ s (hm.trans_le (gridBytes_le f))
  · rw [outB_eq, putOut_outByte _ s h16, gridPermute_pastBlock f _ _ hm h16]
    rfl

/-- OUT set to the bytes of IN is IN (rules R18 and R19). -/
theorem putOut_inByte (s : State) :
    s.putOut s.inByte = { s with outW := s.inW, status := 0 } :=
  congrArg (fun w => { s with outW := w, status := 0 }) (wordsOfBytes_byteOfWords s.inW)

/-! ### Commands on the OUT of a transform -/

/-- The unit after the host has copied OUT to IN. -/
def outToIn (t : State) : State := { t with inW := t.outW }

theorem outToIn_putOut_inByte (out : Nat → Byte) (s : State) {m : Nat} (h : m < 16) :
    (outToIn (s.putOut out)).inByte m = out m := putOut_outByte out s h

/-- Moving the OUT of a move is one move by the composed map, in all 16 bytes of OUT (rule R89). -/
theorem gridPermute_outToIn (f : GridFmt) (t : Nat → Nat) {u : Nat → Nat}
    (hu : ∀ p < 16, u p < 16) (s : State) {m : Nat} (hm : m < 16) :
    gridPermute f u (outToIn (s.putOut (gridPermute f t s.inByte))).inByte m =
      gridPermute f (fun p => t (u p)) s.inByte m := by
  by_cases hblock : m < gridBytes f
  · exact gridPermute_gridPermute f t hu
      (fun n hn => outToIn_putOut_inByte _ s (hn.trans_le (gridBytes_le f))) hblock
  · have hpast : gridBytes f ≤ m := Nat.not_lt.1 hblock
    rw [gridPermute_pastBlock f _ _ hpast hm, gridPermute_pastBlock f _ _ hpast hm]

/-- What a DECODE of a whole grid block writes (rules R85 and R87). -/
theorem exec_decode_grid (f : GridFmt) {s : State} (h : gridBytes f ≤ s.inlen.toNat) :
    ∃ t, exec (decodeCommand (decodeFmt f)) s = .next t ∧
      (t.cpal = Vector.ofFn fun j => (gridPalette f s.inByte j.val).toWord) ∧
      (f = .dxt5 → t.apalW = wordsOfBytes 2 (alphaEntry s.inByte)) ∧
      ∀ i : Fin 16, t.tex[i] = (decodedTexel (decodeFmt f) s.inByte i).toWord := by
  cases f with
  | dxt1 => exact ⟨_, exec_decodeDxt1_full h, rfl, nofun, fun i => Vector.getElem_ofFn i.isLt⟩
  | dxt5 => exact ⟨_, exec_decodeDxt5_full h, rfl, fun _ => rfl,
      fun i => Vector.getElem_ofFn i.isLt⟩

/-- A unit `c` that holds the block of a unit `s` moved by `src` decodes to the texels of `s` moved by
`src`, with the same palettes (rule R92). -/
theorem exec_decode_moved (f : GridFmt) {s c : State} {src : Nat → Nat}
    (hs : gridBytes f ≤ s.inlen.toNat) (hc : gridBytes f ≤ c.inlen.toNat)
    (hmoved : ∀ m < gridBytes f, c.inByte m = gridPermute f src s.inByte m) :
    ∃ u v, exec (decodeCommand (decodeFmt f)) c = .next u ∧
      exec (decodeCommand (decodeFmt f)) s = .next v ∧
      u.cpal = v.cpal ∧ (f = .dxt5 → u.apalW = v.apalW) ∧
      ∀ p q : Fin 16, q.val = src p.val → u.tex[p] = v.tex[q] := by
  obtain ⟨u, hu, hucpal, huapal, hutex⟩ := exec_decode_grid f hc
  obtain ⟨v, hv, hvcpal, hvapal, hvtex⟩ := exec_decode_grid f hs
  refine ⟨u, v, hu, hv, ?_, fun h5 => ?_, fun p q hq => ?_⟩
  · rw [hucpal, hvcpal, gridPalette_congr f hmoved, gridPalette_gridPermute]
  · rw [huapal h5, hvapal h5]
    subst h5
    rw [alphaEntry_congr hmoved]
    exact congrArg _ (alphaEntry_permuteDxt5 src s.inByte)
  · rw [hutex, hvtex, hq, ← decodedTexel_gridPermute f src _ p.isLt,
      decodedTexel_congr _ (fun m hm => hmoved m (decodeFmt_blockSize f ▸ hm)) p.isLt]

/-! ### The obligations -/

/-- Settles O28: ROTATE.DXT1 permutes the block by the map of K. -/
theorem rotateDxt1MovesTheIndices : Obligations.RotateDxt1MovesTheIndices := by
  unfold Obligations.RotateDxt1MovesTheIndices
  intro k hk
  refine ⟨decode_eq_rotateDxt1_iff.2 ⟨hk, ?_⟩,
    fun s => ⟨fun hfull => ?_, exec_out_short (i := .rotateDxt1 k) rfl⟩⟩
  · rw [BitVec.toNat_ofNat, Nat.mod_eq_of_lt (by omega)]
  · exact exec_moved .dxt1 (exec_rotateCommand .dxt1 k hfull) (fun p => rotSrc_eq hk)
      fun p => mapRotate_lt k

/-- Settles O29: ROTATE.DXT5 permutes codes and indices by the map of K. -/
theorem rotateDxt5MovesCodesAndIndices : Obligations.RotateDxt5MovesCodesAndIndices := by
  unfold Obligations.RotateDxt5MovesCodesAndIndices
  intro k hk
  refine ⟨decode_eq_rotateDxt5_iff.2 ⟨hk, ?_⟩,
    fun s => ⟨fun hfull => ?_, exec_out_short (i := .rotateDxt5 k) rfl⟩⟩
  · rw [BitVec.toNat_ofNat, Nat.mod_eq_of_lt (by omega)]
  · obtain ⟨t, ht, hframe, hmoved, -⟩ := exec_moved .dxt5 (exec_rotateCommand .dxt5 k hfull)
      (fun p => rotSrc_eq hk) fun p => mapRotate_lt k
    exact ⟨t, ht, hframe, hmoved⟩

/-- Settles O30: FLIPH.DXT1 permutes the block by the map FH. -/
theorem flipHDxt1MirrorsTheColumns : Obligations.FlipHDxt1MirrorsTheColumns := by
  unfold Obligations.FlipHDxt1MirrorsTheColumns
  refine ⟨rfl, fun s => ⟨fun hfull => ?_, exec_out_short (i := .fliphDxt1) rfl⟩⟩
  exact exec_moved .dxt1 (exec_fliphCommand .dxt1 hfull) (fun p => flipSrc_eq)
    fun p => mapFlipH_lt

/-- Settles O31: FLIPH.DXT5 permutes codes and indices by the map FH. -/
theorem flipHDxt5MirrorsTheColumns : Obligations.FlipHDxt5MirrorsTheColumns := by
  unfold Obligations.FlipHDxt5MirrorsTheColumns
  refine ⟨rfl, fun s => ⟨fun hfull => ?_, exec_out_short (i := .fliphDxt5) rfl⟩⟩
  obtain ⟨t, ht, hframe, hmoved, -⟩ := exec_moved .dxt5 (exec_fliphCommand .dxt5 hfull)
    (fun p => flipSrc_eq) fun p => mapFlipH_lt
  exact ⟨t, ht, hframe, hmoved⟩

/-- Settles O32: FLIPV writes the bytes of IN to OUT, of a DXT1 block the first eight. -/
theorem flipVCopiesTheBlock : Obligations.FlipVCopiesTheBlock := by
  unfold Obligations.FlipVCopiesTheBlock
  refine ⟨rfl, rfl, rfl, fun s => ⟨fun hfull => ?_, exec_out_short (i := .flipvDxt1) rfl,
    fun hfull => ?_, fun hshort => ?_⟩⟩
  · refine ⟨_, exec_out (i := .flipvDxt1) rfl hfull, rfl, fun m hm => ?_, fun m h8 hm => ?_⟩
    · rw [outB_eq, inB_eq, putOut_outByte _ _ (by omega), copyDxt1, if_pos hm]
    · rw [outB_eq, putOut_outByte _ _ hm, copyDxt1, if_neg (Nat.not_lt.2 h8)]
      rfl
  · rw [← putOut_inByte]
    exact ⟨exec_out (i := .flipvDxt3) rfl hfull, exec_out (i := .flipvDxt5) rfl hfull⟩
  · exact ⟨exec_out_short (i := .flipvDxt3) rfl hshort, exec_out_short (i := .flipvDxt5) rfl hshort⟩

/-- Settles O38: every transform moves the block by its position map, so the DECODE of its OUT is
`exec_decode_moved`. -/
theorem decodeOfAMovedBlockMovesTheTexels : Obligations.DecodeOfAMovedBlockMovesTheTexels := by
  unfold Obligations.DecodeOfAMovedBlockMovesTheTexels
  intro f s hfull i src hi
  obtain ⟨map, hsrc, hlt, hexec⟩ : ∃ map : Nat → Nat, (∀ p < 16, map p = src p) ∧
      (∀ p < 16, map p < 16) ∧ exec i s = .next (s.putOut (gridPermute f map s.inByte)) := by
    rcases hi with ⟨k, hk, rfl, rfl⟩ | ⟨rfl, rfl⟩ | ⟨rfl, rfl⟩
    · exact ⟨mapRotate k, fun p hp => (rotSrc_eq hk hp).symm, fun p => mapRotate_lt k,
        exec_rotateCommand f k hfull⟩
    · exact ⟨mapFlipH, fun p hp => (flipSrc_eq hp).symm, fun p => mapFlipH_lt,
        exec_fliphCommand f hfull⟩
    · exact ⟨mapId, fun _ _ => rfl, fun _ hp => hp, exec_flipvCommand f hfull⟩
  obtain ⟨u, v, hu, hv, hcpal, hapal, htex⟩ := exec_decode_moved f (src := map)
    (c := outToIn (s.putOut (gridPermute f map s.inByte))) hfull hfull
    fun m hm => outToIn_putOut_inByte _ s (hm.trans_le (gridBytes_le f))
  exact ⟨_, u, v, hexec, hu, hv, hcpal, hapal,
    fun p => ⟨⟨map p, hlt p p.isLt⟩, hsrc p p.isLt, htex p _ rfl⟩⟩

/-- Settles O39: the second command moves the OUT of the first, so the maps compose. -/
theorem rotationsComposeAndFlipHUndoesItself :
    Obligations.RotationsComposeAndFlipHUndoesItself := by
  unfold Obligations.RotationsComposeAndFlipHUndoesItself
  intro f s hfull
  refine ⟨fun k hk k' hk' => ?_, ?_⟩
  · refine ⟨_, _, _, exec_rotateCommand f k hfull,
      exec_rotateCommand f k' (s := outToIn (s.putOut (gridPermute f (mapRotate k) s.inByte))) hfull,
      exec_rotateCommand f _ hfull, wordsOfBytes_congr fun m hm => ?_⟩
    rw [gridPermute_outToIn f _ (fun p => mapRotate_lt k') s hm]
    exact gridPermute_congr f (fun p => mapRotate_mapRotate hk hk') _ m
  · refine ⟨_, _, exec_fliphCommand f hfull,
      exec_fliphCommand f (s := outToIn (s.putOut (gridPermute f mapFlipH s.inByte))) hfull,
      fun m hm => ?_⟩
    have h16 : m < 16 := hm.trans_le (gridBytes_le f)
    rw [outB_eq, putOut_outByte _ _ h16, gridPermute_outToIn f _ (fun p => mapFlipH_lt) s h16,
      gridPermute_congr f (fun p => mapFlipH_mapFlipH), gridPermute_mapId f _ hm, inB_eq]

end Sys2Proof.Proofs

/-! ## NOP and the other words with OP = 0

NOP clears STATUS, and OP = 0 with any other bit set is a field error (spec 43_nop.md,
30_encoding.md rule R61). -/

namespace Sys2Proof.Proofs

open Sys2Proof.Machine Sys2Proof.Claims Sys2Proof.Laws

theorem decode_of_encodingError {w : Word} {e : ErrCode} (h : encodingError w = some e) :
    decode w = .error e := by
  rcases decode_cases w with ⟨c, hc, hd⟩ | ⟨i, hnone, -, -⟩
  · cases hc.symm.trans h
    exact hd
  · cases hnone.symm.trans h

/-- With OP = 0 the first check passes, and one set bit of FMT, K or RSV fails the second
(rule R61). -/
theorem encodingError_of_op_zero {w : Word} (hop : fieldOp w = 0) (hw : w ≠ 0x00000000#32) :
    encodingError w = some .badField := by
  have hfield : fieldRsv w ≠ 0 ∨ (fieldK w ≠ 0 ∧ fieldOp w ≠ 3) ∨
      (fieldFmt w ≠ 0 ∧ fieldOp w = 0) := by
    by_contra hzero
    have hsum := word_toNat_of_fields w
    exact hw (BitVec.eq_of_toNat_eq (show w.toNat = 0 by omega))
  rw [encodingError, if_neg (by omega), if_pos hfield]

/-- Settles O23: NOP's word is its encoding, its meaning writes STATUS alone, and a word with OP = 0
that is not NOP's has a field error. -/
theorem nopClearsStatusOnly : Obligations.NopClearsStatusOnly := by
  unfold Obligations.NopClearsStatusOnly
  refine ⟨decode_encode (i := .nop) rfl, fun s => rfl, fun w hmod hw => ?_⟩
  have hop : fieldOp w = 0 := (fields_nat w).1.trans hmod
  exact decode_of_encodingError (encodingError_of_op_zero hop hw)

end Sys2Proof.Proofs

/-! ## Errors leave the other registers

An error writes its code to STATUS and keeps the word in CMD (spec 60_exceptions.md rule R102). -/

namespace Sys2Proof.Proofs

open Sys2Proof.Machine Sys2Proof.Claims Sys2Proof.Laws

/-- A command's block has 8 bytes exactly if FMT is DXT1's: NOP's block, of no bytes, is left out. -/
theorem blockSizeOf_of_decode {v : Word} {i : Instr} (h : decode v = .ok i) (hnop : i ≠ .nop) :
    blockSizeOf i = if v.toNat / 16 % 4 = 0 then 8 else 16 := by
  cases i with
  | nop => exact absurd rfl hnop
  | rotateDxt1 k =>
    have hw := (decode_eq_rotateDxt1_iff.1 h).2
    exact (if_pos (by omega)).symm
  | rotateDxt5 k =>
    have hw := (decode_eq_rotateDxt5_iff.1 h).2
    exact (if_neg (by omega)).symm
  | _ =>
    obtain ⟨-, rfl⟩ := eq_encode_of_decode h
    rfl

/-- Settles O5: an illegal word ends with its error, and a short block of a command that is neither
NOP nor a DECODE ends with ERR_TRUNC. -/
theorem errorWritesOnlyStatusAndKeepsTheWord :
    Obligations.ErrorWritesOnlyStatusAndKeepsTheWord := by
  unfold Obligations.ErrorWritesOnlyStatusAndKeepsTheWord
  rintro v s e (hillegal | ⟨rfl, i, hd, hnop, hsize, hshort⟩)
  · rw [runCommand_error hillegal, statusError_eq]
  · rw [← blockSizeOf_of_decode hd hnop] at hshort
    rw [runCommand_ok hd]
    exact exec_trunc (s := { s with cmd := v }) hnop hsize hshort

end Sys2Proof.Proofs

/-! ## Reset

Reset leaves every register 0, so a command on what it leaves finds its input short, and a block whose
unit is reset just before its CMD write is lost (spec 70_reset_and_hazards.md rules R112 to R116). -/

namespace Sys2Proof.Proofs

open Sys2Proof.Machine Sys2Proof.Claims Sys2Proof.Laws

/-! ### Registers after a reset -/

theorem zeroed_reset : Zeroed State.reset := by decide

/-- A reset of the platform leaves the registers of the reset state (rule R112). -/
theorem zeroed_platformReset (s : State) : Zeroed s.platformReset := zeroed_reset

/-! ### Commands with INLEN at 0 -/

theorem blockSizeOf_pos {i : Instr} (h : i ≠ .nop) : 0 < blockSizeOf i := by
  cases i with
  | nop => exact absurd rfl h
  | _ => exact Nat.succ_pos _

theorem exists_decodeCommand {i : Instr} (h : (decodeSize i).isSome) :
    ∃ f, i = decodeCommand f := by
  obtain ⟨size, hsize⟩ := Option.isSome_iff_exists.1 h
  obtain ⟨rfl | rfl | rfl, -⟩ := decodeSize_eq_some_iff.1 hsize
  · exact ⟨.dxt1, rfl⟩
  · exact ⟨.dxt3, rfl⟩
  · exact ⟨.dxt5, rfl⟩

/-- A DECODE with INLEN at 0 leaves the zero tile and sets TRUNC (rules R84 and R116). -/
theorem exec_decode_empty {i : Instr} {s : State} (h : (decodeSize i).isSome) (hs : s.inlen = 0) :
    exec i s = .next { s with tex := Vector.replicate 16 0, status := statusShort } := by
  obtain ⟨f, rfl⟩ := exists_decodeCommand h
  exact exec_decode_short f (by rw [hs]; cases f <;> decide)

/-- With INLEN at 0 a command that is neither NOP nor a DECODE ends with ERR_TRUNC (rules R101 and
R116). -/
theorem exec_trunc_empty {i : Instr} {s : State} (hnop : i ≠ .nop) (h : decodeSize i = none)
    (hs : s.inlen = 0) : exec i s = .next (s.raiseError .trunc) :=
  exec_trunc hnop h (by rw [hs]; exact blockSizeOf_pos hnop)

/-! ### The actions of a block -/

/-- The actions are writes of registers other than CMD. -/
def LoadsBlock (acts : List HostAct) : Prop := ∀ a ∈ acts, ∃ r v, a = .write r v ∧ r ≠ .cmd

/-- The parts of a block's actions on either side of its CMD write and the check of STATUS: before
them writes of other registers, after them copies, and of a DECODE copies of TEX alone (rules R48 to
R53). -/
structure IsBlock (load : List HostAct) (i : Instr) (copies : List HostAct) : Prop where
  wellFormed : i.WellFormed
  ne_nop : i ≠ .nop
  loads : LoadsBlock load
  copies_copy : ∀ a ∈ copies, ∃ r off m, a = .copy r off m
  copies_tex : (decodeSize i).isSome → ∀ a ∈ copies, ∃ x off m, a = .copy (.tex x) off m

/-- A well-formed command that is neither NOP nor a DECODE. -/
def IsTransform (i : Instr) : Prop := i.WellFormed ∧ i ≠ .nop ∧ decodeSize i = none

theorem isTransform_rotateCommand (f : GridFmt) {k : Nat} (hk : k < 4) :
    IsTransform (rotateCommand f k) := by
  cases f <;> exact ⟨decide_eq_true hk, by simp [rotateCommand], rfl⟩

theorem isTransform_fliphCommand (f : GridFmt) : IsTransform (fliphCommand f) := by
  cases f <;> exact ⟨rfl, by decide, rfl⟩

theorem isTransform_flipvCommand (f : GridFmt) : IsTransform (flipvCommand f) := by
  cases f <;> exact ⟨rfl, by decide, rfl⟩

/-- The blocks of a rotation or flip that does not fault are transforms (rules R50 to R52). -/
theorem exists_transformActs {q : Sequence}
    (hq : (∃ f d w h times, rotateSequence f d w h times = .next q) ∨
      ∃ d w h bs, flipHSequence d w h bs = .next q ∨ flipVSequence d w h bs = .next q) :
    ∀ acts ∈ q.blocks, ∃ d bs i src dst, acts = transformActs d bs i src dst ∧ IsTransform i := by
  intro acts ha
  rcases hq with ⟨f, d, w, h, times, hq⟩ | ⟨d, w, h, bs, hq | hq⟩
  · simp only [rotateSequence] at hq
    split_ifs at hq
    cases hq
    obtain ⟨n, -, rfl⟩ := mem_over ha
    exact ⟨_, _, _, _, _, rfl, isTransform_rotateCommand f (stepsOf_lt times)⟩
  all_goals
    simp only [flipHSequence, flipVSequence] at hq
    split at hq
    · cases hq
    split at hq
    · cases hq
    split_ifs at hq
    cases hq
    obtain ⟨n, -, rfl⟩ := mem_over ha
  · exact ⟨_, _, _, _, _, rfl, isTransform_fliphCommand _⟩
  · exact ⟨_, _, _, _, _, rfl, isTransform_flipvCommand _⟩

/-- The actions of one command end with its CMD write and the check of STATUS. -/
theorem commandActs_append {b : Nat → Byte} {size len : Nat} {i : Instr} {ys : List HostAct}
    (hi : i.WellFormed) (hnop : i ≠ .nop) (hcopy : ∀ a ∈ ys, ∃ r off m, a = .copy r off m)
    (htex : (decodeSize i).isSome → ∀ a ∈ ys, ∃ x off m, a = .copy (.tex x) off m) :
    ∃ load, commandActs b size len i ++ ys = load ++ .write .cmd (encode i) :: .check :: ys ∧
      IsBlock load i ys := by
  refine ⟨(List.range (size / 4)).map (fun j =>
    .write (.inW (Fin.ofNat 4 j)) (wordOfBytes fun m => b (4 * j + m))) ++
      [.write .inlen (BitVec.ofNat 32 len)], by simp [commandActs], hi, hnop, fun a ha => ?_, hcopy,
    htex⟩
  rcases List.mem_append.1 ha with ha | ha
  · obtain ⟨j, -, rfl⟩ := List.mem_map.1 ha
    exact ⟨_, _, rfl, by simp⟩
  · obtain rfl := List.mem_singleton.1 ha
    exact ⟨_, _, rfl, by simp⟩

theorem copyOutActs_copy {off size : Nat} :
    ∀ a ∈ copyOutActs off size, ∃ r o m, a = .copy r o m := by
  intro a ha
  obtain ⟨j, -, rfl⟩ := List.mem_map.1 ha
  exact ⟨_, _, _, rfl⟩

theorem copyTexelActs_tex {w h ch bx yb n : Nat} :
    ∀ a ∈ (List.range n).flatMap (copyTexelActs w h ch bx yb),
      ∃ x off m, a = .copy (.tex x) off m := by
  intro a ha
  obtain ⟨i, -, ha⟩ := List.mem_flatMap.1 ha
  rw [copyTexelActs] at ha
  split at ha
  · exact ⟨_, _, _, List.mem_singleton.1 ha⟩
  · exact absurd ha List.not_mem_nil

/-- Every block of an image sequence is one command of its kind (rules R48 to R52). -/
theorem imageSequence_isBlock {q : Sequence} (h : IsImageSequence q) :
    ∀ acts ∈ q.blocks, ∃ load i copies,
      acts = load ++ .write .cmd (encode i) :: .check :: copies ∧ IsBlock load i copies := by
  intro acts ha
  rcases h with ⟨f, fill, d, w, h, rfl⟩ | ⟨px, w, h, ch, out, rfl⟩ | h
  · obtain ⟨n, -, rfl⟩ := mem_over ha
    obtain ⟨load, e, hb⟩ := commandActs_append (i := decodeCommand f) (by cases f <;> rfl)
      (by cases f <;> decide) (fun a ha => (copyTexelActs_tex a ha).elim fun _ h => ⟨_, h⟩)
      fun _ => copyTexelActs_tex
    exact ⟨load, _, _, e, hb⟩
  · obtain ⟨n, -, rfl⟩ := mem_over ha
    obtain ⟨load, e, hb⟩ := commandActs_append (i := .qalpha3Dxt3) rfl (by decide)
      copyOutActs_copy (fun h => nomatch h)
    exact ⟨load, _, _, e, hb⟩
  · obtain ⟨d, bs, i, src, dst, rfl, hi, hnop, hd⟩ := exists_transformActs h acts ha
    obtain ⟨load, e, hb⟩ := commandActs_append hi hnop copyOutActs_copy fun h => by simp [hd] at h
    exact ⟨load, _, _, e, hb⟩

/-- The only CMD write of a block stands between its two parts. -/
theorem IsBlock.cmd_write {load copies : List HostAct} {i : Instr} (hb : IsBlock load i copies)
    {n : Nat} {v c : Word}
    (h : (load ++ .write .cmd v :: .check :: copies)[n]? = some (.write .cmd c)) :
    n = load.length ∧ c = v := by
  rcases Nat.lt_trichotomy n load.length with hn | rfl | hn
  · rw [List.getElem?_append_left hn] at h
    obtain ⟨r, x, e, hr⟩ := hb.loads _ (List.mem_of_getElem? h)
    cases e
    exact absurd rfl hr
  · simpa [eq_comm] using h
  · obtain ⟨m, rfl⟩ := Nat.exists_eq_add_of_lt hn
    rw [List.getElem?_append_right (by omega), show load.length + m + 1 - load.length = m + 1 by omega,
      List.getElem?_cons_succ] at h
    cases m with
    | zero => cases h
    | succ m =>
      obtain ⟨r, off, k, e⟩ := hb.copies_copy _ (List.mem_of_getElem? h)
      cases e

/-! ### An agent's turns are its actions -/

/-- A sequence under way after the agent on unit `u` did actions of block `k`, with `rest` still to do;
`r` is its unit and the output buffer then. -/
def afterActs (p : Progress) (u k : Nat) (rest : List HostAct) (r : State × List Byte) : Progress :=
  ⟨p.workers.set u ⟨r.1, if rest = [] then none else some ⟨k, rest⟩⟩, r.2,
    (if rest = [] then [k] else []) ++ p.done⟩

theorem run_act_cons (q : Sequence) {p : Progress} {u k : Nat} {s : State} {a : HostAct}
    {rest : List HostAct} (hw : p.workers[u]? = some ⟨s, some ⟨k, a :: rest⟩⟩) :
    (Turn.act u).run q p = andThen (a.run (s, p.out)) fun r => .next (afterActs p u k rest r) := by
  have hact : (⟨s, some ⟨k, a :: rest⟩⟩ : Worker).act p.out = andThen (a.run (s, p.out)) fun r =>
      .next (⟨r.1, if rest = [] then none else some ⟨k, rest⟩⟩, r.2,
        if rest = [] then [k] else []) := by cases rest <;> rfl
  rw [run_act hw, hact, andThen_assoc]
  rfl

/-- Turns of one agent alone are its actions, one after another: the first of what it has in hand, and
`rest` is left. -/
theorem runTurns_agent (q : Sequence) {u k : Nat} {acts rest : List HostAct}
    (hne : acts = [] → rest ≠ []) {s : State} {p : Progress}
    (hw : p.workers[u]? = some ⟨s, some ⟨k, acts ++ rest⟩⟩) :
    runTurns q (List.replicate acts.length (.act u)) p =
      andThen (runActs acts (s, p.out)) fun r => .next (afterActs p u k rest r) := by
  induction acts generalizing s p with
  | nil =>
    obtain ⟨hu, e⟩ := List.getElem?_eq_some_iff.1 hw
    have hself : p.workers.set u ⟨s, some ⟨k, rest⟩⟩ = p.workers :=
      (congrArg (p.workers.set u) e.symm).trans (List.set_getElem_self hu)
    simp [runTurns, afterActs, hne rfl, hself]
  | cons a acts ih =>
    rw [List.length_cons, List.replicate_succ, runTurns, run_act_cons q hw, andThen_assoc,
      runActs_cons, andThen_assoc]
    refine congrArg (andThen (a.run (s, p.out))) (funext fun r => ?_)
    by_cases hr : acts ++ rest = []
    · obtain ⟨rfl, rfl⟩ := List.append_eq_nil_iff.1 hr
      rfl
    · have hu : u < p.workers.length := (List.getElem?_eq_some_iff.1 hw).1
      rw [andThen_next, ih (s := r.1) (fun h hn => hr (by simp [h, hn]))
        (by simp [afterActs, hu, hr])]
      simp [afterActs, hr]

theorem runTurns_take_agent {q : Sequence} {p : Progress} {u k : Nat} {w : Worker}
    {acts rest : List HostAct} (hw : p.workers[u]? = some w)
    (hacts : q.blocks[k]? = some (acts ++ rest)) (hne : acts = [] → rest ≠ []) :
    runTurns q (.take u k :: List.replicate acts.length (.act u)) p =
      andThen (runActs acts (w.unit, p.out)) fun r => .next (afterActs p u k rest r) := by
  have hu : u < p.workers.length := (List.getElem?_eq_some_iff.1 hw).1
  rw [runTurns, run_take hw, andThen_next,
    runTurns_agent q hne (s := w.unit) (k := k) (by simp [hu, Worker.take, hacts])]
  simp [afterActs]

/-! ### A block whose unit was reset before its CMD write -/

/-- Writes of registers other than CMD run through, and store nothing. -/
theorem runActs_loadsBlock {acts : List HostAct} (h : LoadsBlock acts) (s : State)
    (out : List Byte) : ∃ t, runActs acts (s, out) = .next (t, out) := by
  induction acts generalizing s with
  | nil => exact ⟨s, rfl⟩
  | cons a acts ih =>
    obtain ⟨r, v, rfl, hr⟩ := h a List.mem_cons_self
    obtain ⟨t, ht⟩ := ih (fun b hb => h b (List.mem_cons_of_mem _ hb)) (s.writeReg v r)
    exact ⟨t, by rw [runActs_cons, run_write hr, andThen_next, ht]⟩

/-- Taking block `k`, doing its first actions, and the reset: the agent still has the rest in hand. -/
theorem runTurns_until_reset {q : Sequence} {p : Progress} {u k : Nat} {w : Worker}
    {load rest : List HostAct} (hw : p.workers[u]? = some w)
    (hacts : q.blocks[k]? = some (load ++ rest)) (hrest : rest ≠ [])
    (hload : LoadsBlock load) :
    ∃ (s : State) (p' : Progress),
      p'.workers[u]? = some ⟨s.platformReset, some ⟨k, rest⟩⟩ ∧ p'.out = p.out ∧
      ∀ ts, runTurns q (.take u k :: List.replicate load.length (.act u) ++ .reset u :: ts) p
        = runTurns q ts p' := by
  have hu : u < p.workers.length := (List.getElem?_eq_some_iff.1 hw).1
  obtain ⟨t, ht⟩ := runActs_loadsBlock hload w.unit p.out
  refine ⟨t, { p with workers := p.workers.set u ⟨t.platformReset, some ⟨k, rest⟩⟩ }, by simp [hu],
    rfl, fun ts => ?_⟩
  rw [runTurns_append, runTurns_take_agent hw hacts fun _ => hrest, ht, andThen_next, andThen_next,
    runTurns, run_reset (w := ⟨t, some ⟨k, rest⟩⟩) (by simp [afterActs, hu, hrest]), andThen_next]
  simp [afterActs, hrest, Worker.reset]

/-- The CMD write of a transform, and the check after it, on a unit that was reset (rules R53, R101
and R114). -/
theorem runActs_transform_afterReset {c : Word} {i : Instr} (hc : decode c = .ok i)
    (hnop : i ≠ .nop) (hd : decodeSize i = none) (copies : List HostAct) (s : State)
    (out : List Byte) :
    runActs (.write .cmd c :: .check :: copies) (s.platformReset, out) = .fault .unitError := by
  have hcmd := (runCommand_ok hc s.platformReset).trans (exec_trunc_empty hnop hd rfl)
  rw [runActs_cons, run_write_cmd hcmd, andThen_next, runActs_cons,
    run_check_error (by rw [raiseError_status, statusErr_error]; decide)]
  rfl

/-- The CMD write of a DECODE on a unit that was reset, and the copies of TEX after it, store zeros
(rules R84 and R114). -/
theorem actsStore_decode_afterReset {c : Word} {i : Instr} (hc : decode c = .ok i)
    (hd : (decodeSize i).isSome) {copies : List HostAct}
    (hcopies : ∀ a ∈ copies, ∃ x off m, a = .copy (.tex x) off m) (s : State) :
    ActsStore (fun _ => 0) (.write .cmd c :: .check :: copies) s.platformReset := by
  have hcmd := (runCommand_ok hc s.platformReset).trans (exec_decode_empty hd rfl)
  refine ⟨_, run_write_cmd hcmd, _, run_check statusErr_short, actsStore_copies fun a ha => ?_⟩
  obtain ⟨x, off, m, rfl⟩ := hcopies a ha
  refine ⟨_, _, _, rfl, fun j _ => ?_⟩
  simp [State.readReg, byteAt, bits]

/-- Writes before other actions copy to no place. -/
theorem covered_loadsBlock_append {load rest : List HostAct} (h : LoadsBlock load) {j : Nat} :
    Covered (load ++ rest) j ↔ Covered rest j := by
  rw [covered_append, or_iff_right]
  rintro ⟨r, off, m, hm, -⟩
  obtain ⟨_, _, e, -⟩ := h _ hm
  cases e

/-! ### The obligations -/

/-- Settles O56: after the reset INLEN is 0, so a transform's check finds ERR_TRUNC, and a DECODE
leaves zeros in the TEX registers that are copied. -/
theorem goingOnAfterAResetLosesTheBlock : Obligations.GoingOnAfterAResetLosesTheBlock := by
  unfold Obligations.GoingOnAfterAResetLosesTheBlock
  intro q hq p u k n w acts c i hw hacts hcmd hc
  dsimp only
  obtain ⟨load, i', copies, rfl, hb⟩ := imageSequence_isBlock hq acts (List.mem_of_getElem? hacts)
  obtain ⟨rfl, rfl⟩ := hb.cmd_write hcmd
  obtain rfl : i' = i := by simpa [decode_encode hb.wellFormed] using hc
  obtain ⟨s, p₁, hw₁, hout₁, hrun⟩ := runTurns_until_reset hw hacts (by simp) hb.loads
  rw [List.length_append, Nat.add_sub_cancel_left, hrun,
    runTurns_agent q (rest := []) (by simp) (by rwa [List.append_nil]), hout₁]
  refine ⟨fun hd => ?_, fun hd => ?_⟩
  · rw [runActs_transform_afterReset hc hb.ne_nop hd]
    rfl
  · obtain ⟨t, ht⟩ := runActs_of_actsStore
      (actsStore_decode_afterReset hc hd (hb.copies_tex hd) s) p.out
    refine ⟨_, by rw [ht, andThen_next], by simp [afterActs], by simp [afterActs], fun j hj => ?_⟩
    obtain ⟨hset, hkeep⟩ := storedAll_byte (fun _ => 0) (.write .cmd (encode i') :: .check :: copies)
      hj
    rw [← covered_loadsBlock_append hb.loads] at hset hkeep
    refine ⟨fun hcov => congrArg BitVec.toNat (hset hcov), fun hout => ?_⟩
    refine congrArg BitVec.toNat (hkeep ?_)
    rintro ⟨r, off, m, hm, hlo, hhi⟩
    rcases hout r off m hm with h | h <;> omega

/-- Settles O18: the step that takes a reset leaves `platformReset`, and NOP writes STATUS 0 again. -/
theorem resetSetsEveryRegisterToZero : Obligations.ResetSetsEveryRegisterToZero := by
  unfold Obligations.ResetSetsEveryRegisterToZero
  exact ⟨zeroed_reset, fun s rest hp hi =>
    ⟨_, step_reset hp hi, zeroed_platformReset _, rfl, rfl⟩⟩

/-- Settles O19, by the kind of the command: NOP, a DECODE, or another. -/
theorem commandsAfterResetFindShortInput : Obligations.CommandsAfterResetFindShortInput := by
  unfold Obligations.CommandsAfterResetFindShortInput
  intro i words
  dsimp only
  split_ifs with hnop hd
  · subst hnop
    rfl
  · exact exec_decode_empty hd rfl
  · exact exec_trunc_empty hnop (by simpa using hd) rfl

/-- Settles O55: the reset of a unit sets its own worker's registers and nothing else. -/
theorem resetDuringASequenceKeepsCopiedOutputs :
    Obligations.ResetDuringASequenceKeepsCopiedOutputs := by
  unfold Obligations.ResetDuringASequenceKeepsCopiedOutputs
  intro q p u w hw
  exact ⟨w.unit.platformReset, run_reset hw, zeroed_platformReset _⟩

end Sys2Proof.Proofs

/-! ## The encoding and its inverse, and steps with no access performed

A command's word decodes to the command (spec 30_encoding.md rules R55 to R59); a step is refused for
two pending agents, and keeps the state when nothing is pending (spec 20_memory.md rule R41,
70_reset_and_hazards.md rule R119, 60_exceptions.md rule R110). -/

namespace Sys2Proof.Proofs

open Sys2Proof.Machine Sys2Proof.Claims Sys2Proof.Laws

/-! ### Steps that perform no access -/

theorem step_of_pending_nil {s : State} (h : s.pending = []) : step s = .next s := by
  simp only [step, performNext, h]

theorem step_of_agentsInterleave {s : State} (h : agentsInterleave s.pending = true) :
    step s = .refused .agentsInterleave := by
  rcases hp : s.pending with _ | ⟨e, rest⟩ <;> rw [hp] at h
  · cases h
  · simp only [step, performNext, hp, h, if_true]

/-- An access can be refused for its shape alone (rule R24). -/
theorem perform_ne_agentsInterleave (a : Access) (s : State) :
    perform a s ≠ .refused .agentsInterleave := by
  rcases perform_cases a s with ⟨-, h⟩ | ⟨-, h⟩ | ⟨r, h⟩ | ⟨v, h⟩ | ⟨v, r, -, h⟩
  case inr.inr.inr.inl =>
    obtain ⟨t, ht⟩ := runCommand_completes v s
    simp [h, ht]
  all_goals simp [h]

theorem step_eq_agentsInterleave_iff (s : State) :
    step s = .refused .agentsInterleave ↔ agentsInterleave s.pending = true := by
  refine ⟨fun hstep => ?_, step_of_agentsInterleave⟩
  rcases step_cases s with ⟨-, h⟩ | ⟨hi, -⟩ | ⟨rest, -, h⟩ | ⟨a, rest, -, -, h⟩
  · cases hstep.symm.trans h
  · exact hi
  · cases hstep.symm.trans h
  · exact absurd (h.symm.trans hstep) (perform_ne_agentsInterleave _ _)

/-! ### The obligations -/

/-- Settles O1: the checks of rule R61 pass on each row of rule R59's table, and the row's OP, FMT
and K give the command back. -/
theorem decodeOfEncodeGivesTheCommand : Obligations.DecodeOfEncodeGivesTheCommand := by
  unfold Obligations.DecodeOfEncodeGivesTheCommand
  exact fun _ => decode_encode

/-- Settles O13: a performed access is never refused for its agent, so the check of the pending
agents alone gives this refusal. -/
theorem twoPendingAgentsAreRefused : Obligations.TwoPendingAgentsAreRefused := by
  unfold Obligations.TwoPendingAgentsAreRefused
  exact fun s => (step_eq_agentsInterleave_iff s).trans (agentsInterleave_iff s.pending)

/-- Settles O3: each word, its fields joined, is the word of its command. -/
theorem sampleWordsDecodeAsTheFormatSays : Obligations.SampleWordsDecodeAsTheFormatSays := by
  unfold Obligations.SampleWordsDecodeAsTheFormatSays
  exact ⟨decode_encode (i := .nop) rfl, decode_encode (i := .qalpha3Dxt3) rfl,
    decode_encode (i := .decodeDxt5) rfl, decode_encode (i := .rotateDxt1 3) rfl,
    decode_encode (i := .rotateDxt5 2) rfl, decode_encode (i := .fliphDxt5) rfl,
    decode_encode (i := .flipvDxt3) rfl⟩

/-- Settles O14: with an empty queue `step` answers its own state. -/
theorem idleStepKeepsTheState : Obligations.IdleStepKeepsTheState := by
  unfold Obligations.IdleStepKeepsTheState
  exact fun _ => step_of_pending_nil

end Sys2Proof.Proofs
